-- ==== Sys2Proof/Word.lean ====
section
/-! DEFINITION. The words of HTD's interface: the widths of 00_scope.md R5, the command
transaction of 30_encoding.md R70 and the names of the register addresses of 10_state.md
section 3. -/

namespace Sys2Proof

/-- A command word, a write-data word, a read-data word or a register: 32 bits (R5 `CMD_W`,
`DATA_W`). -/
abbrev Word := BitVec 32

/-- An output byte (R5 `BYTE_W`). -/
abbrev Byte := BitVec 8

/-- A tree-memory index (R5 `NODE_AW`). -/
abbrev NodeIdx := BitVec 10

/-- A node word as the tree memory holds it (30_encoding.md R80). -/
abbrev NodeWord := BitVec 31

/-- A symbol code (R5 `SYM_W`). -/
abbrev SymCode := BitVec 9

/-- One command transaction: the command word and the write-data word (30_encoding.md R70). -/
structure Command where
  cmd : Word
  wdata : Word
  deriving DecidableEq, Repr

/-- The register addresses RA by name (10_state.md section 3, 30_encoding.md R87); 0x9..0xF are
reserved (20_memory.md R55). -/
inductive RegName where
  | param
  | ctrl
  | root
  | status
  | cur
  | depth
  | bitcnt
  | outcnt
  | finfo
  | reserved (ra : BitVec 4)
  deriving DecidableEq, Repr

end Sys2Proof
end

