-- ==== Sys2Proof/Syntax.lean ====
section
/-! DEFINITION. The ten commands of the opcode map (30_encoding.md R73), with the operands of
R71 and R72. -/

namespace Sys2Proof

/-- One command of HTD, its operands decoded: one constructor per row of the opcode table.
WDATA is an operand of NODE_WRITE and REG_WRITE only; every other command ignores it (R72). -/
inductive Instr where
  /-- NOP (R120) -/
  | nop
  /-- NODE_WRITE IDX, WDATA (R101) -/
  | nodeWrite (idx : NodeIdx) (data : Word)
  /-- NODE_READ IDX (R105) -/
  | nodeRead (idx : NodeIdx)
  /-- TREE_CLEAR (R108) -/
  | treeClear
  /-- REG_READ RA (R122) -/
  | regRead (ra : RegName)
  /-- REG_WRITE RA, WDATA (R123) -/
  | regWrite (ra : RegName) (data : Word)
  /-- START (R126) -/
  | start
  /-- ABORT (R128) -/
  | abort
  /-- BIT B (R140); `false` is the input bit 0 and `true` the input bit 1 -/
  | bit (b : Bool)
  /-- END (R147) -/
  | endInput
  deriving DecidableEq, Repr

end Sys2Proof
end

