-- ==== Sys2Proof/WellFormed.lean ====
section
/-! DEFINITION. Which instruction terms are commands HTD has. The operand types bound IDX, B and
WDATA; what is left to check is that a reserved register address is one of 0x9..0xF
(20_memory.md R55), so that every command has exactly one term (notes/assumptions/16.md). -/

namespace Sys2Proof

/-- A register address term is well formed: the nine registers have their own names, and a
reserved address is 0x9..0xF. -/
def RegName.wellFormed : RegName → Bool
  | .param | .ctrl | .root | .status | .cur | .depth | .bitcnt | .outcnt | .finfo => true
  | .reserved ra => decide (9 ≤ ra.toNat)

/-- An instruction term is well formed: its register address, where it has one, is. -/
def Instr.wellFormed : Instr → Bool
  | .nop => true
  | .nodeWrite _ _ => true
  | .nodeRead _ => true
  | .treeClear => true
  | .regRead ra => ra.wellFormed
  | .regWrite ra _ => ra.wellFormed
  | .start => true
  | .abort => true
  | .bit _ => true
  | .endInput => true

end Sys2Proof
end

