-- ==== Sys2Proof/Decode.lean ====
section
/-! DEFINITION. Decoding a command transaction into an instruction (30_encoding.md R70-R74), total
on every pair of words and rejecting by name, and the encoder written from the same formats. -/

namespace Sys2Proof

/-- Why a command word is illegal (R74). Both raise ILLEGAL_CMD. -/
inductive DecodeError where
  /-- OP is 0xA..0xF -/
  | reservedOpcode (op : BitVec 4)
  /-- OP is 0x0..0x9 and a bit its format reserves is not 0 -/
  | reservedBits (op : BitVec 4)
  deriving DecidableEq, Repr

/-- OP = CMD[31:28] (R71). -/
def opField (cmd : Word) : BitVec 4 := cmd.extractLsb' 28 4

/-- The register address of a name (10_state.md section 3). -/
def RegName.code : RegName → BitVec 4
  | .param => 0x0#4
  | .ctrl => 0x1#4
  | .root => 0x2#4
  | .status => 0x3#4
  | .cur => 0x4#4
  | .depth => 0x5#4
  | .bitcnt => 0x6#4
  | .outcnt => 0x7#4
  | .finfo => 0x8#4
  | .reserved ra => ra

/-- The name of a register address (10_state.md section 3); 0x9..0xF are reserved. -/
def RegName.ofCode (ra : BitVec 4) : RegName :=
  match ra.toNat with
  | 0 => .param
  | 1 => .ctrl
  | 2 => .root
  | 3 => .status
  | 4 => .cur
  | 5 => .depth
  | 6 => .bitcnt
  | 7 => .outcnt
  | 8 => .finfo
  | _ => .reserved ra

/-- Format Z: CMD[27:0] = 0 (R71). -/
def decodeZ (cmd : Word) (i : Instr) : Except DecodeError Instr :=
  if cmd.extractLsb' 0 28 = 0#28 then .ok i else .error (.reservedBits (opField cmd))

/-- Format N: CMD[27:10] = 0 and IDX = CMD[9:0] (R71). -/
def decodeN (cmd : Word) (f : NodeIdx → Instr) : Except DecodeError Instr :=
  if cmd.extractLsb' 10 18 = 0#18 then .ok (f (cmd.extractLsb' 0 10))
  else .error (.reservedBits (opField cmd))

/-- Format R: CMD[27:4] = 0 and RA = CMD[3:0] (R71). -/
def decodeR (cmd : Word) (f : RegName → Instr) : Except DecodeError Instr :=
  if cmd.extractLsb' 4 24 = 0#24 then .ok (f (RegName.ofCode (cmd.extractLsb' 0 4)))
  else .error (.reservedBits (opField cmd))

/-- Format B: CMD[27:1] = 0 and B = CMD[0] (R71). -/
def decodeB (cmd : Word) (f : Bool → Instr) : Except DecodeError Instr :=
  if cmd.extractLsb' 1 27 = 0#27 then .ok (f (cmd.getLsbD 0))
  else .error (.reservedBits (opField cmd))

/-- The instruction a command transaction stands for, or why it stands for none (R71-R74). -/
def decode (c : Command) : Except DecodeError Instr :=
  match (opField c.cmd).toNat with
  | 0 => decodeZ c.cmd .nop
  | 1 => decodeN c.cmd (fun idx => .nodeWrite idx c.wdata)
  | 2 => decodeN c.cmd .nodeRead
  | 3 => decodeZ c.cmd .treeClear
  | 4 => decodeR c.cmd .regRead
  | 5 => decodeR c.cmd (fun ra => .regWrite ra c.wdata)
  | 6 => decodeZ c.cmd .start
  | 7 => decodeZ c.cmd .abort
  | 8 => decodeB c.cmd .bit
  | 9 => decodeZ c.cmd .endInput
  | _ => .error (.reservedOpcode (opField c.cmd))

/-- The opcode of an instruction (R73). -/
def Instr.opcode : Instr → BitVec 4
  | .nop => 0x0#4
  | .nodeWrite _ _ => 0x1#4
  | .nodeRead _ => 0x2#4
  | .treeClear => 0x3#4
  | .regRead _ => 0x4#4
  | .regWrite _ _ => 0x5#4
  | .start => 0x6#4
  | .abort => 0x7#4
  | .bit _ => 0x8#4
  | .endInput => 0x9#4

/-- CMD[27:0] of an instruction: its operand in its format's place, every reserved bit 0 (R71). -/
def Instr.operandBits : Instr → BitVec 28
  | .nop => 0#28
  | .nodeWrite idx _ => 0#18 ++ idx
  | .nodeRead idx => 0#18 ++ idx
  | .treeClear => 0#28
  | .regRead ra => 0#24 ++ ra.code
  | .regWrite ra _ => 0#24 ++ ra.code
  | .start => 0#28
  | .abort => 0#28
  | .bit b => 0#27 ++ BitVec.ofBool b
  | .endInput => 0#28

/-- WDATA of an instruction; 0 for every command without a DATA operand (R87). -/
def Instr.writeData : Instr → Word
  | .nop => 0#32
  | .nodeWrite _ data => data
  | .nodeRead _ => 0#32
  | .treeClear => 0#32
  | .regRead _ => 0#32
  | .regWrite _ data => data
  | .start => 0#32
  | .abort => 0#32
  | .bit _ => 0#32
  | .endInput => 0#32

/-- The two words of an instruction (R70, R71). -/
def encode (i : Instr) : Command where
  cmd := i.opcode ++ i.operandBits
  wdata := i.writeData

/-- The mnemonic of an instruction (R73). -/
def Instr.mnemonic : Instr → String
  | .nop => "NOP"
  | .nodeWrite _ _ => "NODE_WRITE"
  | .nodeRead _ => "NODE_READ"
  | .treeClear => "TREE_CLEAR"
  | .regRead _ => "REG_READ"
  | .regWrite _ _ => "REG_WRITE"
  | .start => "START"
  | .abort => "ABORT"
  | .bit _ => "BIT"
  | .endInput => "END"

/-- A row of the opcode map: a word is the row's when (CMD & mask) is the pattern (R73). -/
structure OpcodeRow where
  mnemonic : String
  pattern : Word
  mask : Word
  deriving DecidableEq, Repr

/-- The opcode map of R73, its `match` column under the name `pattern`. -/
def opcodeMap : List OpcodeRow :=
  [ ⟨"NOP", 0x00000000#32, 0xFFFFFFFF#32⟩,
    ⟨"NODE_WRITE", 0x10000000#32, 0xFFFFFC00#32⟩,
    ⟨"NODE_READ", 0x20000000#32, 0xFFFFFC00#32⟩,
    ⟨"TREE_CLEAR", 0x30000000#32, 0xFFFFFFFF#32⟩,
    ⟨"REG_READ", 0x40000000#32, 0xFFFFFFF0#32⟩,
    ⟨"REG_WRITE", 0x50000000#32, 0xFFFFFFF0#32⟩,
    ⟨"START", 0x60000000#32, 0xFFFFFFFF#32⟩,
    ⟨"ABORT", 0x70000000#32, 0xFFFFFFFF#32⟩,
    ⟨"BIT", 0x80000000#32, 0xFFFFFFFE#32⟩,
    ⟨"END", 0x90000000#32, 0xFFFFFFFF#32⟩ ]

/-- The command word fits the row: `(CMD & mask) == match` (R73). -/
def OpcodeRow.fits (r : OpcodeRow) (cmd : Word) : Bool := cmd &&& r.mask == r.pattern

/-- The transaction whose bits are `w` as the opcode table numbers them: CMD is bits 31..0 and
WDATA bits 63..32; bits from `nbits` up are 0 (notes/assumptions/12.md). -/
def tableCommand (nbits w : Nat) : Command where
  cmd := BitVec.ofNat 32 (w % 2 ^ nbits)
  wdata := BitVec.ofNat 32 (w % 2 ^ nbits / 2 ^ 32)

/-- The instruction the decoder reads from the bits `w` of an opcode-table row. -/
def decodeTableWord (nbits w : Nat) : Option Instr :=
  (decode (tableCommand nbits w)).toOption

end Sys2Proof
end

