-- ==== Sys2Proof/Config.lean ====
section
/-! DEFINITION. The implementation parameters of 00_scope.md R5 that are constants of HTD-1, the
bounds of the one size parameter NODE_COUNT, and the one free value of the model. -/

namespace Sys2Proof.Config

/-- EOS, the end-of-stream symbol code (R5, 30_encoding.md R81). -/
def eos : SymCode := 256#9

/-- NAS, "not a symbol": the code an internal node holds (R5, 30_encoding.md R81). -/
def nas : SymCode := 257#9

/-- The least NODE_COUNT of an instance (R5). -/
def nodeCountMin : Nat := 513

/-- The greatest NODE_COUNT of an instance (R5). -/
def nodeCountMax : Nat := 1024

/-- The default NODE_COUNT (R5); the instance that `Machine.State.reset` describes. -/
def nodeCountDefault : Nat := 1024

/-- FREE VALUE (notes/assumptions/5.md): the content of NODE[i] while V[i] = 0, which
10_state.md R32 leaves unspecified. It has no body: nothing can be proved of its value. -/
opaque unwrittenNode : Nat → NodeWord

end Sys2Proof.Config
end

