-- ==== Sys2Proof/Machine/State.lean ====
section
/-! DEFINITION. The complete state of an HTD instance (10_state.md R21), the host's side of the
ports as plain data, and the state after reset (70_reset_and_hazards.md R230). -/

namespace Sys2Proof.Machine

/-- STATE, the engine's mode (10_state.md R22). -/
inductive Mode where
  | idle
  | run
  | done
  | malformed
  | fault
  deriving DecidableEq, Repr

/-- CAUSE codes (60_exceptions.md R201). -/
inductive Cause where
  | none
  | illegalCmd
  | treeBusy
  | cmdState
  | badIndex
  | badNode
  | badRoot
  | absentChild
  | unwrittenNode
  | depthOverflow
  deriving DecidableEq, Repr

/-- The fields of FINFO (10_state.md R31). -/
structure FInfo where
  fidx : NodeIdx
  fbit : Bool
  fop : BitVec 4
  deriving DecidableEq, Repr

/-- The response of one command (00_scope.md R12). -/
structure Response where
  rdata : Word
  emit : Bool
  sym : Byte
  err : Bool
  deriving DecidableEq, Repr

/-- What the host does at the command side of the ports, oldest first. When the host next drives
`cmd_valid` or `rst_n` is its own freedom (00_scope.md R9): an input follows the one before it with
no edge between them, unless `idle` stands there (DESIGN CHOICE, notes/assumptions/17.md; see also
1.md, 4.md). -/
inductive HostInput where
  /-- The host offers nothing at one edge: `cmd_valid` is low and `rst_n` is high
  (30_encoding.md R86, notes/assumptions/17.md). -/
  | idle
  /-- The host offers a command until it is accepted (30_encoding.md R86). -/
  | command (c : Command)
  /-- `rst_n` is low at a rising edge, with the command whose transfer coincides with it, if any
  (70_reset_and_hazards.md R231). -/
  | reset (coinciding : Option Command)
  deriving DecidableEq, Repr

/-- The tree memory: the written entries (index, node word), indices strictly rising. An index
that is not listed has written bit V = 0 (10_state.md R32, notes/assumptions/5.md). -/
abbrev Memory := List (Nat × NodeWord)

/-- The state of an HTD instance with the host's side of its ports. -/
structure State where
  /-- PARAM's NODE_COUNT, the constant of the instance (10_state.md R25, notes/assumptions/6.md). -/
  nodeCount : Nat
  /-- CTRL[2:0] (R26). -/
  ctrl : BitVec 3
  /-- ROOT (R27). -/
  root : NodeIdx
  /-- STATE (R22). -/
  mode : Mode
  /-- STICKY (R28). -/
  sticky : Bool
  /-- CAUSE (R28, 60_exceptions.md R201). -/
  cause : Cause
  /-- FINFO (R31). -/
  finfo : FInfo
  /-- CUR, the walk position (R24). -/
  cur : NodeIdx
  /-- DEPTH (R29). -/
  depth : BitVec 11
  /-- BITCNT (R30). -/
  bitcnt : Word
  /-- OUTCNT (R30). -/
  outcnt : Word
  /-- V[i] and NODE[i] (R32). -/
  tree : Memory
  /-- The response that has not yet transferred (30_encoding.md R86, 70_reset_and_hazards.md
  R230). -/
  rsp : Option Response
  /-- Model's own: what the host will do at the command port, oldest first
  (notes/assumptions/1.md). -/
  inputs : List HostInput
  /-- Model's own: the level of `rsp_ready` at each coming step, high beyond the list
  (notes/assumptions/2.md). -/
  rspReady : List Bool
  /-- Model's own: the responses that have crossed to the host, oldest first
  (notes/assumptions/3.md). -/
  taken : List Response
  deriving DecidableEq, Repr

/-- Why a step would stop the machine. HTD has no such reason: a fault of HTD is recorded in the
state and never stops the block (60_exceptions.md R200), so this type has no constructor
(notes/assumptions/11.md; safe). -/
inductive Fault where
  deriving DecidableEq, Repr

/-- Why a step would be refused. No meaning raises one (notes/assumptions/11.md). -/
inductive Refusal where
  /-- Raised by an arm of `exec` that has no meaning yet (safe); no arm of this model raises it. -/
  | notModelled (mnemonic : String)
  deriving DecidableEq, Repr

/-- The state after reset of an instance with `n` tree-memory entries (70_reset_and_hazards.md
R230): every register 0, STATE = IDLE, every V[i] = 0, no response pending. -/
def State.powerOn (n : Nat) : State where
  nodeCount := n
  ctrl := 0#3
  root := 0#10
  mode := .idle
  sticky := false
  cause := .none
  finfo := ⟨0#10, false, 0#4⟩
  cur := 0#10
  depth := 0#11
  bitcnt := 0#32
  outcnt := 0#32
  tree := []
  rsp := none
  inputs := []
  rspReady := []
  taken := []

/-- The machine right after reset, with the default NODE_COUNT (00_scope.md R5). -/
def State.reset : State := State.powerOn Config.nodeCountDefault

end Sys2Proof.Machine
end

