-- ==== Sys2Proof/Machine/Operands.lean ====
section
/-! DEFINITION. The node word: its fields, its legality and its assembly (30_encoding.md R80-R82,
R85), and the choice of a branch by an input bit (42_bitstream.md R141). -/

namespace Sys2Proof.Machine

/-- `sym(w)` = w[8:0] (00_scope.md R11). -/
def NodeWord.sym (w : NodeWord) : SymCode := w.extractLsb' 0 9

/-- `leaf(w)`: w[8:0] is not NAS (00_scope.md R11). -/
def NodeWord.isLeaf (w : NodeWord) : Bool := NodeWord.sym w != Config.nas

/-- `zv(w)` = w[9]: the zero-branch child is present. -/
def NodeWord.zv (w : NodeWord) : Bool := w.getLsbD 9

/-- `ov(w)` = w[10]: the one-branch child is present. -/
def NodeWord.ov (w : NodeWord) : Bool := w.getLsbD 10

/-- `zc(w)` = w[20:11]: the index of the zero-branch child. -/
def NodeWord.zc (w : NodeWord) : NodeIdx := w.extractLsb' 11 10

/-- `oc(w)` = w[30:21]: the index of the one-branch child. -/
def NodeWord.oc (w : NodeWord) : NodeIdx := w.extractLsb' 21 10

/-- Bit 0 selects (ZV, ZC) and bit 1 selects (OV, OC) (42_bitstream.md R141). -/
def NodeWord.branch (w : NodeWord) (b : Bool) : Bool × NodeIdx :=
  if b then (NodeWord.ov w, NodeWord.oc w) else (NodeWord.zv w, NodeWord.zc w)

/-- The leaf clause of `legal_node` on w[30:0] (30_encoding.md R82). -/
def NodeWord.legalLeaf (w : NodeWord) : Bool :=
  decide ((NodeWord.sym w).toNat ≤ 256) && w.extractLsb' 9 22 == 0#22

/-- One child field of the internal clause: present and inside the memory, or absent and 0. -/
def legalChild (nodeCount : Nat) (present : Bool) (child : NodeIdx) : Bool :=
  if present then decide (child.toNat < nodeCount) else child == 0#10

/-- The internal clause of `legal_node` on w[30:0] (30_encoding.md R82). -/
def NodeWord.legalInternal (nodeCount : Nat) (w : NodeWord) : Bool :=
  NodeWord.sym w == Config.nas && (NodeWord.zv w || NodeWord.ov w) &&
    legalChild nodeCount (NodeWord.zv w) (NodeWord.zc w) &&
    legalChild nodeCount (NodeWord.ov w) (NodeWord.oc w)

/-- A stored node word is a leaf or an internal node that `legal_node` admits. -/
def NodeWord.legal (nodeCount : Nat) (w : NodeWord) : Bool :=
  NodeWord.legalLeaf w || NodeWord.legalInternal nodeCount w

/-- `legal_node(w)` of a 32-bit WDATA (30_encoding.md R82): bit 31 is 0 and w[30:0] is legal. -/
def legalNode (nodeCount : Nat) (w : Word) : Bool :=
  !w.getLsbD 31 && NodeWord.legal nodeCount (w.extractLsb' 0 31)

/-- A leaf word: `zext_31(SYM)` (30_encoding.md R80). -/
def leafWord (sym : SymCode) : NodeWord := sym.setWidth 31

/-- An internal word: `{OC, ZC, OV, ZV, 0x101}` (30_encoding.md R80), an absent child's presence
bit and index 0 (R82, R88). -/
def innerWord (zero one : Option NodeIdx) : NodeWord :=
  one.getD 0#10 ++ zero.getD 0#10 ++ BitVec.ofBool one.isSome ++ BitVec.ofBool zero.isSome ++
    Config.nas

end Sys2Proof.Machine
end

