-- ==== Sys2Proof/Machine/Ops.lean ====
section
/-! DEFINITION. The named operations: the tree memory (00_scope.md R11), responses (R12), and the
fault primitive (60_exceptions.md R203) with what ends a fault episode beside it (R205). -/

namespace Sys2Proof.Machine

/-- The canonical form: indices strictly rising. An unlisted index has V = 0 and a listed one
V = 1, so no entry equals what an unlisted index reads as. -/
abbrev Memory.wf (m : Memory) : Prop := m.Pairwise (fun a b => a.1 < b.1)

/-- The node word of entry `i`, or none where V[i] = 0 (10_state.md R32). -/
def Memory.lookup : Memory → Nat → Option NodeWord
  | [], _ => none
  | e :: m, i => if e.1 = i then some e.2 else Memory.lookup m i

/-- Entry `i` replaced or added in its place (10_state.md R32). -/
def Memory.write : Memory → Nat → NodeWord → Memory
  | [], i, w => [(i, w)]
  | e :: m, i, w =>
    if i < e.1 then (i, w) :: e :: m
    else if i = e.1 then (i, w) :: m
    else e :: Memory.write m i w

/-- `MemRead(i, 1)` of a tree memory: the pair (V[i], NODE[i]) (00_scope.md R11). NODE[i] while
V[i] = 0 is the free value (notes/assumptions/5.md). -/
def Memory.read (m : Memory) (i : NodeIdx) : Bool × NodeWord :=
  match m.lookup i.toNat with
  | some w => (true, w)
  | none => (false, Config.unwrittenNode i.toNat)

/-- `MemRead(i, 1)` (00_scope.md R11). -/
def State.memRead (s : State) (i : NodeIdx) : Bool × NodeWord := s.tree.read i

/-- `MemWrite(i, 1, w)`: NODE[i] <- w[30:0] and V[i] <- 1 (00_scope.md R11). -/
def State.memWrite (s : State) (i : NodeIdx) (w : Word) : State :=
  { s with tree := s.tree.write i.toNat (w.extractLsb' 0 31) }

/-- V[i] <- 0 for every i (40_tree_load.md R108). -/
def State.memClear (s : State) : State := { s with tree := [] }

/-- A response with every field at its default (00_scope.md R12). -/
def Response.ok : Response := ⟨0#32, false, 0#8, false⟩

/-- The response of a read: RDATA set (R12). -/
def Response.data (v : Word) : Response := { Response.ok with rdata := v }

/-- The response that delivers a byte: `emit(b)` (00_scope.md R11). -/
def Response.byte (b : Byte) : Response := { Response.ok with emit := true, sym := b }

/-- The response of a command that raised a fault (60_exceptions.md R203). -/
def Response.error : Response := { Response.ok with err := true }

/-- The command's response stands at the response port (30_encoding.md R86). -/
def State.respond (s : State) (r : Response) : State := { s with rsp := some r }

/-- The fault primitive `raise Fault(cause, idx, bit)` of a command with opcode `op`
(60_exceptions.md R203): the first fault of an episode is recorded (R206), STATE <- FAULT,
STICKY <- 1, ERR = 1, and nothing else changes (R204). -/
def State.raise (s : State) (op : BitVec 4) (cause : Cause) (idx : NodeIdx) (bit : Bool) : State :=
  { s with
    cause := if s.mode = .fault then s.cause else cause
    finfo := if s.mode = .fault then s.finfo else ⟨idx, bit, op⟩
    mode := .fault
    sticky := true
    rsp := some Response.error }

/-- CAUSE <- NONE; FINFO <- 0: what START and ABORT do to the fault record, the only ways out of
FAULT (60_exceptions.md R205). STICKY stays. -/
def State.clearFault (s : State) : State :=
  { s with cause := .none, finfo := ⟨0#10, false, 0#4⟩ }

end Sys2Proof.Machine
end

