-- ==== Sys2Proof/Machine/BitStream.lean ====
section
/-! DEFINITION. The bit-stream commands BIT and END: the tree walk (42_bitstream.md). -/

namespace Sys2Proof.Machine

/-- Arrival at child `c` with node word `cw`, the bit counted (R143, R144): the EOS leaf ends the
run undelivered, a byte leaf delivers its byte and returns to the root, an internal node becomes
the walk position. -/
def State.arrive (s : State) (c : NodeIdx) (cw : NodeWord) : State :=
  if NodeWord.isLeaf cw then
    if NodeWord.sym cw = Config.eos then
      { s with mode := .done, bitcnt := s.bitcnt + 1#32, cur := c,
               depth := s.depth + 1#11 }.respond .ok
    else
      { s with bitcnt := s.bitcnt + 1#32, outcnt := s.outcnt + 1#32, cur := s.root,
               depth := 0#11 }.respond (.byte ((NodeWord.sym cw).extractLsb' 0 8))
  else
    { s with bitcnt := s.bitcnt + 1#32, cur := c, depth := s.depth + 1#11 }.respond .ok

/-- One step of the walk in RUN (R140-R145): ABSENT_CHILD, UNWRITTEN_NODE and DEPTH_OVERFLOW in
this order, else arrival at the selected child. DEPTH + 1 is compared without wrapping
(notes/assumptions/7.md). -/
def walkBit (b : Bool) (s : State) : State :=
  let op := (Instr.bit b).opcode
  let child := NodeWord.branch (s.memRead s.cur).2 b
  let entry := s.memRead child.2
  if child.1 = false then s.raise op .absentChild s.cur b
  else if entry.1 = false then s.raise op .unwrittenNode child.2 b
  else if s.nodeCount ≤ s.depth.toNat + 1 then s.raise op .depthOverflow child.2 b
  else s.arrive child.2 entry.2

/-- BIT (R140): CMD_STATE in IDLE, a step of the walk in RUN, discarded otherwise (R146). -/
def execBit (b : Bool) (s : State) : Host.Outcome State Fault Refusal :=
  match s.mode with
  | .idle => .next (s.raise (Instr.bit b).opcode .cmdState 0#10 b)
  | .run => .next (walkBit b s)
  | .done | .malformed | .fault => .next (s.respond .ok)

/-- END (R147): CMD_STATE in IDLE, MALFORMED from RUN, no effect otherwise (R148). -/
def execEndInput (s : State) : Host.Outcome State Fault Refusal :=
  match s.mode with
  | .idle => .next (s.raise Instr.endInput.opcode .cmdState 0#10 false)
  | .run => .next ({ s with mode := .malformed }.respond .ok)
  | .done | .malformed | .fault => .next (s.respond .ok)

end Sys2Proof.Machine
end

