-- ==== Sys2Proof/Machine/Flags.lean ====
section
/-! DEFINITION. HTD has no flags and no condition codes (10_state.md R34). What a host reads of the
engine's condition stands here: the codes of STATE and CAUSE, the `irq` level
(60_exceptions.md R210) and the register values of REG_READ (41_control.md R121). -/

namespace Sys2Proof.Machine

/-- The value of STATE (10_state.md R22). -/
def Mode.code : Mode → BitVec 3
  | .idle => 0#3
  | .run => 1#3
  | .done => 2#3
  | .malformed => 3#3
  | .fault => 4#3

/-- The value of CAUSE (60_exceptions.md R201). -/
def Cause.code : Cause → BitVec 4
  | .none => 0#4
  | .illegalCmd => 1#4
  | .treeBusy => 2#4
  | .cmdState => 3#4
  | .badIndex => 4#4
  | .badNode => 5#4
  | .badRoot => 6#4
  | .absentChild => 7#4
  | .unwrittenNode => 8#4
  | .depthOverflow => 9#4

/-- CTRL[0] (10_state.md R26). -/
def State.ieDone (s : State) : Bool := s.ctrl.getLsbD 0

/-- CTRL[1] (10_state.md R26). -/
def State.ieMal (s : State) : Bool := s.ctrl.getLsbD 1

/-- CTRL[2] (10_state.md R26). -/
def State.ieFault (s : State) : Bool := s.ctrl.getLsbD 2

/-- The level of the `irq` output, a function of STATE and CTRL (60_exceptions.md R210). -/
def State.irq (s : State) : Bool :=
  (s.ieDone && s.mode == .done) || (s.ieMal && s.mode == .malformed) ||
    (s.ieFault && s.mode == .fault)

/-- PARAM: `{7'b0, EOS[8:0], 5'b0, NODE_COUNT[10:0]}` (41_control.md R121). -/
def State.paramWord (s : State) : Word :=
  0#7 ++ Config.eos ++ 0#5 ++ BitVec.ofNat 11 s.nodeCount

/-- STATUS: `zext_32({IRQ, CAUSE[3:0], STICKY, STATE[2:0]})` (41_control.md R121). -/
def State.statusWord (s : State) : Word :=
  0#23 ++ BitVec.ofBool s.irq ++ s.cause.code ++ BitVec.ofBool s.sticky ++ s.mode.code

/-- FINFO: `zext_32({FOP[3:0], 1'b0, FBIT, FIDX[9:0]})` (41_control.md R121). -/
def FInfo.word (f : FInfo) : Word :=
  0#16 ++ f.fop ++ 0#1 ++ BitVec.ofBool f.fbit ++ f.fidx

/-- `regval(RA)` (41_control.md R121), none for the reserved addresses (R122). -/
def State.regVal (s : State) : RegName → Option Word
  | .param => some s.paramWord
  | .ctrl => some (s.ctrl.setWidth 32)
  | .root => some (s.root.setWidth 32)
  | .status => some s.statusWord
  | .cur => some (s.cur.setWidth 32)
  | .depth => some (s.depth.setWidth 32)
  | .bitcnt => some s.bitcnt
  | .outcnt => some s.outcnt
  | .finfo => some s.finfo.word
  | .reserved _ => none

end Sys2Proof.Machine
end

