-- ==== Sys2Proof/Machine/Control.lean ====
section
/-! DEFINITION. The control commands NOP, REG_READ, REG_WRITE, START and ABORT
(41_control.md). -/

namespace Sys2Proof.Machine

/-- NOP (R120): nothing but its response. -/
def execNop (s : State) : Host.Outcome State Fault Refusal := .next (s.respond .ok)

/-- REG_READ (R122): the register's value, or ILLEGAL_CMD for a reserved address. -/
def execRegRead (ra : RegName) (s : State) : Host.Outcome State Fault Refusal :=
  match s.regVal ra with
  | some v => .next (s.respond (.data v))
  | none => .next (s.raise (Instr.regRead ra).opcode .illegalCmd 0#10 false)

/-- REG_WRITE (R123): CTRL and ROOT keep their defined fields, ROOT is refused in RUN (R124), and
every other address raises ILLEGAL_CMD. -/
def execRegWrite (ra : RegName) (data : Word) (s : State) : Host.Outcome State Fault Refusal :=
  let op := (Instr.regWrite ra data).opcode
  match ra with
  | .ctrl => .next ({ s with ctrl := data.extractLsb' 0 3 }.respond .ok)
  | .root =>
    if s.mode = .run then .next (s.raise op .treeBusy s.root false)
    else .next ({ s with root := data.extractLsb' 0 10 }.respond .ok)
  | .param | .status | .cur | .depth | .bitcnt | .outcnt | .finfo | .reserved _ =>
    .next (s.raise op .illegalCmd 0#10 false)

/-- START accepts the root ROOT names: inside the memory, written and internal (R126). -/
def State.rootValid (s : State) : Bool :=
  decide (s.root.toNat < s.nodeCount) && (s.memRead s.root).1 &&
    !NodeWord.isLeaf (s.memRead s.root).2

/-- The state in which a run begins (R126). -/
def State.beginRun (s : State) : State :=
  { s.clearFault with
    mode := .run
    cur := s.root
    depth := 0#11
    bitcnt := 0#32
    outcnt := 0#32 }

/-- START (R126): BAD_ROOT, or a run begins at the root, from any state. -/
def execStart (s : State) : Host.Outcome State Fault Refusal :=
  if s.rootValid = false then .next (s.raise Instr.start.opcode .badRoot s.root false)
  else .next (s.beginRun.respond .ok)

/-- ABORT (R128): IDLE from any state, the fault record cleared. -/
def execAbort (s : State) : Host.Outcome State Fault Refusal :=
  .next ({ s.clearFault with mode := .idle }.respond .ok)

end Sys2Proof.Machine
end

