-- ==== Sys2Proof/Machine/TreeLoad.lean ====
section
/-! DEFINITION. The tree-load commands NODE_WRITE, NODE_READ and TREE_CLEAR (40_tree_load.md). The
reserved-bit check of R100 is the decoder's (Decode.lean, Machine/Ports.lean). -/

namespace Sys2Proof.Machine

/-- NODE_WRITE (R101): TREE_BUSY, BAD_INDEX and BAD_NODE in this order (60_exceptions.md R202),
else one whole entry is written. -/
def execNodeWrite (idx : NodeIdx) (data : Word) (s : State) : Host.Outcome State Fault Refusal :=
  let op := (Instr.nodeWrite idx data).opcode
  if s.mode = .run then .next (s.raise op .treeBusy idx false)
  else if s.nodeCount ≤ idx.toNat then .next (s.raise op .badIndex idx false)
  else if legalNode s.nodeCount data = false then .next (s.raise op .badNode idx false)
  else .next ((s.memWrite idx data).respond .ok)

/-- RDATA of NODE_READ: `v ? (1<<31) | zext_32(w) : 0` (R105). -/
def nodeReadData (e : Bool × NodeWord) : Word := if e.1 then 1#1 ++ e.2 else 0#32

/-- NODE_READ (R105): BAD_INDEX, or the entry with its written bit in bit 31. -/
def execNodeRead (idx : NodeIdx) (s : State) : Host.Outcome State Fault Refusal :=
  if s.nodeCount ≤ idx.toNat then
    .next (s.raise (Instr.nodeRead idx).opcode .badIndex idx false)
  else .next (s.respond (.data (nodeReadData (s.memRead idx))))

/-- TREE_CLEAR (R108): TREE_BUSY in RUN, else every V[i] <- 0. -/
def execTreeClear (s : State) : Host.Outcome State Fault Refusal :=
  if s.mode = .run then .next (s.raise Instr.treeClear.opcode .treeBusy 0#10 false)
  else .next (s.memClear.respond .ok)

end Sys2Proof.Machine
end

