-- ==== Sys2Proof/Machine/Dispatch.lean ====
section
/-! DEFINITION. One arm per command: its meaning. -/

namespace Sys2Proof.Machine

def exec (i : Instr) (s : State) : Host.Outcome State Fault Refusal :=
  match i with
  | .nop => Sys2Proof.Machine.execNop s
  | .nodeWrite idx data => Sys2Proof.Machine.execNodeWrite idx data s
  | .nodeRead idx => Sys2Proof.Machine.execNodeRead idx s
  | .treeClear => Sys2Proof.Machine.execTreeClear s
  | .regRead ra => Sys2Proof.Machine.execRegRead ra s
  | .regWrite ra data => Sys2Proof.Machine.execRegWrite ra data s
  | .start => Sys2Proof.Machine.execStart s
  | .abort => Sys2Proof.Machine.execAbort s
  | .bit b => Sys2Proof.Machine.execBit b s
  | .endInput => Sys2Proof.Machine.execEndInput s

end Sys2Proof.Machine
end

