-- ==== Sys2Proof/Machine/Ports.lean ====
section
/-! DEFINITION. The ports (30_encoding.md R86, 70_reset_and_hazards.md R231, R235) at the level of
transactions: which command is accepted, when a response crosses to the host, what `rst_n` does,
and what an illegal command word does (30_encoding.md R74). -/

namespace Sys2Proof.Machine

/-- The level of `rsp_ready` at this step (notes/assumptions/2.md). -/
def State.rspReadyNow (s : State) : Bool := s.rspReady.headD true

/-- `rsp_valid`: a response is offered, and `rst_n` is high (R86, R231). -/
def State.rspValid (s : State) (rstN : Bool) : Bool := rstN && s.rsp.isSome

/-- `cmd_ready`: no response is untaken, or the one there is transfers now, and `rst_n` is high
(R86, R231, R235, R238). -/
def State.cmdReady (s : State) (rstN : Bool) : Bool :=
  rstN && (s.rsp.isNone || s.rspReadyNow)

/-- The response side of one step: a response that is offered while `rsp_ready` is high crosses to
the host (R86). -/
def State.settle (s : State) : State :=
  match s.rsp with
  | none => { s with rspReady := s.rspReady.tail }
  | some r =>
    if s.rspReadyNow then
      { s with rsp := none, taken := s.taken ++ [r], rspReady := s.rspReady.tail }
    else { s with rspReady := s.rspReady.tail }

/-- `rst_n` low at a rising edge (70_reset_and_hazards.md R230, R231): every register takes its
reset value and an untransferred response is discarded; the host's side stays
(notes/assumptions/4.md). -/
def State.applyReset (s : State) : State :=
  { State.powerOn s.nodeCount with
    inputs := s.inputs, rspReady := s.rspReady.tail, taken := s.taken }

/-- What the ports do in one step: the state after them and the command accepted, if any. While a
response is untaken no command is accepted, and the one offered waits (R86, R235). At an `idle`
edge only the response side moves. A command that coincides with reset is discarded, and so is a
response that has not transferred: a reset listed right after a command falls on the edge at which
that command's response would first transfer, and one listed after an `idle` on a later edge (R231;
DESIGN CHOICE of the list, notes/assumptions/17.md). -/
def State.accept (s : State) : State × Option Command :=
  match s.inputs with
  | [] => (s.settle, none)
  | .idle :: rest => ({ s.settle with inputs := rest }, none)
  | .reset _ :: rest => ({ s with inputs := rest }.applyReset, none)
  | .command c :: rest =>
    if s.cmdReady true then ({ s.settle with inputs := rest }, some c) else (s.settle, none)

/-- An illegal command word raises ILLEGAL_CMD with FIDX = 0 and FBIT = 0, whatever the state, and
has no other effect (30_encoding.md R74, 60_exceptions.md R202). -/
def execIllegal (c : Command) (s : State) : Host.Outcome State Fault Refusal :=
  .next (s.raise (opField c.cmd) .illegalCmd 0#10 false)

/-- The bytes among some responses: the SYM of each with EMIT = 1 (00_scope.md R7). -/
def deliveredBytes (rs : List Response) : List Byte :=
  (rs.filter (·.emit)).map (·.sym)

/-- The host offers these commands next, one after the other with no `idle` edge between them
(notes/assumptions/17.md). -/
def State.offer (s : State) (is : List Instr) : State :=
  { s with inputs := is.map (fun i => .command (encode i)) }

end Sys2Proof.Machine
end

