-- ==== Sys2Proof/Machine/Issue.lean ====
section
/-! DEFINITION. What an accepted command does: the reserved-bit check of 40_tree_load.md R100
first, then the command's own rule. -/

namespace Sys2Proof.Machine

/-- An accepted command transaction runs to its end (00_scope.md R6): its instruction's meaning,
or ILLEGAL_CMD where its word is illegal (30_encoding.md R74, 40_tree_load.md R100). -/
def issue (c : Command) (s : State) : Host.Outcome State Fault Refusal :=
  match decode c with
  | .ok i => exec i s
  | .error _ => execIllegal c s

end Sys2Proof.Machine
end

