-- ==== Sys2Proof/Machine/Step.lean ====
section
/-! DEFINITION. One step: the ports move, and the command accepted, if there is one, runs to its
end (00_scope.md R6, 20_memory.md R57). -/

namespace Sys2Proof.Machine

/-- One step of the machine. -/
def step (s : State) : Host.Outcome State Fault Refusal :=
  match s.accept with
  | (t, none) => .next t
  | (t, some c) => issue c t

/-- The state in which the very next step accepts and runs the command whose bits are `w`: the
host offers it before anything else, and takes the response that is untaken, if there is one
(notes/assumptions/1.md). -/
def State.withFetchWord (s : State) (nbits w : Nat) : State :=
  { s with
    inputs := .command (tableCommand nbits w) :: s.inputs
    rspReady := if s.rsp.isSome then true :: s.rspReady.tail else s.rspReady }

end Sys2Proof.Machine
end

