-- ==== Sys2Proof/Machine/Reference.lean ====
section
/-! DEFINITION. The host-side reference codec (45_reference_codec.md): FrequencyCounter,
TreeBuilder, CodeTableBuilder, Encoder and the canonical layout, as pure functions. They are never
commands of HTD (R170); claims about HTD are stated through them. -/

namespace Sys2Proof.Codec

open Sys2Proof.Machine

/-- A symbol: a byte value or the end-of-stream symbol (00_scope.md R5, glossary). -/
inductive Sym where
  | byte (b : Byte)
  | eos
  deriving DecidableEq, Repr

/-- The symbol code: 0..255, and EOS = 256 (30_encoding.md R81). -/
def Sym.code : Sym → SymCode
  | .byte b => b.setWidth 9
  | .eos => Config.eos

/-- A FrequencyTable: a finite map in ascending order of symbol code (R171, R173). -/
abbrev FreqTable := List (Sym × Nat)

/-- `t[s] <- (t[s] if present else 0) + 1`, the ascending order of symbol codes kept (R172). -/
def bump (s : Sym) : FreqTable → FreqTable
  | [] => [(s, 1)]
  | e :: t =>
    if s.code.toNat < e.1.code.toNat then (s, 1) :: e :: t
    else if s = e.1 then (s, e.2 + 1) :: t
    else e :: bump s t

/-- `Count(S)` (R172): every byte counted from the empty map, then EOS with count 1 if absent. -/
def count (S : List Byte) : FreqTable :=
  let t := S.foldl (fun t b => bump (.byte b) t) []
  if t.any (fun e => e.1 == .eos) then t else bump .eos t

/-- A reference node (R175), with its creation number, which only the canonical layout uses
(R181). `wrap` is the internal node whose one-branch is absent (R177). -/
inductive RefNode where
  | leaf (sym : Sym) (count idx : Nat)
  | wrap (count idx : Nat) (zero : RefNode)
  | inner (count idx : Nat) (zero one : RefNode)
  deriving DecidableEq, Repr

/-- The count of a node (R175). -/
def RefNode.count : RefNode → Nat
  | .leaf _ n _ => n
  | .wrap n _ _ => n
  | .inner n _ _ _ => n

/-- The creation number of a node, its index in the canonical layout (R181). -/
def RefNode.idx : RefNode → Nat
  | .leaf _ _ i => i
  | .wrap _ i _ => i
  | .inner _ i _ _ => i

/-- The priority queue (R174): its items in the order `removeMin` returns them. -/
abbrev Queue := List RefNode

/-- `insert(item, priority)` with the item's count as its priority: after every item of less or
equal priority, so ties keep the insertion order (R174). -/
def Queue.insert (n : RefNode) : Queue → Queue
  | [] => [n]
  | m :: q => if n.count < m.count then n :: m :: q else m :: Queue.insert n q

/-- One leaf per table entry, numbered from `i` in table order (R173, R181). -/
def leaves : Nat → FreqTable → List RefNode
  | _, [] => []
  | i, e :: t => .leaf e.1 e.2 i :: leaves (i + 1) t

/-- The queue after every leaf is inserted, in table order (R173, R176). -/
def initialQueue (t : FreqTable) : Queue :=
  (leaves 0 t).foldl (fun q n => Queue.insert n q) []

/-- The merge loop (R176): the two least nodes become the zero-branch and the one-branch of a new
node numbered `k`, until one node remains. `fuel` bounds the merges. -/
def mergeLoop : Nat → Nat → Queue → Option RefNode
  | _, _, [] => none
  | _, _, [r] => some r
  | 0, _, _ :: _ :: _ => none
  | fuel + 1, k, z :: o :: q =>
    mergeLoop fuel (k + 1) (Queue.insert (.inner (z.count + o.count) k z o) q)

/-- `Build(t)` (R176, R177); none for an empty table, which has no tree. -/
def build (t : FreqTable) : Option RefNode :=
  match initialQueue t with
  | [] => none
  | [l] => some (.wrap l.count 1 l)
  | z :: o :: q => mergeLoop t.length t.length (z :: o :: q)

/-- A code table: the code word of each symbol that has one (R179). -/
abbrev CodeTable := List (Sym × List Bool)

/-- `visit(n)` (R179): the zero-branch before the one-branch, the first path of a symbol wins. -/
def visit : RefNode → List Bool → CodeTable → CodeTable
  | .leaf s _ _, path, tab => if (tab.lookup s).isSome then tab else tab ++ [(s, path)]
  | .wrap _ _ z, path, tab => visit z (path ++ [false]) tab
  | .inner _ _ z o, path, tab => visit o (path ++ [true]) (visit z (path ++ [false]) tab)

/-- `Codes(root)` (R179); a null tree yields the empty table (93_implementation_defined.md U11). -/
def codes : Option RefNode → CodeTable
  | none => []
  | some r => visit r [] []

/-- `Encode(S, tab)` (R182); none is LookupFailure (R183). -/
def encodeBytes : List Byte → CodeTable → Option (List Bool)
  | [], tab => tab.lookup .eos
  | b :: S, tab =>
    match tab.lookup (.byte b), encodeBytes S tab with
    | some w, some rest => some (w ++ rest)
    | _, _ => none

/-- `BitCount(S, tab)` (R182). -/
def bitCount (S : List Byte) (tab : CodeTable) : Option Nat := (encodeBytes S tab).map List.length

/-- A creation number as a tree-memory index. -/
def nodeIdx (i : Nat) : NodeIdx := BitVec.ofNat 10 i

/-- The node word of a reference node (R181). -/
def RefNode.word : RefNode → NodeWord
  | .leaf s _ _ => leafWord s.code
  | .wrap _ _ z => innerWord (some (nodeIdx z.idx)) none
  | .inner _ _ z o => innerWord (some (nodeIdx z.idx)) (some (nodeIdx o.idx))

/-- Every node of a tree with its index and word. -/
def RefNode.entries : RefNode → List (Nat × NodeWord)
  | .leaf s n i => [(i, (RefNode.leaf s n i).word)]
  | .wrap n i z => (i, (RefNode.wrap n i z).word) :: z.entries
  | .inner n i z o => (i, (RefNode.inner n i z o).word) :: (z.entries ++ o.entries)

/-- `Layout(T)`: the tree memory that holds the tree at its creation numbers (R181). -/
def layout (T : RefNode) : Memory :=
  T.entries.foldl (fun m e => m.write e.1 e.2) []

/-- The depth of a tree: the length of its longest path from the root (R178). -/
def RefNode.height : RefNode → Nat
  | .leaf _ _ _ => 0
  | .wrap _ _ z => z.height + 1
  | .inner _ _ z o => max z.height o.height + 1

/-- The leaves of a tree, the zero-branch first. -/
def RefNode.leafSyms : RefNode → List Sym
  | .leaf s _ _ => [s]
  | .wrap _ _ z => z.leafSyms
  | .inner _ _ z o => z.leafSyms ++ o.leafSyms

/-- Every internal node of the tree has two children (R189). -/
def RefNode.full : RefNode → Bool
  | .leaf _ _ _ => true
  | .wrap _ _ _ => false
  | .inner _ _ z o => z.full && o.full

/-- `PACK_ORDER`, the host parameter (92_eei_decisions.md D11, R184): how a bit list is stored as
bytes and read back. It is an argument of claims, never part of HTD (notes/assumptions/13.md). -/
structure PackOrder where
  pack : List Bool → List Byte
  unpack : List Byte → List Bool

/-- What R184 needs of the packing: reading back gives the bits in order, then padding. -/
def PackOrder.Keeps (p : PackOrder) : Prop := ∀ bits, ∃ pad, p.unpack (p.pack bits) = bits ++ pad

end Sys2Proof.Codec
end

