-- ==== Sys2Proof/Machine/Pseudo.lean ====
section
/-! DEFINITION. The pseudo-commands and their expansions (30_encoding.md R88) and the host's
decode sequence (70_reset_and_hazards.md R232). -/

namespace Sys2Proof.Pseudo

open Sys2Proof.Machine Sys2Proof.Codec

/-- `BIT0` -/
def bit0 : List Instr := [.bit false]

/-- `BIT1` -/
def bit1 : List Instr := [.bit true]

/-- `BITS "s"`: one BIT per character, leftmost first. -/
def bits (s : List Bool) : List Instr := s.map .bit

/-- `SET_ROOT n` -/
def setRoot (n : Word) : List Instr := [.regWrite .root n]

/-- `SET_IRQ m` -/
def setIrq (m : Word) : List Instr := [.regWrite .ctrl m]

/-- `LEAF i, s` -/
def leaf (i : NodeIdx) (s : Sym) : List Instr := [.nodeWrite i (0#1 ++ leafWord s.code)]

/-- `INNER i, z, o`, with `none` for `-` -/
def inner (i : NodeIdx) (z o : Option NodeIdx) : List Instr :=
  [.nodeWrite i (0#1 ++ innerWord z o)]

/-- `DECODE "s"` -/
def decode (s : List Bool) : List Instr := .start :: (bits s ++ [.endInput])

/-- The NODE_WRITEs that put a tree memory's entries in place, in increasing index order. -/
def writeNodes (m : Memory) : List Instr :=
  m.map (fun e => .nodeWrite (nodeIdx e.1) (0#1 ++ e.2))

/-- `LOADTREE T` at the canonical layout (45_reference_codec.md R181). -/
def loadTree (T : RefNode) : List Instr :=
  .treeClear :: (writeNodes (layout T) ++ setRoot (BitVec.ofNat 32 T.idx))

/-- The host's sequence of 70_reset_and_hazards.md R232, steps 1 to 9, with `pad` more bits after
the stream (45_reference_codec.md R184). -/
def decodeProgram (T : RefNode) (stream pad : List Bool) : List Instr :=
  loadTree T ++ decode (stream ++ pad)

end Sys2Proof.Pseudo
end

