-- ==== Sys2Proof/Machine/Walk.lean ====
section
/-! DEFINITION. The pure decode function of a run (42_bitstream.md R149). -/

namespace Sys2Proof.Machine

/-- How a bit list leaves a run (R149): still in RUN, DONE, MALFORMED, or a fault with the node
its FIDX names. -/
inductive RunEnd where
  | run
  | done
  | malformed
  | fault (cause : Cause) (node : NodeIdx)
  deriving DecidableEq, Repr

/-- The value of STATE at an end (R149). -/
def RunEnd.mode : RunEnd → Mode
  | .run => .run
  | .done => .done
  | .malformed => .malformed
  | .fault _ _ => .fault

/-- The result tuple of R149: the bytes delivered, the end, CUR, DEPTH and BITCNT. DEPTH and
BITCNT are exact numbers here; the registers hold them modulo their widths. -/
structure WalkResult where
  out : List Byte
  stop : RunEnd
  cur : NodeIdx
  depth : Nat
  bitcnt : Nat
  deriving DecidableEq, Repr

/-- `walk(c, d, bs, out, bc)` over the tree memory `tree` of `nodeCount` entries, from the root
`root`, END sent after the bits if `ended` (R149). -/
def walk (nodeCount : Nat) (tree : Memory) (root : NodeIdx) (ended : Bool) :
    NodeIdx → Nat → List Bool → List Byte → Nat → WalkResult
  | c, d, [], out, bc => ⟨out, if ended then .malformed else .run, c, d, bc⟩
  | c, d, b :: t, out, bc =>
    let child := NodeWord.branch (tree.read c).2 b
    let x := tree.read child.2
    if child.1 = false then ⟨out, .fault .absentChild c, c, d, bc⟩
    else if x.1 = false then ⟨out, .fault .unwrittenNode child.2, c, d, bc⟩
    else if nodeCount ≤ d + 1 then ⟨out, .fault .depthOverflow child.2, c, d, bc⟩
    else if NodeWord.sym x.2 = Config.eos then ⟨out, .done, child.2, d + 1, bc + 1⟩
    else if (NodeWord.sym x.2).toNat ≤ 255 then
      walk nodeCount tree root ended root 0 t (out ++ [(NodeWord.sym x.2).extractLsb' 0 8]) (bc + 1)
    else walk nodeCount tree root ended child.2 (d + 1) t out (bc + 1)

/-- `decode(bs, ended)` (R149). -/
def decodeRun (nodeCount : Nat) (tree : Memory) (root : NodeIdx) (ended : Bool) (bs : List Bool) :
    WalkResult :=
  walk nodeCount tree root ended root 0 bs [] 0

end Sys2Proof.Machine
end

