-- ==== Sys2Proof/Safety.lean ====
section
/-! DEFINITION. What counts as a good state and a safe run of HTD: the invariant every step keeps,
in the terms the statements use. -/

namespace Sys2Proof.Machine

/-- ROOT names an internal node that is written and inside the memory: what START checks
(41_control.md R126). -/
def State.RootOk (s : State) : Prop := s.rootValid = true

/-- Every listed entry is inside the memory and holds a legal node word (10_state.md R32,
30_encoding.md R82: "every stored word is legal"). -/
def State.EntriesOk (s : State) : Prop :=
  ∀ e ∈ s.tree, e.1 < s.nodeCount ∧ NodeWord.legal s.nodeCount e.2 = true

/-- The run invariant of 10_state.md R36: in RUN, CUR names a written internal node. -/
def State.WalkOk (s : State) : Prop :=
  (s.memRead s.cur).1 = true ∧ NodeWord.isLeaf (s.memRead s.cur).2 = false

/-- The fault record agrees with STATE (60_exceptions.md R201, R203, R205): a cause is recorded
exactly in FAULT, FINFO is 0 outside it, and STICKY is set in it. -/
def State.RecordOk (s : State) : Prop :=
  (s.mode = .fault ↔ s.cause ≠ .none) ∧ (s.mode ≠ .fault → s.finfo = ⟨0#10, false, 0#4⟩) ∧
    (s.mode = .fault → s.sticky = true)

/-- The invariant of every state a run reaches. -/
structure State.Inv (s : State) : Prop where
  /-- 00_scope.md R5: 513 ≤ NODE_COUNT ≤ 1024 -/
  params : Config.nodeCountMin ≤ s.nodeCount ∧ s.nodeCount ≤ Config.nodeCountMax
  /-- the tree memory keeps its canonical form -/
  treeWf : Memory.wf s.tree
  /-- 30_encoding.md R82: every stored word is legal and inside the memory -/
  entries : s.EntriesOk
  /-- 10_state.md R24: CUR is inside the memory -/
  curInside : s.cur.toNat < s.nodeCount
  /-- 10_state.md R29: DEPTH never exceeds NODE_COUNT - 1 -/
  depthBound : s.depth.toNat + 1 ≤ s.nodeCount
  /-- 41_control.md R126, R124: in RUN the root is the valid root START began at -/
  runRoot : s.mode = .run → s.RootOk
  /-- 10_state.md R36 -/
  runWalk : s.mode = .run → s.WalkOk
  /-- 60_exceptions.md R201, R205 -/
  record : s.RecordOk

/-- Two instances whose registers and tree memory agree but for STICKY (60_exceptions.md R208);
their ports may differ. -/
def State.AgreeButSticky (s t : State) : Prop :=
  t = { s with sticky := t.sticky, rsp := t.rsp, inputs := t.inputs, rspReady := t.rspReady,
               taken := t.taken }

/-- The host's ports are quiet: no response is untaken and `rsp_ready` stays high. -/
def State.PortsClear (s : State) : Prop := s.rsp = none ∧ s.rspReady = []

/-- A run of `n` steps ends in the state `t`; HTD stops for no command (60_exceptions.md R200). -/
def RunsTo (n : Nat) (s t : State) : Prop := Sys2Proof.core.run n s = .next t

end Sys2Proof.Machine
end

