-- ==== Sys2Proof/Certificates/Slice0/Obligations.lean ====
section
/-! DEFINITION. The statements of this model, each a Prop with no proof. Every register not named in
a next state is the same as before: a statement gives the whole next state, or says which fields
may differ and leaves every other field equal. -/

open Sys2Proof Sys2Proof.Machine Sys2Proof.Codec

/-! ### Encoding -/

/-- 30_encoding.md R71-R74: words written out from the formats decode to their commands, and
reserved words to none (95_test_vectors.md V-ENC). -/
def Obligations.WrittenWordsDecode : Prop :=
  decode ⟨0x00000000#32, 0#32⟩ = .ok .nop ∧
  decode ⟨0x10000006#32, 0x00A00701#32⟩ = .ok (.nodeWrite 6#10 0x00A00701#32) ∧
  decode ⟨0x200003FF#32, 0#32⟩ = .ok (.nodeRead 0x3FF#10) ∧
  decode ⟨0x30000000#32, 0#32⟩ = .ok .treeClear ∧
  decode ⟨0x40000003#32, 0#32⟩ = .ok (.regRead .status) ∧
  decode ⟨0x50000002#32, 6#32⟩ = .ok (.regWrite .root 6#32) ∧
  decode ⟨0x60000000#32, 0#32⟩ = .ok .start ∧
  decode ⟨0x70000000#32, 0#32⟩ = .ok .abort ∧
  decode ⟨0x80000001#32, 0#32⟩ = .ok (.bit true) ∧
  decode ⟨0x90000000#32, 0#32⟩ = .ok .endInput ∧
  decode ⟨0xA0000000#32, 0#32⟩ = .error (.reservedOpcode 0xA#4) ∧
  decode ⟨0x10000400#32, 0x61#32⟩ = .error (.reservedBits 0x1#4)

/-- 30_encoding.md R71-R73: no bit of an encoding is dropped. -/
def Obligations.DecodeEncodeAgree : Prop :=
  ∀ i : Instr, i.wellFormed = true → decode (encode i) = .ok i

/-- 30_encoding.md R71, R72: a command word has one instruction, which is well formed and encodes
back to it; WDATA is kept by NODE_WRITE and REG_WRITE and dropped by the other eight. -/
def Obligations.EncodeDecodeAgree : Prop :=
  ∀ (c : Command) (i : Instr), decode c = .ok i →
    i.wellFormed = true ∧ (encode i).cmd = c.cmd ∧
      ((∃ idx, i = .nodeWrite idx c.wdata ∧ (encode i).wdata = c.wdata) ∨
        (∃ ra, i = .regWrite ra c.wdata ∧ (encode i).wdata = c.wdata) ∨
        ((∀ idx data, i ≠ .nodeWrite idx data) ∧ (∀ ra data, i ≠ .regWrite ra data) ∧
          (encode i).wdata = 0#32))

/-- 30_encoding.md R73: the decoder and the opcode map agree, a word that matches no row is
illegal, and at most one row matches. -/
def Obligations.DecodeFollowsOpcodeMap : Prop :=
  (∀ (c : Command) (i : Instr), decode c = .ok i →
    ∃ r ∈ opcodeMap, r.fits c.cmd = true ∧ r.mnemonic = i.mnemonic) ∧
  (∀ (c : Command), ∀ r ∈ opcodeMap, r.fits c.cmd = true →
    ∃ i, decode c = .ok i ∧ i.mnemonic = r.mnemonic) ∧
  (∀ (c : Command), (∀ r ∈ opcodeMap, r.fits c.cmd = false) → ∃ e, decode c = .error e) ∧
  (∀ (w : Word), ∀ r ∈ opcodeMap, ∀ r' ∈ opcodeMap,
    r.fits w = true → r'.fits w = true → r = r')

/-- 30_encoding.md R74, 40_tree_load.md R100: a word with a reserved opcode, or one that fits no
row, raises ILLEGAL_CMD with FIDX = 0 and FBIT = 0 in every state and has no other effect. -/
def Obligations.IllegalWordsRaiseIllegalCmd : Prop :=
  ∀ (c : Command) (s : State),
    (0xA ≤ (c.cmd.extractLsb' 28 4).toNat ∨ ∀ r ∈ opcodeMap, r.fits c.cmd = false) →
    issue c s = .next (s.raise (c.cmd.extractLsb' 28 4) .illegalCmd 0#10 false)

/-- 30_encoding.md R82: `legal_node(w)` field by field; NODE_WRITE faults a word that is not legal
and stores nothing; and every stored word stays legal, whatever the command. -/
def Obligations.LegalNodeFieldByField : Prop :=
  (∀ (n : Nat) (w : Word), legalNode n w = true ↔
    w.extractLsb' 31 1 = 0#1 ∧
    (((w.extractLsb' 0 9).toNat ≤ 256 ∧ w.extractLsb' 9 1 = 0#1 ∧ w.extractLsb' 10 1 = 0#1 ∧
        w.extractLsb' 11 20 = 0#20) ∨
      ((w.extractLsb' 0 9).toNat = 257 ∧
        (w.extractLsb' 9 1 = 1#1 ∨ w.extractLsb' 10 1 = 1#1) ∧
        (w.extractLsb' 9 1 = 1#1 → (w.extractLsb' 11 10).toNat < n) ∧
        (w.extractLsb' 9 1 = 0#1 → (w.extractLsb' 11 10).toNat = 0) ∧
        (w.extractLsb' 10 1 = 1#1 → (w.extractLsb' 21 10).toNat < n) ∧
        (w.extractLsb' 10 1 = 0#1 → (w.extractLsb' 21 10).toNat = 0)))) ∧
  (∀ (idx : NodeIdx) (data : Word) (s t : State) (r : Response),
    legalNode s.nodeCount data = false → exec (.nodeWrite idx data) s = .next t →
    t.rsp = some r → r.err = true ∧ t.tree = s.tree) ∧
  (∀ (i : Instr) (s t : State), s.EntriesOk → exec i s = .next t → t.EntriesOk)

/-- 30_encoding.md R80: the internal word `OC<<21 | ZC<<11 | OV<<10 | ZV<<9 | 257`, an absent
child's index and presence bit 0, and what its fields read as; the leaf word `zext_31(SYM)`. -/
def Obligations.NodeWordLayout : Prop :=
  (∀ z o : Option NodeIdx,
    (innerWord z o).toNat = (o.getD 0#10).toNat * 2 ^ 21 + (z.getD 0#10).toNat * 2 ^ 11 +
      (if o.isSome then 1 else 0) * 2 ^ 10 + (if z.isSome then 1 else 0) * 2 ^ 9 + 257 ∧
    NodeWord.isLeaf (innerWord z o) = false ∧
    NodeWord.branch (innerWord z o) false = (z.isSome, z.getD 0#10) ∧
    NodeWord.branch (innerWord z o) true = (o.isSome, o.getD 0#10)) ∧
  (∀ sym : SymCode, (leafWord sym).toNat = sym.toNat ∧ NodeWord.sym (leafWord sym) = sym)

/-! ### The ports and the step -/

/-- 00_scope.md R6, 20_memory.md R57: a step runs the command that stands next at the command
port: the instruction its word decodes to, or ILLEGAL_CMD where the word is illegal. Around it the
step moves the ports: the command leaves `inputs`, and the response before it, if there is one and
`rsp_ready` is high, has crossed to the host (the model's convention, notes/assumptions/1.md,
2.md). -/
def Obligations.StepRunsDecodedCommand : Prop :=
  ∀ (s t : State) (c : Command) (rest : List HostInput),
    s.inputs = .command c :: rest → (s.rsp = none ∨ s.rspReady.headD true = true) →
    t = { s with
      inputs := rest, rsp := none, taken := s.taken ++ s.rsp.toList,
      rspReady := s.rspReady.tail } →
    step s = issue c t ∧
    (∀ i, decode c = .ok i → step s = exec i t) ∧
    (∀ e, decode c = .error e →
      step s = .next (t.raise (c.cmd.extractLsb' 28 4) .illegalCmd 0#10 false))

/-- The interface's `withFetchWord` (notes/assumptions/1.md, the model's own convention): the very
next step runs the command placed. -/
def Obligations.StepRunsPlacedWord : Prop :=
  ∀ (s : State) (nbits w : Nat) (i : Instr), decodeTableWord nbits w = some i →
    step (s.withFetchWord nbits w) = exec i { s with
      rsp := none, taken := s.taken ++ s.rsp.toList, rspReady := s.rspReady.tail }

/-- 60_exceptions.md R200: nothing stops the machine, no command and no word. -/
def Obligations.StepAlwaysAnswers : Prop :=
  ∀ s : State, ∃ t, step s = .next t

/-- 30_encoding.md R86, 70_reset_and_hazards.md R235: while a response is untaken and `rsp_ready`
is low, nothing happens: no command is accepted, the one offered waits and the response stays; an
edge at which the host offers nothing passes. The statement is about a step without reset. -/
def Obligations.UntakenResponseHoldsCommands : Prop :=
  ∀ (s : State) (r : Response), s.rsp = some r → s.rspReady.headD true = false →
    (s.inputs = [] ∨ (∃ c rest, s.inputs = .command c :: rest) →
      step s = .next { s with rspReady := s.rspReady.tail }) ∧
    (∀ rest, s.inputs = .idle :: rest →
      step s = .next { s with inputs := rest, rspReady := s.rspReady.tail })

/-- 30_encoding.md R86, 00_scope.md R12: no response is dropped, doubled or reordered. In a step
without reset the responses given so far (taken, then untaken) stay a prefix, and one is added
exactly when a command leaves the command port; and an untaken response crosses at the first such
step at which `rsp_ready` is high. -/
def Obligations.ResponsesKeptInOrder : Prop :=
  (∀ s t : State, step s = .next t → (∀ c rest, s.inputs ≠ .reset c :: rest) →
    ((t.inputs = s.inputs ∨ s.inputs = .idle :: t.inputs) ∧
      t.taken ++ t.rsp.toList = s.taken ++ s.rsp.toList) ∨
    (∃ c rest r, s.inputs = .command c :: rest ∧ t.inputs = rest ∧ t.rsp = some r ∧
      t.taken = s.taken ++ s.rsp.toList)) ∧
  (∀ (s : State) (r : Response), s.rsp = some r → s.rspReady.headD true = true →
    (∀ c rest, s.inputs ≠ .reset c :: rest) →
    ∃ t, step s = .next t ∧ t.taken = s.taken ++ [r])

/-- 70_reset_and_hazards.md R230, R231: `rst_n` low gives every register its reset value and
discards the untaken response and a coinciding command, which gets no response; `cmd_ready` and
`rsp_valid` are 0 while it is low. -/
def Obligations.ResetInputResetsEverything : Prop :=
  (∀ s : State, s.cmdReady false = false ∧ s.rspValid false = false) ∧
  ∀ (s : State) (c : Option Command) (rest : List HostInput), s.inputs = .reset c :: rest →
    ∃ t, step s = .next t ∧ t.mode = .idle ∧ t.sticky = false ∧ t.cause = .none ∧
      t.finfo = ⟨0#10, false, 0#4⟩ ∧ t.ctrl = 0#3 ∧ t.root = 0#10 ∧ t.cur = 0#10 ∧
      t.depth = 0#11 ∧ t.bitcnt = 0#32 ∧ t.outcnt = 0#32 ∧ (∀ i, (t.memRead i).1 = false) ∧
      t.irq = false ∧ t.regVal .param = s.regVal .param ∧ t.rsp = none ∧
      t.inputs = rest ∧ t.taken = s.taken ∧ t.nodeCount = s.nodeCount

/-- 70_reset_and_hazards.md R230: the values after reset, of an instance of every NODE_COUNT and of
the default one. That State.reset is the instance with NODE_COUNT = 1024 is the model's choice
(DESIGN CHOICE, notes/assumptions/6.md); ResetInputResetsEverything says that `rst_n` low gives
these values. -/
def Obligations.ResetStateValues : Prop :=
  (∀ n : Nat, 513 ≤ n → n ≤ 1024 →
    (State.powerOn n).mode = .idle ∧ (State.powerOn n).sticky = false ∧
    (State.powerOn n).cause = .none ∧ (State.powerOn n).finfo = ⟨0#10, false, 0#4⟩ ∧
    (State.powerOn n).ctrl = 0#3 ∧ (State.powerOn n).root = 0#10 ∧
    (State.powerOn n).cur = 0#10 ∧ (State.powerOn n).depth = 0#11 ∧
    (State.powerOn n).bitcnt = 0#32 ∧ (State.powerOn n).outcnt = 0#32 ∧
    (∀ i, ((State.powerOn n).memRead i).1 = false) ∧ (State.powerOn n).irq = false ∧
    (∃ v, (State.powerOn n).regVal .param = some v ∧ v.toNat = n + 2 ^ 16 * 256) ∧
    (∀ ra, ra ≠ .param → (∀ k, ra ≠ .reserved k) →
      (State.powerOn n).regVal ra = some 0#32) ∧
    (State.powerOn n).rsp = none) ∧
  State.reset = State.powerOn 1024 ∧ State.reset.regVal .param = some 0x01000400#32

/-- 00_scope.md R6, 60_exceptions.md R218: with no command and no response pending a step changes
nothing of the instance (the model's own `inputs` and `rspReady` move on, notes/assumptions/10.md,
17.md). -/
def Obligations.NoInputNoChange : Prop :=
  ∀ s : State, s.rsp = none →
    (s.inputs = [] → step s = .next { s with rspReady := s.rspReady.tail }) ∧
    (∀ rest, s.inputs = .idle :: rest →
      step s = .next { s with inputs := rest, rspReady := s.rspReady.tail })

/-! ### Faults -/

/-- 60_exceptions.md R203, R206: what raising a fault does, field by field. -/
def Obligations.FaultPrimitiveEffect : Prop :=
  ∀ (s : State) (op : BitVec 4) (cause : Cause) (idx : NodeIdx) (b : Bool),
    (s.mode ≠ .fault → s.raise op cause idx b =
      { s with mode := .fault, sticky := true, cause := cause, finfo := ⟨idx, b, op⟩,
               rsp := some ⟨0#32, false, 0#8, true⟩ }) ∧
    (s.mode = .fault → s.raise op cause idx b =
      { s with sticky := true, rsp := some ⟨0#32, false, 0#8, true⟩ })

/-- 60_exceptions.md R204: a command that answers ERR = 1 changes STATE, STICKY, CAUSE, FINFO and
its response, nothing else, and CAUSE and FINFO only on an episode's first fault. -/
def Obligations.FaultsArePrecise : Prop :=
  ∀ (i : Instr) (s t : State) (r : Response), exec i s = .next t → t.rsp = some r →
    r.err = true →
    t = { s with mode := .fault, sticky := true, cause := t.cause, finfo := t.finfo,
                 rsp := some ⟨0#32, false, 0#8, true⟩ } ∧
    (s.mode = .fault → t.cause = s.cause ∧ t.finfo = s.finfo)

/-- 60_exceptions.md R201: which causes each command records, with FOP its opcode, when it is the
first fault of an episode. -/
def Obligations.CausesByCommand : Prop :=
  ∀ (i : Instr) (s t : State) (r : Response), exec i s = .next t → t.rsp = some r →
    r.err = true → s.mode ≠ .fault →
    t.finfo.fop = i.opcode ∧
    (match i with
      | .nop | .abort => False
      | .nodeWrite idx _ => (t.cause = .treeBusy ∨ t.cause = .badIndex ∨ t.cause = .badNode) ∧
          t.finfo.fidx = idx ∧ t.finfo.fbit = false
      | .nodeRead idx => t.cause = .badIndex ∧ t.finfo.fidx = idx ∧ t.finfo.fbit = false
      | .treeClear => t.cause = .treeBusy ∧ t.finfo.fidx = 0#10 ∧ t.finfo.fbit = false
      | .regRead _ => t.cause = .illegalCmd ∧ t.finfo.fidx = 0#10 ∧ t.finfo.fbit = false
      | .regWrite _ _ => t.finfo.fbit = false ∧
          ((t.cause = .illegalCmd ∧ t.finfo.fidx = 0#10) ∨
            (t.cause = .treeBusy ∧ t.finfo.fidx = s.root))
      | .start => t.cause = .badRoot ∧ t.finfo.fidx = s.root ∧ t.finfo.fbit = false
      | .bit b => t.finfo.fbit = b ∧
          ((t.cause = .cmdState ∧ t.finfo.fidx = 0#10) ∨
            (t.cause = .absentChild ∧ t.finfo.fidx = s.cur) ∨
            ((t.cause = .unwrittenNode ∨ t.cause = .depthOverflow) ∧
              t.finfo.fidx = (NodeWord.branch (s.memRead s.cur).2 b).2))
      | .endInput => t.cause = .cmdState ∧ t.finfo.fidx = 0#10 ∧ t.finfo.fbit = false)

/-- 60_exceptions.md R205: START at a valid root and ABORT leave FAULT and clear the record; every
other command stays in FAULT with the record of the first fault; STICKY stays. -/
def Obligations.FaultLeftOnlyByStartOrAbort : Prop :=
  ∀ (i : Instr) (s t : State), exec i s = .next t → s.mode = .fault →
    (i = .abort → t.mode = .idle ∧ t.cause = .none ∧ t.finfo = ⟨0#10, false, 0#4⟩) ∧
    (i = .start → s.rootValid = true →
      t.mode = .run ∧ t.cur = s.root ∧ t.cause = .none ∧ t.finfo = ⟨0#10, false, 0#4⟩) ∧
    (i ≠ .abort → (i ≠ .start ∨ s.rootValid = false) →
      t.mode = .fault ∧ t.cause = s.cause ∧ t.finfo = s.finfo) ∧
    (s.sticky = true → t.sticky = true)

/-- 10_state.md R28: STICKY is set by every fault and by nothing else, and no command clears it. -/
def Obligations.StickySetByFaultsOnly : Prop :=
  ∀ (i : Instr) (s t : State) (r : Response), exec i s = .next t → t.rsp = some r →
    t.sticky = (s.sticky || r.err)

/-- 00_scope.md R12, 30_encoding.md R70: every command gives one response. RDATA is 0 but for
REG_READ and NODE_READ; only a BIT in RUN delivers a byte; SYM is 0 unless one is delivered;
ERR = 1 gives RDATA = 0 and EMIT = 0; and without ERR no fault is entered or recorded. -/
def Obligations.OneResponsePerCommand : Prop :=
  ∀ (i : Instr) (s t : State), exec i s = .next t →
    ∃ r, t.rsp = some r ∧
      (r.rdata ≠ 0#32 → (∃ ra, i = .regRead ra) ∨ (∃ idx, i = .nodeRead idx)) ∧
      (r.emit = true → (∃ b, i = .bit b) ∧ s.mode = .run ∧ t.mode = .run) ∧
      (r.emit = false → r.sym = 0#8) ∧
      (r.err = true → r.rdata = 0#32 ∧ r.emit = false ∧ t.mode = .fault) ∧
      (r.err = false → t.mode = .fault → s.mode = .fault ∧ t.cause = s.cause)

/-- 60_exceptions.md R210, R211: `irq` is STATUS[8], high exactly when the source of the present
STATE is enabled; in IDLE and RUN no source is pending. -/
def Obligations.IrqIsALevelOfState : Prop :=
  ∀ s : State,
    (s.irq = true ↔ (s.ctrl.getLsbD 0 = true ∧ s.mode = .done) ∨
      (s.ctrl.getLsbD 1 = true ∧ s.mode = .malformed) ∨
      (s.ctrl.getLsbD 2 = true ∧ s.mode = .fault)) ∧
    (∃ v, s.regVal .status = some v ∧ v.getLsbD 8 = s.irq) ∧
    (s.mode = .idle ∨ s.mode = .run → s.irq = false)

/-! ### Tree-load commands -/

/-- 40_tree_load.md R101: NODE_WRITE: its encoding; outside RUN, with an index inside the memory
and a legal word, it writes that one entry and nothing else; its faults in their order, which
write nothing; a reserved bit. -/
def Obligations.NodeWriteWritesOneEntry : Prop :=
  (∀ (idx : NodeIdx) (data : Word) (s : State),
    issue ⟨0x1#4 ++ 0#18 ++ idx, data⟩ s = exec (.nodeWrite idx data) s) ∧
  (∀ (idx : NodeIdx) (data : Word) (s : State), s.mode ≠ .run → idx.toNat < s.nodeCount →
    legalNode s.nodeCount data = true →
    ∃ t, exec (.nodeWrite idx data) s = .next t ∧
      t = { s with tree := t.tree, rsp := some ⟨0#32, false, 0#8, false⟩ } ∧
      t.memRead idx = (true, data.extractLsb' 0 31) ∧
      ∀ j, j ≠ idx → t.memRead j = s.memRead j) ∧
  (∀ (idx : NodeIdx) (data : Word) (s : State), s.mode = .run →
    exec (.nodeWrite idx data) s = .next (s.raise 1#4 .treeBusy idx false)) ∧
  (∀ (idx : NodeIdx) (data : Word) (s : State), s.mode ≠ .run → s.nodeCount ≤ idx.toNat →
    exec (.nodeWrite idx data) s = .next (s.raise 1#4 .badIndex idx false)) ∧
  (∀ (idx : NodeIdx) (data : Word) (s : State), s.mode ≠ .run → idx.toNat < s.nodeCount →
    legalNode s.nodeCount data = false →
    exec (.nodeWrite idx data) s = .next (s.raise 1#4 .badNode idx false)) ∧
  (∀ (c : Command) (s : State), c.cmd.extractLsb' 28 4 = 1#4 → c.cmd.extractLsb' 10 18 ≠ 0#18 →
    issue c s = .next (s.raise 1#4 .illegalCmd 0#10 false))

/-- 20_memory.md R57, 40_tree_load.md R106: NODE_READ returns what the latest successful NODE_WRITE
of its entry wrote, whatever commands stand between but a NODE_WRITE of that entry and a
TREE_CLEAR. The commands run through the model's ports (notes/assumptions/1.md, 2.md). -/
def Obligations.LatestWriteIsReadBack : Prop :=
  ∀ (idx : NodeIdx) (data : Word) (is : List Instr) (s : State), s.PortsClear → s.mode ≠ .run →
    idx.toNat < s.nodeCount → legalNode s.nodeCount data = true →
    (∀ i ∈ is, i.wellFormed = true ∧ i ≠ .treeClear ∧ ∀ d, i ≠ .nodeWrite idx d) →
    ∃ t rs, RunsTo (is.length + 3)
        (s.offer (.nodeWrite idx data :: (is ++ [.nodeRead idx]))) t ∧
      rs.length = is.length ∧
      t.taken = s.taken ++ (⟨0#32, false, 0#8, false⟩ ::
        (rs ++ [⟨1#1 ++ data.extractLsb' 0 31, false, 0#8, false⟩]))

/-- 40_tree_load.md R105: NODE_READ in every state: its encoding, the entry inside the memory,
BAD_INDEX outside it, a reserved bit. -/
def Obligations.NodeReadReturnsEntry : Prop :=
  (∀ (idx : NodeIdx) (w : Word) (s : State),
    issue ⟨0x2#4 ++ 0#18 ++ idx, w⟩ s = exec (.nodeRead idx) s) ∧
  (∀ (idx : NodeIdx) (s : State), idx.toNat < s.nodeCount →
    exec (.nodeRead idx) s = .next { s with
      rsp := some ⟨if (s.memRead idx).1 then 1#1 ++ (s.memRead idx).2 else 0#32,
        false, 0#8, false⟩ }) ∧
  (∀ (idx : NodeIdx) (s : State), s.nodeCount ≤ idx.toNat →
    exec (.nodeRead idx) s = .next (s.raise 2#4 .badIndex idx false)) ∧
  (∀ (c : Command) (s : State), c.cmd.extractLsb' 28 4 = 2#4 → c.cmd.extractLsb' 10 18 ≠ 0#18 →
    issue c s = .next (s.raise 2#4 .illegalCmd 0#10 false))

/-- 40_tree_load.md R102: an index outside the memory raises BAD_INDEX, in NODE_READ in every state
and in NODE_WRITE outside RUN; with NODE_COUNT = 1024 no index is outside. -/
def Obligations.BadIndexOutsideMemory : Prop :=
  ∀ (idx : NodeIdx) (data : Word) (s : State),
    (s.nodeCount ≤ idx.toNat →
      exec (.nodeRead idx) s = .next (s.raise 2#4 .badIndex idx false) ∧
      (s.mode ≠ .run →
        exec (.nodeWrite idx data) s = .next (s.raise 1#4 .badIndex idx false))) ∧
    (s.nodeCount = 1024 → idx.toNat < s.nodeCount)

/-- 40_tree_load.md R108: TREE_CLEAR: its encoding; outside RUN it clears every written bit and
nothing else, so that START then raises BAD_ROOT; TREE_BUSY in RUN; a reserved bit. -/
def Obligations.TreeClearEmptiesMemory : Prop :=
  (∀ (w : Word) (s : State), issue ⟨0x30000000#32, w⟩ s = exec .treeClear s) ∧
  (∀ s : State, s.mode ≠ .run →
    ∃ t, exec .treeClear s = .next t ∧
      t = { s with tree := t.tree, rsp := some ⟨0#32, false, 0#8, false⟩ } ∧
      (∀ j, (t.memRead j).1 = false) ∧
      exec .start t = .next (t.raise 6#4 .badRoot s.root false)) ∧
  (∀ s : State, s.mode = .run →
    exec .treeClear s = .next (s.raise 3#4 .treeBusy 0#10 false)) ∧
  (∀ (c : Command) (s : State), c.cmd.extractLsb' 28 4 = 3#4 → c.cmd.extractLsb' 0 28 ≠ 0#28 →
    issue c s = .next (s.raise 3#4 .illegalCmd 0#10 false))

/-- 40_tree_load.md R110, 41_control.md R124: the three tree-busy refusals of RUN, which change
neither the tree memory nor ROOT and end the run; outside RUN no command raises TREE_BUSY. -/
def Obligations.TreeBusyInRun : Prop :=
  (∀ (idx : NodeIdx) (data : Word) (s : State), s.mode = .run →
    exec (.nodeWrite idx data) s = .next (s.raise 1#4 .treeBusy idx false) ∧
    exec .treeClear s = .next (s.raise 3#4 .treeBusy 0#10 false) ∧
    exec (.regWrite .root data) s = .next (s.raise 5#4 .treeBusy s.root false)) ∧
  (∀ (s : State) (op : BitVec 4) (idx : NodeIdx),
    (s.raise op .treeBusy idx false).tree = s.tree ∧
    (s.raise op .treeBusy idx false).root = s.root ∧
    (s.raise op .treeBusy idx false).mode = .fault) ∧
  (∀ (i : Instr) (s t : State), s.mode ≠ .run → exec i s = .next t → t.cause = .treeBusy →
    s.cause = .treeBusy)

/-- 20_memory.md R57, 10_state.md R32: an entry reads as the latest successful NODE_WRITE left it;
TREE_CLEAR empties it; no other command changes it. -/
def Obligations.TreeChangesOnlyByWriteAndClear : Prop :=
  ∀ (i : Instr) (s t : State) (j : NodeIdx), exec i s = .next t →
    t.memRead j = s.memRead j ∨
    (∃ data, i = .nodeWrite j data ∧ s.mode ≠ .run ∧
      t.memRead j = (true, data.extractLsb' 0 31)) ∨
    (i = .treeClear ∧ s.mode ≠ .run ∧ (t.memRead j).1 = false)

/-- 20_memory.md R59: no command changes the tree memory or ROOT of a run. -/
def Obligations.TreeAndRootFrozenInRun : Prop :=
  ∀ (i : Instr) (s t : State), exec i s = .next t → s.mode = .run →
    t.tree = s.tree ∧ t.root = s.root

/-- 20_memory.md R54: the reads change nothing but the response (or raise a fault), and NODE_WRITE,
TREE_CLEAR, REG_WRITE, START and ABORT are idempotent when the first did not fault. -/
def Obligations.ReadsPureWritesIdempotent : Prop :=
  (∀ (i : Instr) (s t : State) (r : Response),
    (∃ ra, i = .regRead ra) ∨ (∃ idx, i = .nodeRead idx) → exec i s = .next t →
    t.rsp = some r → r.err = false → t = { s with rsp := some r } ∧ exec i t = .next t) ∧
  (∀ (i : Instr) (s t : State) (r : Response),
    (∃ idx data, i = .nodeWrite idx data) ∨ i = .treeClear ∨
      (∃ ra data, i = .regWrite ra data) ∨ i = .start ∨ i = .abort → exec i s = .next t →
    t.rsp = some r → r.err = false → exec i t = .next t)

/-! ### Control commands -/

/-- 41_control.md R120: NOP, its encoding, and a NOP word with a nonzero reserved bit. -/
def Obligations.NopDoesNothing : Prop :=
  (∀ (w : Word) (s : State), issue ⟨0x00000000#32, w⟩ s = exec .nop s) ∧
  (∀ s : State, exec .nop s = .next { s with rsp := some ⟨0#32, false, 0#8, false⟩ }) ∧
  (∀ (c : Command) (s : State), c.cmd.extractLsb' 28 4 = 0#4 → c.cmd.extractLsb' 0 28 ≠ 0#28 →
    issue c s = .next (s.raise 0#4 .illegalCmd 0#10 false))

/-- 41_control.md R121: `regval` address by address, as sums of the fields at their places, and
that it is what the REG_READ word of that address returns. STATUS has STATE and CAUSE by their
values (10_state.md R22, 60_exceptions.md R201). NODE_COUNT is taken below 2^11, the width of its
field (00_scope.md R5 bounds it by 1024). -/
def Obligations.RegisterValues : Prop :=
  ∀ s : State, s.nodeCount < 2048 →
    (∃ v, s.regVal (RegName.ofCode 0x0#4) = some v ∧ v.toNat = s.nodeCount + 2 ^ 16 * 256) ∧
    (∃ v, s.regVal (RegName.ofCode 0x1#4) = some v ∧ v.toNat = s.ctrl.toNat) ∧
    (∃ v, s.regVal (RegName.ofCode 0x2#4) = some v ∧ v.toNat = s.root.toNat) ∧
    (∃ v, s.regVal (RegName.ofCode 0x3#4) = some v ∧ v.toNat =
      (match s.mode with
        | .idle => 0 | .run => 1 | .done => 2 | .malformed => 3 | .fault => 4) +
      2 ^ 3 * s.sticky.toNat +
      2 ^ 4 * (match s.cause with
        | .none => 0 | .illegalCmd => 1 | .treeBusy => 2 | .cmdState => 3 | .badIndex => 4
        | .badNode => 5 | .badRoot => 6 | .absentChild => 7 | .unwrittenNode => 8
        | .depthOverflow => 9) +
      2 ^ 8 * s.irq.toNat) ∧
    (∃ v, s.regVal (RegName.ofCode 0x4#4) = some v ∧ v.toNat = s.cur.toNat) ∧
    (∃ v, s.regVal (RegName.ofCode 0x5#4) = some v ∧ v.toNat = s.depth.toNat) ∧
    s.regVal (RegName.ofCode 0x6#4) = some s.bitcnt ∧
    s.regVal (RegName.ofCode 0x7#4) = some s.outcnt ∧
    (∃ v, s.regVal (RegName.ofCode 0x8#4) = some v ∧ v.toNat = s.finfo.fidx.toNat +
      2 ^ 10 * s.finfo.fbit.toNat + 2 ^ 12 * s.finfo.fop.toNat) ∧
    (∀ ra : BitVec 4, 9 ≤ ra.toNat → s.regVal (RegName.ofCode ra) = none) ∧
    (∀ (ra : BitVec 4) (w v : Word), s.regVal (RegName.ofCode ra) = some v →
      issue ⟨0x4#4 ++ 0#24 ++ ra, w⟩ s = .next { s with rsp := some ⟨v, false, 0#8, false⟩ })

/-- 41_control.md R122: REG_READ, its encoding, its ILLEGAL_CMD for a reserved address and for a reserved bit. -/
def Obligations.RegReadReturnsValue : Prop :=
  (∀ (ra : BitVec 4) (w : Word) (s : State),
    issue ⟨0x4#4 ++ 0#24 ++ ra, w⟩ s = exec (.regRead (RegName.ofCode ra)) s) ∧
  (∀ (ra : RegName) (s : State) (v : Word), s.regVal ra = some v →
    exec (.regRead ra) s = .next { s with rsp := some ⟨v, false, 0#8, false⟩ }) ∧
  (∀ (ra : RegName) (s : State), 9 ≤ ra.code.toNat → ra.wellFormed = true →
    exec (.regRead ra) s = .next (s.raise 4#4 .illegalCmd 0#10 false)) ∧
  (∀ (c : Command) (s : State), c.cmd.extractLsb' 28 4 = 4#4 → c.cmd.extractLsb' 4 24 ≠ 0#24 →
    issue c s = .next (s.raise 4#4 .illegalCmd 0#10 false))

/-- 41_control.md R123: REG_WRITE, its encoding; of CTRL in every state and of ROOT outside RUN keeps the defined
fields; TREE_BUSY for ROOT in RUN; ILLEGAL_CMD for every other address and for a reserved bit. -/
def Obligations.RegWriteKeepsDefinedFields : Prop :=
  (∀ (ra : BitVec 4) (data : Word) (s : State),
    issue ⟨0x5#4 ++ 0#24 ++ ra, data⟩ s = exec (.regWrite (RegName.ofCode ra) data) s) ∧
  (∀ (data : Word) (s : State), exec (.regWrite .ctrl data) s =
    .next { s with ctrl := data.extractLsb' 0 3, rsp := some ⟨0#32, false, 0#8, false⟩ }) ∧
  (∀ (data : Word) (s : State), s.mode ≠ .run → exec (.regWrite .root data) s =
    .next { s with root := data.extractLsb' 0 10, rsp := some ⟨0#32, false, 0#8, false⟩ }) ∧
  (∀ (data : Word) (s : State), s.mode = .run → exec (.regWrite .root data) s =
    .next (s.raise 5#4 .treeBusy s.root false)) ∧
  (∀ (ra : RegName) (data : Word) (s : State), ra ≠ .ctrl → ra ≠ .root →
    exec (.regWrite ra data) s = .next (s.raise 5#4 .illegalCmd 0#10 false)) ∧
  (∀ (c : Command) (s : State), c.cmd.extractLsb' 28 4 = 5#4 → c.cmd.extractLsb' 4 24 ≠ 0#24 →
    issue c s = .next (s.raise 5#4 .illegalCmd 0#10 false))

/-- 41_control.md R126: START, its encoding, from every state; its BAD_ROOT; a reserved bit. -/
def Obligations.StartBeginsRunAtRoot : Prop :=
  (∀ (w : Word) (s : State), issue ⟨0x60000000#32, w⟩ s = exec .start s) ∧
  (∀ s : State, s.root.toNat < s.nodeCount → (s.memRead s.root).1 = true →
    NodeWord.sym (s.memRead s.root).2 = 257#9 →
    exec .start s = .next { s with
      mode := .run, cause := .none, finfo := ⟨0#10, false, 0#4⟩, cur := s.root, depth := 0#11,
      bitcnt := 0#32, outcnt := 0#32, rsp := some ⟨0#32, false, 0#8, false⟩ }) ∧
  (∀ s : State, (s.nodeCount ≤ s.root.toNat ∨ (s.memRead s.root).1 = false ∨
      NodeWord.sym (s.memRead s.root).2 ≠ 257#9) →
    exec .start s = .next (s.raise 6#4 .badRoot s.root false)) ∧
  (∀ (c : Command) (s : State), c.cmd.extractLsb' 28 4 = 6#4 → c.cmd.extractLsb' 0 28 ≠ 0#28 →
    issue c s = .next (s.raise 6#4 .illegalCmd 0#10 false))

/-- 41_control.md R128: ABORT, its encoding, from every state; a reserved bit. -/
def Obligations.AbortReturnsToIdle : Prop :=
  (∀ (w : Word) (s : State), issue ⟨0x70000000#32, w⟩ s = exec .abort s) ∧
  (∀ s : State, exec .abort s = .next { s with
    mode := .idle, cause := .none, finfo := ⟨0#10, false, 0#4⟩,
    rsp := some ⟨0#32, false, 0#8, false⟩ }) ∧
  (∀ (c : Command) (s : State), c.cmd.extractLsb' 28 4 = 7#4 → c.cmd.extractLsb' 0 28 ≠ 0#28 →
    issue c s = .next (s.raise 7#4 .illegalCmd 0#10 false))

/-- 70_reset_and_hazards.md R231: ABORT then TREE_CLEAR reaches the reset state except for STICKY,
CUR, DEPTH, BITCNT, OUTCNT, ROOT and CTRL (the ports aside). -/
def Obligations.AbortThenClearReachesReset : Prop :=
  ∀ s : State, ∃ t u, exec .abort s = .next t ∧ exec .treeClear t = .next u ∧
    u = { State.powerOn s.nodeCount with
      sticky := s.sticky, cur := s.cur, depth := s.depth, bitcnt := s.bitcnt,
      outcnt := s.outcnt, root := s.root, ctrl := s.ctrl,
      rsp := u.rsp, inputs := s.inputs, rspReady := s.rspReady, taken := s.taken }

/-! ### The walk -/

/-- 42_bitstream.md R141, R144: a bit that reaches an internal node moves the walk to it. The child
is selected by the bit: (ZV, ZC) for 0 and (OV, OC) for 1. -/
def Obligations.BitMovesToInternalNode : Prop :=
  ∀ (b : Bool) (s : State) (w cw : NodeWord) (c : NodeIdx), s.mode = .run →
    s.memRead s.cur = (true, w) →
    w.getLsbD (if b then 10 else 9) = true →
    c = w.extractLsb' (if b then 21 else 11) 10 →
    s.memRead c = (true, cw) → s.depth.toNat + 1 < s.nodeCount →
    NodeWord.sym cw = 257#9 →
    exec (.bit b) s = .next { s with
      cur := c, depth := s.depth + 1#11, bitcnt := s.bitcnt + 1#32,
      rsp := some ⟨0#32, false, 0#8, false⟩ }

/-- 42_bitstream.md R143: a bit that reaches a leaf: a byte leaf is delivered and the walk returns
to the root; the EOS leaf ends the run and is not delivered. -/
def Obligations.BitReachesLeaf : Prop :=
  ∀ (b : Bool) (s : State) (w cw : NodeWord) (c : NodeIdx), s.mode = .run →
    s.memRead s.cur = (true, w) →
    w.getLsbD (if b then 10 else 9) = true →
    c = w.extractLsb' (if b then 21 else 11) 10 →
    s.memRead c = (true, cw) → s.depth.toNat + 1 < s.nodeCount →
    ((cw.extractLsb' 0 9).toNat ≤ 255 →
      exec (.bit b) s = .next { s with
        cur := s.root, depth := 0#11, bitcnt := s.bitcnt + 1#32, outcnt := s.outcnt + 1#32,
        rsp := some ⟨0#32, true, cw.extractLsb' 0 8, false⟩ }) ∧
    ((cw.extractLsb' 0 9).toNat = 256 →
      exec (.bit b) s = .next { s with
        mode := .done, cur := c, depth := s.depth + 1#11, bitcnt := s.bitcnt + 1#32,
        rsp := some ⟨0#32, false, 0#8, false⟩ })

/-- 42_bitstream.md R142, R145, 60_exceptions.md R202: the faults of the walk in their order.
`DEPTH + 1` is compared on exact numbers, which differs from a sum modulo 2^11 only at DEPTH = 2047,
a value no run reaches (the model's reading, DEDUCED, notes/assumptions/7.md). -/
def Obligations.WalkFaultsInOrder : Prop :=
  ∀ (b : Bool) (s : State) (w : NodeWord), s.mode = .run → s.memRead s.cur = (true, w) →
    ((NodeWord.branch w b).1 = false →
      exec (.bit b) s = .next (s.raise 8#4 .absentChild s.cur b)) ∧
    ((NodeWord.branch w b).1 = true → (s.memRead (NodeWord.branch w b).2).1 = false →
      exec (.bit b) s = .next (s.raise 8#4 .unwrittenNode (NodeWord.branch w b).2 b)) ∧
    ((NodeWord.branch w b).1 = true → (s.memRead (NodeWord.branch w b).2).1 = true →
      s.nodeCount ≤ s.depth.toNat + 1 →
      exec (.bit b) s = .next (s.raise 8#4 .depthOverflow (NodeWord.branch w b).2 b))

/-- 42_bitstream.md R146: BIT outside RUN. -/
def Obligations.BitOutsideRun : Prop :=
  ∀ (b : Bool) (s : State),
    (s.mode = .idle → exec (.bit b) s = .next (s.raise 8#4 .cmdState 0#10 b)) ∧
    (s.mode = .done ∨ s.mode = .malformed ∨ s.mode = .fault →
      exec (.bit b) s = .next { s with rsp := some ⟨0#32, false, 0#8, false⟩ })

/-- 42_bitstream.md R147: END, its encoding, in every state; a reserved bit. -/
def Obligations.EndMarksMalformed : Prop :=
  (∀ (w : Word) (s : State), issue ⟨0x90000000#32, w⟩ s = exec .endInput s) ∧
  (∀ s : State, s.mode = .run → exec .endInput s = .next { s with
    mode := .malformed, rsp := some ⟨0#32, false, 0#8, false⟩ }) ∧
  (∀ s : State, s.mode = .done ∨ s.mode = .malformed ∨ s.mode = .fault →
    exec .endInput s = .next { s with rsp := some ⟨0#32, false, 0#8, false⟩ }) ∧
  (∀ s : State, s.mode = .idle →
    exec .endInput s = .next (s.raise 9#4 .cmdState 0#10 false)) ∧
  (∀ (c : Command) (s : State), c.cmd.extractLsb' 28 4 = 9#4 → c.cmd.extractLsb' 0 28 ≠ 0#28 →
    issue c s = .next (s.raise 9#4 .illegalCmd 0#10 false))

/-- 10_state.md R24: CUR is written by START and BIT only, with ROOT or a child field. -/
def Obligations.CurComesFromRootOrChild : Prop :=
  ∀ (i : Instr) (s t : State), exec i s = .next t → t.cur ≠ s.cur →
    (i = .start ∧ t.cur = s.root) ∨
    (∃ b, i = .bit b ∧ s.mode = .run ∧
      (t.cur = s.root ∨ t.cur = (NodeWord.branch (s.memRead s.cur).2 b).2))

/-- 10_state.md R30: BITCNT counts the BITs of RUN that did not fault and OUTCNT the bytes
delivered, both modulo 2^32; START that is accepted clears both. -/
def Obligations.CountersCountBitsAndBytes : Prop :=
  ∀ (i : Instr) (s t : State) (r : Response), exec i s = .next t → t.rsp = some r →
    (i = .start → r.err = false → t.bitcnt = 0#32 ∧ t.outcnt = 0#32) ∧
    (i ≠ .start ∨ r.err = true →
      t.bitcnt = s.bitcnt +
        (if (i = .bit false ∨ i = .bit true) ∧ s.mode = .run ∧ r.err = false then 1#32
         else 0#32) ∧
      t.outcnt = s.outcnt + (if r.emit = true then 1#32 else 0#32))

/-- 10_state.md section 2, the state transition table, cell by cell: for every command exactly when
it faults, which makes STATE = FAULT, and otherwise the next STATE; an illegal word faults in every
STATE. `DEPTH + 1` is an exact number (DEDUCED, notes/assumptions/7.md). -/
def Obligations.StateTransitions : Prop :=
  (∀ (i : Instr) (s : State), ∃ t r, exec i s = .next t ∧ t.rsp = some r ∧
    (r.err = true ↔ match i with
      | .nop | .abort => False
      | .nodeWrite idx data =>
          s.mode = .run ∨ s.nodeCount ≤ idx.toNat ∨ legalNode s.nodeCount data = false
      | .nodeRead idx => s.nodeCount ≤ idx.toNat
      | .treeClear => s.mode = .run
      | .regRead ra => ∃ k, ra = .reserved k
      | .regWrite ra _ => ra ≠ .ctrl ∧ (ra = .root → s.mode = .run)
      | .start => s.rootValid = false
      | .bit b => s.mode = .idle ∨ (s.mode = .run ∧
          ((NodeWord.branch (s.memRead s.cur).2 b).1 = false ∨
            (s.memRead (NodeWord.branch (s.memRead s.cur).2 b).2).1 = false ∨
            s.nodeCount ≤ s.depth.toNat + 1))
      | .endInput => s.mode = .idle) ∧
    (r.err = true → t.mode = .fault) ∧
    (r.err = false → t.mode = match i with
      | .start => .run
      | .abort => .idle
      | .endInput => if s.mode = .run then .malformed else s.mode
      | .bit b =>
          if s.mode = .run ∧
            NodeWord.sym (s.memRead (NodeWord.branch (s.memRead s.cur).2 b).2).2 = 256#9
          then .done else s.mode
      | .nop | .nodeWrite _ _ | .nodeRead _ | .treeClear | .regRead _ | .regWrite _ _ =>
          s.mode)) ∧
  (∀ (c : Command) (e : DecodeError) (s : State), decode c = .error e →
    ∃ t, issue c s = .next t ∧ t.mode = .fault)

/-! ### Invariants and runs -/

/-- The invariant holds after reset, for every NODE_COUNT of 00_scope.md R5. -/
def Obligations.InvariantHoldsAtReset : Prop :=
  State.reset.Inv ∧ ∀ n, 513 ≤ n → n ≤ 1024 → (State.powerOn n).Inv

/-- 10_state.md R36 and what it rests on: every step keeps the invariant: the canonical form of the
tree memory, the legality of every stored word, CUR inside the memory, the bound of DEPTH, the run
invariant and the agreement of STATE with the fault record. -/
def Obligations.StepKeepsInvariant : Prop :=
  ∀ s t : State, s.Inv → step s = .next t → t.Inv

/-- 60_exceptions.md R208: nothing of an earlier run affects a new one except STICKY. Two instances
with the same tree memory, ROOT, CTRL and size agree, but for STICKY, after START; and every
command keeps that agreement and gives the same response, REG_READ STATUS aside. -/
def Obligations.EarlierRunsDoNotMatter : Prop :=
  (∀ s s' : State, s'.nodeCount = s.nodeCount → s'.tree = s.tree → s'.root = s.root →
    s'.ctrl = s.ctrl → s.rootValid = true →
    ∃ t t', exec .start s = .next t ∧ exec .start s' = .next t' ∧ t.AgreeButSticky t') ∧
  (∀ (i : Instr) (s s' t t' : State), s.AgreeButSticky s' → exec i s = .next t →
    exec i s' = .next t' → t.AgreeButSticky t' ∧ (i ≠ .regRead .status → t'.rsp = t.rsp))

/-- 42_bitstream.md R149: START, one BIT per bit and, if `ended`, END behave as the pure decode
function says, from every good state with a valid root, however STATE stood before, and every
command's response has crossed to the host. -/
def Obligations.RunIsTheDecodeFunction : Prop :=
  ∀ (s : State) (bs : List Bool) (ended : Bool), s.Inv → s.rootValid = true → s.PortsClear →
    ∃ t rs, RunsTo (1 + bs.length + (if ended then 1 else 0) + 1)
        (s.offer (.start :: (Pseudo.bits bs ++ if ended then [.endInput] else []))) t ∧
      t.inputs = [] ∧ t.rsp = none ∧ t.taken = s.taken ++ rs ∧
      rs.length = 1 + bs.length + (if ended then 1 else 0) ∧
      t.tree = s.tree ∧ t.root = s.root ∧
      deliveredBytes rs = (decodeRun s.nodeCount s.tree s.root ended bs).out ∧
      t.outcnt = BitVec.ofNat 32 (decodeRun s.nodeCount s.tree s.root ended bs).out.length ∧
      t.mode = (decodeRun s.nodeCount s.tree s.root ended bs).stop.mode ∧
      t.cur = (decodeRun s.nodeCount s.tree s.root ended bs).cur ∧
      t.depth = BitVec.ofNat 11 (decodeRun s.nodeCount s.tree s.root ended bs).depth ∧
      t.bitcnt = BitVec.ofNat 32 (decodeRun s.nodeCount s.tree s.root ended bs).bitcnt ∧
      (∀ c k, (decodeRun s.nodeCount s.tree s.root ended bs).stop = .fault c k →
        t.cause = c ∧ t.finfo.fidx = k ∧ t.finfo.fop = 8#4)

/-- 42_bitstream.md R150: a run fed a finite bit list and then END has ended, in DONE, MALFORMED or
FAULT. -/
def Obligations.FiniteInputEndsTheRun : Prop :=
  ∀ (s : State) (bs : List Bool), s.mode = .run → s.PortsClear →
    ∃ t, RunsTo (bs.length + 2) (s.offer (Pseudo.bits bs ++ [.endInput])) t ∧
      (t.mode = .done ∨ t.mode = .malformed ∨ t.mode = .fault)

/-! ### The reference codec -/

/-- 45_reference_codec.md R171, R172: every byte that appears has its exact occurrence count, EOS
has count 1, and no other symbol is in the table. That the table stands in ascending symbol order
is the model's list form of the map (DEDUCED, notes/assumptions/15.md). -/
def Obligations.CountIsExact : Prop :=
  ∀ S : List Byte,
    (∀ b : Byte, (count S).lookup (.byte b) = if b ∈ S then some (S.count b) else none) ∧
    (count S).lookup .eos = some 1 ∧
    (count S).Pairwise (fun e f => e.1.code.toNat < f.1.code.toNat)

/-- 45_reference_codec.md R178, R189: the tree built of a table of k entries. For k ≥ 2 it is full,
with 2k - 1 nodes, k of them leaves and k - 1 internal, and depth 1..k-1; for k = 1 it is the
wrapper of 2 nodes; k is at most 257, so a tree has at most 513 nodes and depth at most 256. -/
def Obligations.BuiltTreeShape : Prop :=
  ∀ t : FreqTable, t ≠ [] → t.Pairwise (fun e f => e.1.code.toNat < f.1.code.toNat) →
    ∃ T, build t = some T ∧ T.leafSyms.Perm (t.map (·.1)) ∧
      t.length ≤ 257 ∧ T.entries.length ≤ 513 ∧ 1 ≤ T.height ∧ T.height ≤ 256 ∧
      (2 ≤ t.length → T.full = true ∧ T.leafSyms.length = t.length ∧
        T.entries.length = t.length + (t.length - 1) ∧
        (T.entries.filter (fun e => NodeWord.isLeaf e.2)).length = t.length ∧
        T.height ≤ t.length - 1) ∧
      (∀ e, t = [e] → T = .wrap e.2 1 (.leaf e.1 e.2 0) ∧ T.entries.length = 2)

/-- 45_reference_codec.md R180: the code of a built tree: every symbol of the table has exactly one
code word and no other symbol has one, every code word is non-empty, no code word is a prefix of
another symbol's, and each code word walks from the root to its symbol's leaf. -/
def Obligations.CodeIsPrefixFree : Prop :=
  ∀ t : FreqTable, t ≠ [] → t.Pairwise (fun e f => e.1.code.toNat < f.1.code.toNat) →
    ∃ T, build t = some T ∧
      ((codes (some T)).map (·.1)).Nodup ∧
      (∀ s, s ∈ t.map (·.1) ↔ s ∈ (codes (some T)).map (·.1)) ∧
      (∀ e ∈ codes (some T), e.2 ≠ []) ∧
      (∀ e ∈ codes (some T), ∀ f ∈ codes (some T), e.1 ≠ f.1 → ¬ e.2 <+: f.2) ∧
      (∀ (b : Byte) (w : List Bool), (.byte b, w) ∈ codes (some T) →
        decodeRun 513 (layout T) (nodeIdx T.idx) false w =
          ⟨[b], .run, nodeIdx T.idx, 0, w.length⟩) ∧
      (∀ w : List Bool, (.eos, w) ∈ codes (some T) →
        ∃ k, (layout T).read k = (true, leafWord 256#9) ∧
          decodeRun 513 (layout T) (nodeIdx T.idx) false w = ⟨[], .done, k, w.length, w.length⟩)

/-- 45_reference_codec.md R183: a byte without an entry makes the encoder fail, and the encoder of a
table's own input never fails. -/
def Obligations.EncoderFindsEveryByte : Prop :=
  (∀ (S : List Byte) (tab : CodeTable), (∃ b ∈ S, tab.lookup (.byte b) = none) →
    encodeBytes S tab = none) ∧
  (∀ S : List Byte, ∃ bits, encodeBytes S (codes (build (count S))) = some bits)

/-- 45_reference_codec.md R188: the table and the code words of one byte repeated n times. -/
def Obligations.OneDistinctByteCode : Prop :=
  ∀ (x : Byte) (n : Nat), 1 ≤ n →
    count (List.replicate n x) = [(.byte x, n), (.eos, 1)] ∧
    codes (build (count (List.replicate n x))) =
      if n = 1 then [(.byte x, [false]), (.eos, [true])]
      else [(.eos, [false]), (.byte x, [true])]

/-- 45_reference_codec.md R187: the empty input: its table, tree, code and stream, and the run over
its layout, of whatever NODE_COUNT. -/
def Obligations.EmptyInputCode : Prop :=
  count [] = [(.eos, 1)] ∧ build (count []) = some (.wrap 1 1 (.leaf .eos 1 0)) ∧
  codes (build (count [])) = [(.eos, [false])] ∧
  encodeBytes [] (codes (build (count []))) = some [false] ∧
  ∀ n, 513 ≤ n → decodeRun n (layout (.wrap 1 1 (.leaf .eos 1 0))) 1#10 true [false] =
    ⟨[], .done, 0#10, 1, 1⟩

/-- 30_encoding.md R88, 45_reference_codec.md R181: LOADTREE of a built tree leaves exactly its
canonical layout in the tree memory and its root's index in ROOT, without a fault, and START then
accepts the root. -/
def Obligations.LoadTreeLoadsTheLayout : Prop :=
  ∀ (S : List Byte) (s : State), s.Inv → s.mode ≠ .run → s.PortsClear →
    ∃ T t rs, build (count S) = some T ∧
      RunsTo ((Pseudo.loadTree T).length + 1) (s.offer (Pseudo.loadTree T)) t ∧
      t = { s with tree := layout T, root := nodeIdx T.idx, inputs := [], taken := s.taken ++ rs } ∧
      (∀ r ∈ rs, r = ⟨0#32, false, 0#8, false⟩) ∧ t.rootValid = true

/-- 45_reference_codec.md R186: THE ROUND TRIP. For every byte sequence, the decoder fed the
encoder's bits over the encoder's tree, then any padding, then END, delivers exactly the sequence
and ends in DONE without a fault. -/
def Obligations.RoundTrip : Prop :=
  ∀ (S : List Byte) (pad : List Bool) (s : State), s.Inv → s.mode ≠ .run → s.PortsClear →
    ∃ T stream t rs w,
      build (count S) = some T ∧ encodeBytes S (codes (some T)) = some stream ∧
      RunsTo ((Pseudo.decodeProgram T stream pad).length + 1)
        (s.offer (Pseudo.decodeProgram T stream pad)) t ∧
      t.mode = .done ∧ t.taken = s.taken ++ rs ∧ deliveredBytes rs = S ∧
      t.outcnt = BitVec.ofNat 32 S.length ∧ t.bitcnt = BitVec.ofNat 32 stream.length ∧
      (codes (some T)).lookup .eos = some w ∧ t.depth = BitVec.ofNat 11 w.length ∧
      t.memRead t.cur = (true, leafWord 256#9) ∧
      (∀ r ∈ rs, r.err = false) ∧ t.sticky = s.sticky ∧ t.cause = .none

/-- 45_reference_codec.md R184, R186: the round trip through a persisted payload: whatever PACK_ORDER
the host uses, if reading the payload back gives the bits in order and then padding, the decoder
delivers the sequence. -/
def Obligations.RoundTripThroughPayload : Prop :=
  ∀ (p : PackOrder) (S : List Byte) (s : State), p.Keeps → s.Inv → s.mode ≠ .run →
    s.PortsClear →
    ∃ T stream t rs,
      build (count S) = some T ∧ encodeBytes S (codes (some T)) = some stream ∧
      RunsTo ((Pseudo.decodeProgram T (p.unpack (p.pack stream)) []).length + 1)
        (s.offer (Pseudo.decodeProgram T (p.unpack (p.pack stream)) [])) t ∧
      t.mode = .done ∧ t.taken = s.taken ++ rs ∧ deliveredBytes rs = S
end

