-- ==== Sys2Proof/Laws/Count.lean ====
section
/-! SUPPORT. The frequency table: its order is kept and each bump adds one
(45_reference_codec.md R171, R172). -/

namespace Sys2Proof.Codec

open Sys2Proof.Machine

theorem Sym.code_byte (b : Byte) : (Sym.byte b).code.toNat = b.toNat := by
  simp [Sym.code]
  omega

theorem Sym.code_eos : Sym.eos.code.toNat = 256 := rfl

theorem Sym.code_le (s : Sym) : s.code.toNat ≤ 256 := by
  cases s with
  | byte b =>
    rw [Sym.code_byte]
    have := b.isLt
    omega
  | eos => rw [Sym.code_eos]

/-- Different symbols have different codes. -/
theorem Sym.code_inj {s t : Sym} (h : s.code.toNat = t.code.toNat) : s = t := by
  cases s with
  | byte b =>
    cases t with
    | byte c =>
      rw [Sym.code_byte, Sym.code_byte] at h
      rw [BitVec.eq_of_toNat_eq h]
    | eos =>
      rw [Sym.code_byte, Sym.code_eos] at h
      have := b.isLt
      omega
  | eos =>
    cases t with
    | byte c =>
      rw [Sym.code_byte, Sym.code_eos] at h
      have := c.isLt
      omega
    | eos => rfl

/-- Ascending order of symbol codes (R173). -/
abbrev FreqTable.sorted (t : FreqTable) : Prop :=
  t.Pairwise (fun e f => e.1.code.toNat < f.1.code.toNat)

/-- The symbols of a table in ascending order are distinct. -/
theorem FreqTable.sorted.nodup {t : FreqTable} (h : t.sorted) : (t.map (·.1)).Nodup := by
  rw [List.Nodup, List.pairwise_map]
  exact h.imp fun hlt he => by
    rw [he] at hlt
    omega

/-- A bumped table has the symbol and those it had. -/
theorem mem_bump (s s' : Sym) (t : FreqTable) :
    s' ∈ (bump s t).map (·.1) ↔ s' = s ∨ s' ∈ t.map (·.1) := by
  induction t with
  | nil => simp [bump]
  | cons e t ih =>
    unfold bump
    split
    · simp
    · split
      · next _ he => simp [he]
      · rw [List.map_cons, List.mem_cons, ih, List.map_cons, List.mem_cons]
        tauto

/-- A bump keeps the ascending order. -/
theorem bump_sorted {t : FreqTable} (h : t.sorted) (s : Sym) : FreqTable.sorted (bump s t) := by
  induction t with
  | nil => simp [bump, FreqTable.sorted]
  | cons e t ih =>
    have ht := List.pairwise_cons.mp h
    unfold bump
    split
    · next hlt =>
      refine List.pairwise_cons.mpr ⟨fun f hf => ?_, h⟩
      rcases List.mem_cons.mp hf with rfl | hf
      · exact hlt
      · exact lt_trans hlt (ht.1 f hf)
    · split
      · next _ he =>
        exact List.pairwise_cons.mpr ⟨fun f hf => by simpa [he] using ht.1 f hf, ht.2⟩
      · next h1 h2 =>
        refine List.pairwise_cons.mpr ⟨fun f hf => ?_, ih ht.2⟩
        have hk : f.1 ∈ (bump s t).map (·.1) := List.mem_map_of_mem (f := (·.1)) hf
        rcases (mem_bump s f.1 t).mp hk with hk | hk
        · rw [hk]
          have hne : s.code.toNat ≠ e.1.code.toNat := fun hc => h2 (Sym.code_inj hc)
          omega
        · obtain ⟨g, hg, hgk⟩ := List.mem_map.mp hk
          rw [← hgk]
          exact ht.1 g hg

/-- A symbol below every entry of a table has no entry. -/
theorem lookup_below {t : FreqTable} {s : Sym}
    (h : ∀ e ∈ t, s.code.toNat < e.1.code.toNat) : t.lookup s = none := by
  induction t with
  | nil => rfl
  | cons e t ih =>
    have hne : (s == e.1) = false := by
      rw [beq_eq_false_iff_ne]
      intro he
      have := h e (by simp)
      rw [he] at this
      omega
    rw [List.lookup_cons, hne]
    exact ih fun f hf => h f (List.mem_cons_of_mem _ hf)

/-- A lookup in a table that begins with another symbol's entry. -/
theorem lookup_cons_of_ne {e : Sym × Nat} {s : Sym} (h : s ≠ e.1) (t : FreqTable) :
    List.lookup s (e :: t) = List.lookup s t := by
  have hb : (s == e.1) = false := by simpa using h
  rw [List.lookup_cons, hb]

/-- A lookup in a table that begins with the symbol's entry. -/
theorem lookup_cons_of_eq {e : Sym × Nat} {s : Sym} (h : s = e.1) (t : FreqTable) :
    List.lookup s (e :: t) = some e.2 := by
  have hb : (s == e.1) = true := by simpa using h
  rw [List.lookup_cons, hb]

/-- What a bump does to every count: `t[s] <- (t[s] if present else 0) + 1`. -/
theorem lookup_bump {t : FreqTable} (h : t.sorted) (s s' : Sym) :
    (bump s t).lookup s' =
      if s' = s then some ((t.lookup s).getD 0 + 1) else t.lookup s' := by
  induction t with
  | nil =>
    by_cases hs : s' = s
    · rw [bump, lookup_cons_of_eq hs, if_pos hs]
      rfl
    · rw [bump, lookup_cons_of_ne hs, if_neg hs]
  | cons e t ih =>
    have ht := List.pairwise_cons.mp h
    unfold bump
    split
    · next hlt =>
      have hnone : List.lookup s (e :: t) = none := lookup_below fun f hf => by
        rcases List.mem_cons.mp hf with rfl | hf
        · exact hlt
        · exact lt_trans hlt (ht.1 f hf)
      by_cases hs : s' = s
      · rw [lookup_cons_of_eq hs, if_pos hs, hnone]
        rfl
      · rw [lookup_cons_of_ne hs, if_neg hs]
    · split
      · next _ he =>
        by_cases hs : s' = s
        · rw [lookup_cons_of_eq hs, if_pos hs, lookup_cons_of_eq he]
          rfl
        · rw [lookup_cons_of_ne hs, if_neg hs, lookup_cons_of_ne (he ▸ hs)]
      · next _ he =>
        by_cases hs' : s' = e.1
        · have hs : ¬ s' = s := fun hc => he (hc.symm.trans hs')
          rw [lookup_cons_of_eq hs', if_neg hs, lookup_cons_of_eq hs']
        · rw [lookup_cons_of_ne hs', lookup_cons_of_ne hs', lookup_cons_of_ne he, ih ht.2]

/-- The table of the bytes alone, before EOS is added (R172). -/
def byteTable (S : List Byte) : FreqTable := S.foldl (fun t b => bump (.byte b) t) []

theorem byteTable_snoc (S : List Byte) (b : Byte) :
    byteTable (S ++ [b]) = bump (.byte b) (byteTable S) := by
  simp [byteTable]

theorem byteTable_sorted (S : List Byte) : (byteTable S).sorted := by
  induction S using List.reverseRecOn with
  | nil => exact List.Pairwise.nil
  | append_singleton S b ih =>
    rw [byteTable_snoc]
    exact bump_sorted ih _

/-- Every byte has its exact occurrence count, and EOS has none yet. -/
theorem byteTable_lookup (S : List Byte) (s : Sym) :
    (byteTable S).lookup s =
      match s with
      | .byte b => if b ∈ S then some (S.count b) else none
      | .eos => none := by
  induction S using List.reverseRecOn with
  | nil => cases s <;> simp [byteTable]
  | append_singleton S x ih =>
    rw [byteTable_snoc, lookup_bump (byteTable_sorted S)]
    cases s with
    | eos => simpa using ih
    | byte b =>
      by_cases hb : b = x
      · subst hb
        rw [if_pos rfl, ih]
        by_cases hm : b ∈ S
        · simp [hm, List.count_append]
        · simp [hm, List.count_append, List.count_eq_zero_of_not_mem hm]
      · have hne : Sym.byte b ≠ Sym.byte x := by simpa using hb
        have hxb : ¬ x = b := fun h => hb h.symm
        rw [if_neg hne, ih]
        simp [hb, List.count_append, hxb]

theorem lookup_eq_none_iff {t : FreqTable} {s : Sym} :
    t.lookup s = none ↔ s ∉ t.map (·.1) := by
  induction t with
  | nil => simp
  | cons e t ih =>
    rw [List.lookup_cons, List.map_cons, List.mem_cons, not_or]
    by_cases hs : s = e.1
    · simp [hs]
    · have : (s == e.1) = false := by simpa using hs
      rw [this, ih]
      tauto

/-- `Count(S)` adds EOS with count 1 to the table of the bytes: no byte is EOS. -/
theorem count_eq (S : List Byte) : count S = bump .eos (byteTable S) := by
  have h : (byteTable S).any (fun e => e.1 == .eos) = false := by
    have hn := lookup_eq_none_iff.mp (byteTable_lookup S .eos)
    rw [List.any_eq_false]
    intro e he
    have : e.1 ≠ .eos := fun hc => hn (hc ▸ List.mem_map_of_mem (f := (·.1)) he)
    simpa using this
  unfold count
  unfold byteTable at *
  simp [h]

theorem count_sorted (S : List Byte) : (count S).sorted := by
  rw [count_eq]
  exact bump_sorted (byteTable_sorted S) _

theorem count_ne_nil (S : List Byte) : count S ≠ [] := by
  intro h
  have : Sym.eos ∈ (count S).map (·.1) := by
    rw [count_eq, mem_bump]
    exact .inl rfl
  simp [h] at this

/-- The symbols of the table of `S`: its bytes and EOS. -/
theorem mem_count (S : List Byte) (s : Sym) :
    s ∈ (count S).map (·.1) ↔ s = .eos ∨ ∃ b ∈ S, s = .byte b := by
  have hb : s ∈ (byteTable S).map (·.1) ↔ ∃ b ∈ S, s = .byte b := by
    rw [← not_iff_not, ← lookup_eq_none_iff, byteTable_lookup]
    cases s with
    | eos => simp
    | byte b => simp
  rw [count_eq, mem_bump, hb]

/-- A table of symbols has at most 257 entries (R178). -/
theorem sorted_length_le {t : FreqTable} (h : t.sorted) : t.length ≤ 257 := by
  have hn : (t.map (fun e => e.1.code.toNat)).Nodup := by
    rw [List.Nodup, List.pairwise_map]
    exact h.imp fun hlt => by omega
  have hs : (t.map (fun e => e.1.code.toNat)).toFinset ⊆ Finset.range 257 := by
    intro i hi
    obtain ⟨e, -, he⟩ := List.mem_map.mp (List.mem_toFinset.mp hi)
    have := e.1.code_le
    simp only [Finset.mem_range]
    omega
  have := Finset.card_le_card hs
  rwa [List.toFinset_card_of_nodup hn, List.length_map, Finset.card_range] at this

end Sys2Proof.Codec
end

