-- ==== Sys2Proof/Laws/Tree.lean ====
section
/-! SUPPORT. The paths of a reference tree: the code table is the list of its paths
(45_reference_codec.md R179, R180), and the counts of a full tree (R178, R189). -/

namespace Sys2Proof.Codec

open Sys2Proof.Machine

/-- The path of every leaf, the zero-branch first. -/
def RefNode.paths : RefNode → List (Sym × List Bool)
  | .leaf s _ _ => [(s, [])]
  | .wrap _ _ z => z.paths.map (fun e => (e.1, false :: e.2))
  | .inner _ _ z o =>
    z.paths.map (fun e => (e.1, false :: e.2)) ++ o.paths.map (fun e => (e.1, true :: e.2))

/-- The node is a leaf. -/
def RefNode.isLeafNode : RefNode → Bool
  | .leaf _ _ _ => true
  | .wrap _ _ _ => false
  | .inner _ _ _ _ => false

theorem RefNode.paths_syms (r : RefNode) : r.paths.map (·.1) = r.leafSyms := by
  induction r with
  | leaf => rfl
  | wrap n i z ih => simp [paths, leafSyms, ← ih]
  | inner n i z o ihz iho => simp [paths, leafSyms, ← ihz, ← iho, Function.comp_def]

/-- A path of a node that is no leaf is not empty. -/
theorem RefNode.path_ne_nil {r : RefNode} (h : r.isLeafNode = false) {e : Sym × List Bool}
    (he : e ∈ r.paths) : e.2 ≠ [] := by
  cases r with
  | leaf => simp [isLeafNode] at h
  | wrap n i z =>
    obtain ⟨f, -, rfl⟩ := List.mem_map.mp he
    simp
  | inner n i z o =>
    rcases List.mem_append.mp he with he | he <;> obtain ⟨f, -, rfl⟩ := List.mem_map.mp he <;> simp

/-- No path is a prefix of another leaf's path. -/
theorem RefNode.paths_prefix_free {r : RefNode} {e f : Sym × List Bool} (he : e ∈ r.paths)
    (hf : f ∈ r.paths) (hp : e.2 <+: f.2) : e = f := by
  induction r generalizing e f with
  | leaf s n i =>
    simp only [paths, List.mem_singleton] at he hf
    rw [he, hf]
  | wrap n i z ih =>
    obtain ⟨e', he', rfl⟩ := List.mem_map.mp he
    obtain ⟨f', hf', rfl⟩ := List.mem_map.mp hf
    rw [ih he' hf' (by simpa using hp)]
  | inner n i z o ihz iho =>
    rcases List.mem_append.mp he with he | he <;> obtain ⟨e', he', rfl⟩ := List.mem_map.mp he <;>
      rcases List.mem_append.mp hf with hf | hf <;> obtain ⟨f', hf', rfl⟩ := List.mem_map.mp hf
    · rw [ihz he' hf' (by simpa using hp)]
    · simp at hp
    · simp at hp
    · rw [iho he' hf' (by simpa using hp)]

/-- A lookup in a table misses a symbol that is not in it. -/
theorem lookup_eq_none {tab : CodeTable} {s : Sym} (h : s ∉ tab.map (·.1)) :
    tab.lookup s = none := by
  induction tab with
  | nil => rfl
  | cons e tab ih =>
    simp only [List.map_cons, List.mem_cons, not_or] at h
    have : (s == e.1) = false := by simpa using h.1
    rw [List.lookup_cons, this]
    exact ih h.2

/-- Where symbols are distinct, `visit` appends the paths of its node. -/
theorem visit_eq (r : RefNode) (path : List Bool) (tab : CodeTable)
    (hn : r.leafSyms.Nodup) (hd : ∀ s ∈ r.leafSyms, s ∉ tab.map (·.1)) :
    visit r path tab = tab ++ r.paths.map (fun e => (e.1, path ++ e.2)) := by
  induction r generalizing path tab with
  | leaf s n i =>
    have : tab.lookup s = none := lookup_eq_none (hd s (by simp [RefNode.leafSyms]))
    simp [visit, this, RefNode.paths]
  | wrap n i z ih =>
    rw [visit, ih _ _ hn hd]
    simp [RefNode.paths, Function.comp_def]
  | inner n i z o ihz iho =>
    simp only [RefNode.leafSyms, List.nodup_append] at hn
    have hz : ∀ s ∈ z.leafSyms, s ∉ tab.map (·.1) :=
      fun s hs => hd s (by simp [RefNode.leafSyms, hs])
    rw [visit, ihz _ _ hn.1 hz, iho _ _ hn.2.1]
    · simp [RefNode.paths, Function.comp_def]
    · intro s hs
      rw [List.map_append, List.mem_append, not_or]
      refine ⟨hd s (by simp [RefNode.leafSyms, hs]), ?_⟩
      rw [List.map_map]
      have : (List.map ((fun x => x.1) ∘ fun e : Sym × List Bool => (e.1, path ++ [false] ++ e.2))
          z.paths) = z.leafSyms := by
        rw [← RefNode.paths_syms]
        rfl
      rw [this]
      exact fun hz => hn.2.2 s hz s hs rfl

/-- `Codes(root)` of a tree with distinct symbols is the list of its paths. -/
theorem codes_eq_paths {r : RefNode} (hn : r.leafSyms.Nodup) : codes (some r) = r.paths := by
  rw [codes, visit_eq r [] [] hn (by simp)]
  simp

/-- In a table with distinct symbols every entry is what a lookup gives. -/
theorem lookup_eq_some_iff {tab : CodeTable} (hn : (tab.map (·.1)).Nodup) (s : Sym)
    (w : List Bool) : tab.lookup s = some w ↔ (s, w) ∈ tab := by
  induction tab with
  | nil => simp
  | cons e tab ih =>
    simp only [List.map_cons, List.nodup_cons] at hn
    rw [List.lookup_cons, List.mem_cons]
    by_cases he : s = e.1
    · have hb : (s == e.1) = true := by simp [he]
      rw [hb]
      constructor
      · intro h
        left
        cases h
        rw [he]
      · rintro (h | h)
        · rw [← h]
        · exact absurd (List.mem_map_of_mem (f := (·.1)) h) (by rw [he]; exact hn.1)
    · have hb : (s == e.1) = false := by simpa using he
      rw [hb, ih hn.2]
      constructor
      · exact .inr
      · rintro (h | h)
        · exact absurd (by rw [← h]) he
        · exact h

theorem RefNode.leafSyms_length_pos (r : RefNode) : 1 ≤ r.leafSyms.length := by
  induction r with
  | leaf => simp [leafSyms]
  | wrap n i z ih => simpa [leafSyms] using ih
  | inner n i z o ihz iho =>
    simp only [leafSyms, List.length_append]
    omega

/-- A full tree of k leaves has 2k - 1 nodes (R178). -/
theorem RefNode.full_entries_length {r : RefNode} (h : r.full = true) :
    r.entries.length + 1 = 2 * r.leafSyms.length := by
  induction r with
  | leaf => rfl
  | wrap n i z ih => simp [full] at h
  | inner n i z o ihz iho =>
    simp only [full, Bool.and_eq_true] at h
    simp only [entries, leafSyms, List.length_cons, List.length_append]
    have := ihz h.1
    have := iho h.2
    omega

/-- A full tree of k leaves has depth at most k - 1 (R178). -/
theorem RefNode.full_height {r : RefNode} (h : r.full = true) :
    r.height + 1 ≤ r.leafSyms.length := by
  induction r with
  | leaf => simp [height, leafSyms]
  | wrap n i z ih => simp [full] at h
  | inner n i z o ihz iho =>
    simp only [full, Bool.and_eq_true] at h
    simp only [height, leafSyms, List.length_append]
    have := ihz h.1
    have := iho h.2
    omega

/-- No path is longer than the tree is deep. -/
theorem RefNode.path_length_le {r : RefNode} {e : Sym × List Bool} (he : e ∈ r.paths) :
    e.2.length ≤ r.height := by
  induction r generalizing e with
  | leaf =>
    simp only [paths, List.mem_singleton] at he
    simp [he]
  | wrap n i z ih =>
    obtain ⟨f, hf, rfl⟩ := List.mem_map.mp he
    simpa [height] using ih hf
  | inner n i z o ihz iho =>
    rcases List.mem_append.mp he with he | he <;> obtain ⟨f, hf, rfl⟩ := List.mem_map.mp he
    · have := ihz hf
      simp only [height, List.length_cons]
      omega
    · have := iho hf
      simp only [height, List.length_cons]
      omega

theorem RefNode.idx_mem_entries (r : RefNode) : (r.idx, r.word) ∈ r.entries := by
  cases r <;> simp [entries, idx]

/-- The number of nodes is positive. -/
theorem RefNode.entries_length_pos (r : RefNode) : 1 ≤ r.entries.length :=
  List.length_pos_of_mem r.idx_mem_entries

end Sys2Proof.Codec
end

