-- ==== Sys2Proof/Laws/Build.lean ====
section
/-! SUPPORT. The tree builder: what `build` gives of a table (45_reference_codec.md R174-R178). -/

namespace Sys2Proof.Codec

open Sys2Proof.Machine

/-- The creation numbers of a tree's nodes. -/
abbrev RefNode.idxs (r : RefNode) : List Nat := r.entries.map (·.1)

theorem RefNode.idxs_inner (n i : Nat) (z o : RefNode) :
    (RefNode.inner n i z o).idxs = i :: (z.idxs ++ o.idxs) := by
  simp [idxs, entries]

theorem RefNode.idx_mem_idxs (r : RefNode) : r.idx ∈ r.idxs :=
  List.mem_map_of_mem (f := (·.1)) r.idx_mem_entries

/-- An insertion adds one item. -/
theorem Queue.insert_perm (n : RefNode) (q : Queue) : (Queue.insert n q).Perm (n :: q) := by
  induction q with
  | nil => exact .refl _
  | cons m q ih =>
    unfold Queue.insert
    split
    · exact .refl _
    · exact (ih.cons m).trans (.swap n m q)

theorem foldl_insert_perm (l : List RefNode) (q : Queue) :
    (l.foldl (fun q n => Queue.insert n q) q).Perm (l ++ q) := by
  induction l generalizing q with
  | nil => exact .refl _
  | cons n l ih =>
    refine (ih _).trans ?_
    refine ((Queue.insert_perm n q).append_left l).trans ?_
    exact List.perm_middle

/-- The queue holds the leaves. -/
theorem initialQueue_perm (t : FreqTable) : (initialQueue t).Perm (leaves 0 t) := by
  have := foldl_insert_perm (leaves 0 t) []
  rwa [List.append_nil] at this

theorem leaves_length (i : Nat) (t : FreqTable) : (leaves i t).length = t.length := by
  induction t generalizing i with
  | nil => rfl
  | cons e t ih => simp [leaves, ih]

theorem leaves_full (i : Nat) (t : FreqTable) : ∀ r ∈ leaves i t, r.full = true := by
  induction t generalizing i with
  | nil => simp [leaves]
  | cons e t ih => simpa [leaves, RefNode.full] using ih (i + 1)

theorem leaves_syms (i : Nat) (t : FreqTable) :
    (leaves i t).flatMap RefNode.leafSyms = t.map (·.1) := by
  induction t generalizing i with
  | nil => rfl
  | cons e t ih => simp [leaves, RefNode.leafSyms, ih]

theorem leaves_idxs (i : Nat) (t : FreqTable) :
    (leaves i t).flatMap RefNode.idxs = List.range' i t.length := by
  induction t generalizing i with
  | nil => rfl
  | cons e t ih => simp [leaves, RefNode.idxs, RefNode.entries, ih, List.range'_succ]

/-- The forest in the queue: every tree full, and every node with its own number, below `k`. -/
structure Forest (k : Nat) (q : Queue) : Prop where
  full : ∀ r ∈ q, r.full = true
  nodup : (q.flatMap RefNode.idxs).Nodup
  below : ∀ i ∈ q.flatMap RefNode.idxs, i < k

/-- One merge keeps the forest and its leaves. -/
theorem Forest.merge {k : Nat} {z o : RefNode} {q : Queue} (h : Forest k (z :: o :: q)) (n : Nat) :
    Forest (k + 1) (Queue.insert (.inner n k z o) q) ∧
    ((Queue.insert (.inner n k z o) q).flatMap RefNode.leafSyms).Perm
      ((z :: o :: q).flatMap RefNode.leafSyms) ∧
    (Queue.insert (.inner n k z o) q).length = q.length + 1 := by
  have hp := Queue.insert_perm (.inner n k z o) q
  have hi : ((Queue.insert (.inner n k z o) q).flatMap RefNode.idxs).Perm
      (k :: (z :: o :: q).flatMap RefNode.idxs) := by
    refine (hp.flatMap_right _).trans ?_
    simp [RefNode.idxs_inner]
  refine ⟨⟨fun r hr => ?_, ?_, fun i hm => ?_⟩, ?_, ?_⟩
  · rcases List.mem_cons.mp (hp.mem_iff.mp hr) with rfl | hr
    · simp [RefNode.full, h.full z (by simp), h.full o (by simp)]
    · exact h.full r (by simp [hr])
  · rw [hi.nodup_iff, List.nodup_cons]
    exact ⟨fun hk => absurd (h.below k hk) (by omega), h.nodup⟩
  · rcases List.mem_cons.mp (hi.mem_iff.mp hm) with rfl | hm
    · omega
    · have := h.below i hm
      omega
  · refine (hp.flatMap_right _).trans ?_
    simp [RefNode.leafSyms]
  · simpa using hp.length_eq

/-- The merge loop ends in one full tree of the forest's leaves, every node with its own number. -/
theorem mergeLoop_spec (fuel k : Nat) (q : Queue) (hq : q ≠ []) (hf : q.length ≤ fuel + 1)
    (h : Forest k q) :
    ∃ T, mergeLoop fuel k q = some T ∧ T.full = true ∧
      T.leafSyms.Perm (q.flatMap RefNode.leafSyms) ∧ T.idxs.Nodup ∧
      (∀ i ∈ T.idxs, i + 1 < k + q.length) ∧ (2 ≤ q.length → T.isLeafNode = false) := by
  induction fuel generalizing k q with
  | zero =>
    match q, hq with
    | [r], _ =>
      refine ⟨r, rfl, h.full r (by simp), by simp, by simpa using h.nodup, fun i hi => ?_, by simp⟩
      have := h.below i (by simpa using hi)
      simp only [List.length_singleton]
      omega
    | z :: o :: q, _ =>
      simp only [List.length_cons] at hf
      omega
  | succ fuel ih =>
    match q, hq with
    | [r], _ =>
      refine ⟨r, rfl, h.full r (by simp), by simp, by simpa using h.nodup, fun i hi => ?_, by simp⟩
      have := h.below i (by simpa using hi)
      simp only [List.length_singleton]
      omega
    | z :: o :: q, _ =>
      obtain ⟨h1, h2, h3⟩ := h.merge (z.count + o.count)
      simp only [List.length_cons] at hf
      have hne : Queue.insert (.inner (z.count + o.count) k z o) q ≠ [] := by
        intro hc
        rw [hc] at h3
        simp at h3
      obtain ⟨T, hT, hfull, hs, hn, hb, hl⟩ := ih (k + 1) _ hne (by omega) h1
      refine ⟨T, hT, hfull, hs.trans h2, hn, fun i hi => ?_, fun _ => ?_⟩
      · have := hb i hi
        simp only [List.length_cons]
        omega
      · cases T with
        | wrap => rfl
        | inner => rfl
        | leaf s n i =>
          have h4 := (hs.trans h2).length_eq
          have hz := z.leafSyms_length_pos
          have ho := o.leafSyms_length_pos
          simp [RefNode.leafSyms] at h4
          omega

/-- What `Build(t)` gives of a table of distinct symbols: a tree with the table's symbols as its
leaves, each node with its own number, full with at least two entries and the wrapper with one. -/
theorem build_spec (t : FreqTable) (ht : t ≠ []) :
    ∃ T, build t = some T ∧ T.isLeafNode = false ∧ T.leafSyms.Perm (t.map (·.1)) ∧
      T.idxs.Nodup ∧ (∀ i ∈ T.idxs, i < max 2 (2 * t.length - 1)) ∧
      (2 ≤ t.length → T.full = true) ∧
      (∀ e, t = [e] → T = .wrap e.2 1 (.leaf e.1 e.2 0)) := by
  match t, ht with
  | [e], _ =>
    refine ⟨.wrap e.2 1 (.leaf e.1 e.2 0), rfl, rfl, .refl _, ?_, ?_, by simp, fun f hf => ?_⟩
    · show ([1, 0] : List Nat).Nodup
      decide
    · show ∀ i ∈ ([1, 0] : List Nat), i < 2
      decide
    · cases hf
      rfl
  | e :: f :: t, _ =>
    set u : FreqTable := e :: f :: t with hu
    have hp := initialQueue_perm u
    have hlen : (initialQueue u).length = u.length := by rw [hp.length_eq, leaves_length]
    have hidx : ((initialQueue u).flatMap RefNode.idxs).Perm (List.range' 0 u.length) := by
      rw [← leaves_idxs]
      exact hp.flatMap_right _
    have hfo : Forest u.length (initialQueue u) :=
      ⟨fun r hr => leaves_full 0 u r (hp.mem_iff.mp hr),
        hidx.nodup_iff.mpr List.nodup_range', fun i hi => by
          simpa using hidx.mem_iff.mp hi⟩
    have h2 : 2 ≤ u.length := by simp [hu]
    obtain ⟨T, hT, hfull, hs, hn, hb, hl⟩ :=
      mergeLoop_spec u.length u.length (initialQueue u) (by
        intro hc
        rw [hc] at hlen
        simp only [List.length_nil] at hlen
        omega) (by omega) hfo
    refine ⟨T, ?_, hl (by omega), hs.trans ?_, hn, fun i hi => ?_, fun _ => hfull,
      fun e he => ?_⟩
    · rw [← hT]
      unfold build
      match hq : initialQueue u with
      | [] =>
        simp only [hq, List.length_nil] at hlen
        omega
      | [r] =>
        simp only [hq, List.length_singleton] at hlen
        omega
      | z :: o :: q => rfl
    · rw [← leaves_syms 0]
      exact hp.flatMap_right _
    · have := hb i hi
      omega
    · rw [he] at h2
      simp at h2

/-- The tree of an input (R172, R176-R178): its symbols are distinct and its numbers are inside
every tree memory. -/
theorem build_count (S : List Byte) :
    ∃ T, build (count S) = some T ∧ T.isLeafNode = false ∧ T.leafSyms.Perm ((count S).map (·.1)) ∧
      T.leafSyms.Nodup ∧ T.idxs.Nodup ∧ (∀ i ∈ T.idxs, i < 513) ∧
      T.entries.length ≤ 513 ∧ T.height ≤ 256 := by
  obtain ⟨T, hT, hl, hs, hn, hb, hf, hw⟩ := build_spec (count S) (count_ne_nil S)
  have hle := sorted_length_le (count_sorted S)
  have hlen := hs.length_eq
  rw [List.length_map] at hlen
  refine ⟨T, hT, hl, hs, hs.nodup_iff.mpr (count_sorted S).nodup, hn, fun i hi => ?_, ?_, ?_⟩
  · have := hb i hi
    omega
  · by_cases h2 : 2 ≤ (count S).length
    · have := RefNode.full_entries_length (hf h2)
      omega
    · obtain ⟨e, he⟩ := List.length_eq_one_iff.mp (by
        have := List.length_pos_iff.mpr (count_ne_nil S)
        omega : (count S).length = 1)
      rw [hw e he]
      simp [RefNode.entries]
  · by_cases h2 : 2 ≤ (count S).length
    · have := RefNode.full_height (hf h2)
      omega
    · obtain ⟨e, he⟩ := List.length_eq_one_iff.mp (by
        have := List.length_pos_iff.mpr (count_ne_nil S)
        omega : (count S).length = 1)
      rw [hw e he]
      simp [RefNode.height]

end Sys2Proof.Codec
end

