-- ==== Sys2Proof/Laws/NodeWord.lean ====
section
/-! SUPPORT. What the fields of an assembled node word read as (30_encoding.md R80). -/

namespace Sys2Proof.Machine

/-- The low part of an append. -/
theorem extract_append_low {n m : Nat} (x : BitVec n) (y : BitVec m) :
    (x ++ y).extractLsb' 0 m = y := by
  ext i hi
  simp [BitVec.getLsbD_append, hi]

/-- A field inside the high part of an append. -/
theorem extract_append_high {n m k l : Nat} (x : BitVec n) (y : BitVec m) (h : m ≤ k) :
    (x ++ y).extractLsb' k l = x.extractLsb' (k - m) l := by
  ext i hi
  have : ¬ k + i < m := by omega
  simp [BitVec.getLsbD_append, this, Nat.sub_add_comm h]

/-- A bit inside the high part of an append. -/
theorem getLsbD_append_high {n m k : Nat} (x : BitVec n) (y : BitVec m) (h : m ≤ k) :
    (x ++ y).getLsbD k = x.getLsbD (k - m) := by
  have : ¬ k < m := by omega
  simp [BitVec.getLsbD_append, this]

/-- A bit inside the low part of an append. -/
theorem getLsbD_append_low {n m k : Nat} (x : BitVec n) (y : BitVec m) (h : k < m) :
    (x ++ y).getLsbD k = y.getLsbD k := by
  simp [BitVec.getLsbD_append, h]

@[simp] theorem sym_innerWord (z o : Option NodeIdx) :
    NodeWord.sym (innerWord z o) = Config.nas := extract_append_low _ _

@[simp] theorem isLeaf_innerWord (z o : Option NodeIdx) :
    NodeWord.isLeaf (innerWord z o) = false := by
  simp [NodeWord.isLeaf]

@[simp] theorem zv_innerWord (z o : Option NodeIdx) :
    NodeWord.zv (innerWord z o) = z.isSome := by
  unfold NodeWord.zv innerWord
  rw [getLsbD_append_high _ _ (by decide), getLsbD_append_low _ _ (by decide)]
  cases z <;> simp

@[simp] theorem ov_innerWord (z o : Option NodeIdx) :
    NodeWord.ov (innerWord z o) = o.isSome := by
  unfold NodeWord.ov innerWord
  rw [getLsbD_append_high _ _ (by decide), getLsbD_append_high _ _ (by decide),
    getLsbD_append_low _ _ (by decide)]
  cases o <;> simp

@[simp] theorem zc_innerWord (z o : Option NodeIdx) :
    NodeWord.zc (innerWord z o) = z.getD 0#10 := by
  unfold NodeWord.zc innerWord
  rw [extract_append_high _ _ (by decide), extract_append_high _ _ (by decide),
    extract_append_high _ _ (by decide)]
  exact extract_append_low _ _

@[simp] theorem oc_innerWord (z o : Option NodeIdx) :
    NodeWord.oc (innerWord z o) = o.getD 0#10 := by
  unfold NodeWord.oc innerWord
  rw [extract_append_high _ _ (by decide), extract_append_high _ _ (by decide),
    extract_append_high _ _ (by decide), extract_append_high _ _ (by decide)]
  simp

@[simp] theorem branch_innerWord (z o : Option NodeIdx) (b : Bool) :
    NodeWord.branch (innerWord z o) b =
      if b then (o.isSome, o.getD 0#10) else (z.isSome, z.getD 0#10) := by
  unfold NodeWord.branch
  cases b <;> simp

@[simp] theorem sym_leafWord (sym : SymCode) : NodeWord.sym (leafWord sym) = sym := by
  unfold NodeWord.sym leafWord
  ext i hi
  simp [hi]
  omega

/-- An internal word is legal if it has a child and its children are inside the memory. -/
theorem legal_innerWord {n : Nat} {z o : Option NodeIdx} (hc : z.isSome ∨ o.isSome)
    (hz : ∀ k ∈ z, k.toNat < n) (ho : ∀ k ∈ o, k.toNat < n) :
    NodeWord.legal n (innerWord z o) = true := by
  have h : NodeWord.legalInternal n (innerWord z o) = true := by
    unfold NodeWord.legalInternal
    cases z <;> cases o <;> simp_all [legalChild]
  simp [NodeWord.legal, h]

/-- A leaf word of a byte or of EOS is legal. -/
theorem legal_leafWord {n : Nat} {sym : SymCode} (h : sym.toNat ≤ 256) :
    NodeWord.legal n (leafWord sym) = true := by
  have hl : NodeWord.legalLeaf (leafWord sym) = true := by
    unfold NodeWord.legalLeaf
    have : (leafWord sym).extractLsb' 9 22 = 0#22 := by
      unfold leafWord
      ext i hi
      simp
    simp [h, this]
  simp [NodeWord.legal, hl]

/-- WDATA of a node word: bit 31 is 0 and w[30:0] is the word. -/
@[simp] theorem legalNode_append (n : Nat) (w : NodeWord) :
    legalNode n (0#1 ++ w) = NodeWord.legal n w := by
  unfold legalNode
  rw [extract_append_low, getLsbD_append_high _ _ (by decide)]
  simp

/-- A leaf of a byte or of EOS is a leaf. -/
theorem isLeaf_leafWord {sym : SymCode} (h : sym.toNat ≤ 256) :
    NodeWord.isLeaf (leafWord sym) = true := by
  simp only [NodeWord.isLeaf, sym_leafWord, bne_iff_ne]
  intro e
  rw [e] at h
  exact absurd h (by decide)

end Sys2Proof.Machine
end

