-- ==== Sys2Proof/Laws/Encoding.lean ====
section
/-! SUPPORT. Command words as opcode and operand fields (30_encoding.md R71-R73): reading a field
of an assembled word, and what fitting a row of the opcode map says of the fields. -/

namespace Sys2Proof

open Sys2Proof.Machine

/-- A field inside the low part of an append. -/
theorem extract_append_within {n m k l : Nat} (x : BitVec n) (y : BitVec m) (h : k + l ≤ m) :
    (x ++ y).extractLsb' k l = y.extractLsb' k l := by
  apply BitVec.eq_of_getLsbD_eq
  intro i hi
  have : k + i < m := by omega
  simp [BitVec.getLsbD_append, this, hi]

/-- Two neighbouring fields are one field. -/
theorem extract_split {w : Nat} (x : BitVec w) (k m n : Nat) :
    x.extractLsb' k (n + m) = x.extractLsb' (k + m) n ++ x.extractLsb' k m := by
  apply BitVec.eq_of_getLsbD_eq
  intro i hi
  rw [BitVec.getLsbD_append]
  simp only [BitVec.getLsbD_extractLsb']
  by_cases h : i < m
  · simp [h, hi]
  · have h1 : i - m < n := by omega
    have h2 : k + m + (i - m) = k + i := by omega
    simp [h, h1, h2, hi]

/-- A word is its opcode and its 28 operand bits. -/
theorem cmd_split (w : Word) : w = opField w ++ w.extractLsb' 0 28 := by
  rw [opField, ← extract_split w 0 28 4]
  simp

/-- The field of one bit. -/
theorem extract_bit {w : Nat} (x : BitVec w) (k : Nat) :
    x.extractLsb' k 1 = BitVec.ofBool (x.getLsbD k) := by
  apply BitVec.eq_of_getLsbD_eq
  intro i hi
  have : i = 0 := by omega
  subst this
  simp

/-- A field is 0 exactly when all its bits are. -/
theorem extract_eq_zero_iff {w : Nat} (x : BitVec w) (k n : Nat) :
    x.extractLsb' k n = 0#n ↔ ∀ i, i < n → x.getLsbD (k + i) = false := by
  constructor
  · intro h i hi
    have := congrArg (fun y : BitVec n => y.getLsbD i) h
    simpa [hi] using this
  · intro h
    apply BitVec.eq_of_getLsbD_eq
    intro i hi
    simpa [hi] using h i hi

@[simp] theorem RegName.ofCode_code {ra : RegName} (h : ra.wellFormed = true) :
    RegName.ofCode ra.code = ra := by
  cases ra with
  | reserved n =>
    have h9 : 9 ≤ n.toNat := by simpa [RegName.wellFormed] using h
    have := n.isLt
    unfold RegName.ofCode RegName.code
    simp only
    split <;> first | omega | rfl
  | _ => rfl

@[simp] theorem RegName.code_ofCode (n : BitVec 4) : (RegName.ofCode n).code = n := by
  revert n
  decide

@[simp] theorem RegName.wellFormed_ofCode (n : BitVec 4) :
    (RegName.ofCode n).wellFormed = true := by
  revert n
  decide

/-- The word masked to its upper bits is those bits over zeros. -/
theorem and_upper_mask {k n : Nat} (w : BitVec (n + k)) :
    w &&& (BitVec.allOnes n ++ 0#k) = w.extractLsb' k n ++ 0#k := by
  apply BitVec.eq_of_getLsbD_eq
  intro i hi
  by_cases h : i < k
  · simp [BitVec.getLsbD_append, h]
  · have h1 : i - k < n := by omega
    have h2 : k + (i - k) = i := by omega
    simp [BitVec.getLsbD_append, h, h1, h2]

/-- Masking to the bits from `k` up compares the opcode and the reserved bits above the operand:
`(CMD & mask) == match` for a format with a `k`-bit operand (R73). -/
theorem masked_eq_iff {k n : Nat} (w : BitVec (4 + n + k)) (op : BitVec 4) :
    w &&& (BitVec.allOnes (4 + n) ++ 0#k) = (op ++ 0#n) ++ 0#k ↔
      w.extractLsb' (k + n) 4 = op ∧ w.extractLsb' k n = 0#n := by
  rw [and_upper_mask, extract_split w k n 4]
  constructor
  · intro h
    have h1 : ∀ {a b : Nat} {x x' : BitVec a} {y y' : BitVec b}, x ++ y = x' ++ y' →
        x = x' ∧ y = y' := fun {a b x x' y y'} h => by
      refine ⟨?_, ?_⟩
      · have := congrArg (fun v : BitVec (a + b) => v.extractLsb' b a) h
        simpa [extract_append_high] using this
      · have := congrArg (fun v : BitVec (a + b) => v.extractLsb' 0 b) h
        simpa [extract_append_low] using this
    exact h1 (h1 h).1
  · rintro ⟨h1, h2⟩
    rw [h1, h2]

/-- The mask of format Z. -/
theorem masked_formatZ (w : Word) (op : BitVec 4) :
    w &&& 0xFFFFFFFF#32 = op ++ 0#28 ↔ opField w = op ∧ w.extractLsb' 0 28 = 0#28 := by
  have h : (0xFFFFFFFF#32 : BitVec 32) = BitVec.allOnes 32 := rfl
  rw [h, BitVec.and_allOnes]
  constructor
  · rintro rfl
    exact ⟨(extract_append_high op 0#28 (by decide)).trans (by simp), extract_append_low op 0#28⟩
  · rintro ⟨h1, h2⟩
    rw [← h1, ← h2]
    exact cmd_split w

/-- The mask of format N. -/
theorem masked_formatN (w : Word) (op : BitVec 4) :
    w &&& 0xFFFFFC00#32 = (op ++ 0#18) ++ 0#10 ↔
      opField w = op ∧ w.extractLsb' 10 18 = 0#18 :=
  masked_eq_iff (k := 10) (n := 18) w op

/-- The mask of format R. -/
theorem masked_formatR (w : Word) (op : BitVec 4) :
    w &&& 0xFFFFFFF0#32 = (op ++ 0#24) ++ 0#4 ↔ opField w = op ∧ w.extractLsb' 4 24 = 0#24 :=
  masked_eq_iff (k := 4) (n := 24) w op

/-- The mask of format B. -/
theorem masked_formatB (w : Word) (op : BitVec 4) :
    w &&& 0xFFFFFFFE#32 = (op ++ 0#27) ++ 0#1 ↔ opField w = op ∧ w.extractLsb' 1 27 = 0#27 :=
  masked_eq_iff (k := 1) (n := 27) w op

end Sys2Proof
end

