-- ==== Sys2Proof/Laws/Memory.lean ====
section
/-! SUPPORT. The laws of the tree memory: a read after a write, the canonical form kept by every
memory operation, and what makes two canonical memories equal. -/

namespace Sys2Proof.Machine

@[simp] theorem Memory.lookup_nil (i : Nat) : Memory.lookup [] i = none := rfl

theorem Memory.lookup_cons (e : Nat × NodeWord) (m : Memory) (i : Nat) :
    Memory.lookup (e :: m) i = if e.1 = i then some e.2 else Memory.lookup m i := rfl

@[simp] theorem Memory.lookup_write_self (m : Memory) (i : Nat) (w : NodeWord) :
    (m.write i w).lookup i = some w := by
  induction m with
  | nil => simp [Memory.write, Memory.lookup]
  | cons e m ih =>
    unfold Memory.write
    split
    · simp [Memory.lookup]
    · split
      · simp [Memory.lookup]
      · rename_i _ h
        simp [Memory.lookup, Ne.symm h, ih]

theorem Memory.lookup_write_of_ne (m : Memory) {i j : Nat} (w : NodeWord) (h : j ≠ i) :
    (m.write i w).lookup j = m.lookup j := by
  induction m with
  | nil => simp [Memory.write, Memory.lookup, Ne.symm h]
  | cons e m ih =>
    unfold Memory.write
    split
    · simp [Memory.lookup, Ne.symm h]
    · split
      · rename_i _ he
        simp [Memory.lookup, ← he, Ne.symm h]
      · simp [Memory.lookup, ih]

theorem Memory.lookup_write (m : Memory) (i j : Nat) (w : NodeWord) :
    (m.write i w).lookup j = if j = i then some w else m.lookup j := by
  split
  · next h => rw [h, Memory.lookup_write_self]
  · next h => exact Memory.lookup_write_of_ne m w h

/-- Writing the same entry twice is writing it once. -/
@[simp] theorem Memory.write_write (m : Memory) (i : Nat) (w : NodeWord) :
    (m.write i w).write i w = m.write i w := by
  induction m with
  | nil => simp [Memory.write]
  | cons e m ih =>
    by_cases h1 : i < e.1
    · simp [Memory.write, h1]
    · by_cases h2 : i = e.1
      · simp [Memory.write, h2]
      · simp [Memory.write, h1, h2, ih]

/-- An entry of a written memory is the one written or was there before. -/
theorem Memory.mem_write {m : Memory} {i : Nat} {w : NodeWord} {e : Nat × NodeWord}
    (h : e ∈ m.write i w) : e = (i, w) ∨ e ∈ m := by
  induction m with
  | nil => simpa [Memory.write] using h
  | cons f m ih =>
    unfold Memory.write at h
    split at h
    · simpa using h
    · split at h
      · rcases List.mem_cons.mp h with h | h
        · exact .inl h
        · exact .inr (List.mem_cons_of_mem _ h)
      · rcases List.mem_cons.mp h with h | h
        · exact .inr (by simp [h])
        · rcases ih h with h | h
          · exact .inl h
          · exact .inr (List.mem_cons_of_mem _ h)

theorem Memory.wf_nil : Memory.wf [] := List.Pairwise.nil

/-- A write keeps the canonical form. -/
theorem Memory.wf_write {m : Memory} (h : m.wf) (i : Nat) (w : NodeWord) : (m.write i w).wf := by
  induction m with
  | nil => simp [Memory.write, Memory.wf]
  | cons e m ih =>
    have hm := List.pairwise_cons.mp h
    unfold Memory.write
    split
    · next hi =>
      refine List.pairwise_cons.mpr ⟨fun f hf => ?_, h⟩
      rcases List.mem_cons.mp hf with hf | hf
      · simpa [hf] using hi
      · have := hm.1 f hf
        simp only at *
        omega
    · split
      · next _ hi =>
        exact List.pairwise_cons.mpr ⟨fun f hf => by simpa [hi] using hm.1 f hf, hm.2⟩
      · next h1 h2 =>
        refine List.pairwise_cons.mpr ⟨fun f hf => ?_, ih hm.2⟩
        rcases Memory.mem_write hf with hf | hf
        · simp only [hf]
          omega
        · exact hm.1 f hf

/-- TREE_CLEAR's memory has the canonical form. -/
theorem State.memClear_wf (s : State) : s.memClear.tree.wf := Memory.wf_nil

/-- NODE_WRITE's memory has the canonical form. -/
theorem State.memWrite_wf {s : State} (h : s.tree.wf) (i : NodeIdx) (w : Word) :
    (s.memWrite i w).tree.wf := Memory.wf_write h _ _

theorem State.reset_tree_wf : State.reset.tree.wf := Memory.wf_nil

/-- In a canonical memory an entry is listed exactly when a lookup gives it. -/
theorem Memory.lookup_eq_some_iff {m : Memory} (h : m.wf) (i : Nat) (w : NodeWord) :
    m.lookup i = some w ↔ (i, w) ∈ m := by
  induction m with
  | nil => simp
  | cons e m ih =>
    have hm := List.pairwise_cons.mp h
    rw [Memory.lookup_cons, List.mem_cons]
    split
    · next he =>
      constructor
      · intro h'
        left
        cases h'
        rw [← he]
      · rintro (rfl | h')
        · rfl
        · have := hm.1 _ h'
          simp only at this
          omega
    · next he =>
      rw [ih hm.2]
      constructor
      · exact .inr
      · rintro (rfl | h')
        · exact absurd rfl he
        · exact h'

/-- What a lookup gives is listed, canonical form or not. -/
theorem Memory.mem_of_lookup {m : Memory} {i : Nat} {w : NodeWord} (h : m.lookup i = some w) :
    (i, w) ∈ m := by
  induction m with
  | nil => simp at h
  | cons e m ih =>
    rw [Memory.lookup_cons] at h
    split at h
    · next he =>
      cases h
      simp [← he]
    · exact List.mem_cons_of_mem _ (ih h)

/-- Two canonical memories with the same entries are the same list. -/
theorem Memory.eq_of_lookup {m m' : Memory} (h : m.wf) (h' : m'.wf)
    (hl : ∀ i, m.lookup i = m'.lookup i) : m = m' := by
  refine List.Perm.eq_of_pairwise (le := fun a b : Nat × NodeWord => a.1 < b.1)
    (fun a b _ _ h1 h2 => absurd h1 (by omega)) h h' ?_
  refine (List.perm_ext_iff_of_nodup ?_ ?_).mpr fun e => ?_
  · exact h.imp fun hab he => by simp [he] at hab
  · exact h'.imp fun hab he => by simp [he] at hab
  · obtain ⟨i, w⟩ := e
    rw [← Memory.lookup_eq_some_iff h, ← Memory.lookup_eq_some_iff h', hl]

theorem Memory.read_of_lookup {m : Memory} {i : NodeIdx} {w : NodeWord}
    (h : m.lookup i.toNat = some w) : m.read i = (true, w) := by
  simp [Memory.read, h]

/-- V[i] = 1 exactly when the entry is listed, and then NODE[i] is its word. -/
theorem Memory.read_fst {m : Memory} {i : NodeIdx} :
    (m.read i).1 = true ↔ m.lookup i.toNat = some (m.read i).2 := by
  unfold Memory.read
  cases m.lookup i.toNat <;> simp

theorem Memory.read_eq_true {m : Memory} {i : NodeIdx} {w : NodeWord} :
    m.read i = (true, w) ↔ m.lookup i.toNat = some w := by
  unfold Memory.read
  cases m.lookup i.toNat <;> simp

theorem State.memWrite_memRead_self (s : State) (i : NodeIdx) (w : Word) :
    (s.memWrite i w).memRead i = (true, w.extractLsb' 0 31) := by
  simp [State.memRead, State.memWrite, Memory.read]

theorem State.memWrite_memRead_of_ne (s : State) {i j : NodeIdx} (w : Word) (h : j ≠ i) :
    (s.memWrite i w).memRead j = s.memRead j := by
  have hne : j.toNat ≠ i.toNat := fun e => h (BitVec.eq_of_toNat_eq e)
  simp [State.memRead, State.memWrite, Memory.read, Memory.lookup_write_of_ne _ _ hne]

@[simp] theorem State.memClear_memRead (s : State) (i : NodeIdx) :
    (s.memClear.memRead i).1 = false := rfl

end Sys2Proof.Machine
end

