-- ==== Sys2Proof/Laws/State.lean ====
section
/-! SUPPORT. One lemma per field per named update of State, so that no proof unfolds a record
update. -/

namespace Sys2Proof.Machine

@[simp] theorem State.respond_nodeCount (s : State) (r : Response) :
    (s.respond r).nodeCount = s.nodeCount := rfl
@[simp] theorem State.respond_ctrl (s : State) (r : Response) : (s.respond r).ctrl = s.ctrl := rfl
@[simp] theorem State.respond_root (s : State) (r : Response) : (s.respond r).root = s.root := rfl
@[simp] theorem State.respond_mode (s : State) (r : Response) : (s.respond r).mode = s.mode := rfl
@[simp] theorem State.respond_sticky (s : State) (r : Response) :
    (s.respond r).sticky = s.sticky := rfl
@[simp] theorem State.respond_cause (s : State) (r : Response) :
    (s.respond r).cause = s.cause := rfl
@[simp] theorem State.respond_finfo (s : State) (r : Response) :
    (s.respond r).finfo = s.finfo := rfl
@[simp] theorem State.respond_cur (s : State) (r : Response) : (s.respond r).cur = s.cur := rfl
@[simp] theorem State.respond_depth (s : State) (r : Response) :
    (s.respond r).depth = s.depth := rfl
@[simp] theorem State.respond_bitcnt (s : State) (r : Response) :
    (s.respond r).bitcnt = s.bitcnt := rfl
@[simp] theorem State.respond_outcnt (s : State) (r : Response) :
    (s.respond r).outcnt = s.outcnt := rfl
@[simp] theorem State.respond_tree (s : State) (r : Response) : (s.respond r).tree = s.tree := rfl
@[simp] theorem State.respond_rsp (s : State) (r : Response) : (s.respond r).rsp = some r := rfl
@[simp] theorem State.respond_inputs (s : State) (r : Response) :
    (s.respond r).inputs = s.inputs := rfl
@[simp] theorem State.respond_rspReady (s : State) (r : Response) :
    (s.respond r).rspReady = s.rspReady := rfl
@[simp] theorem State.respond_taken (s : State) (r : Response) :
    (s.respond r).taken = s.taken := rfl

@[simp] theorem State.raise_nodeCount (s : State) (op : BitVec 4) (c : Cause) (i : NodeIdx) (b : Bool) :
    (s.raise op c i b).nodeCount = s.nodeCount := rfl
@[simp] theorem State.raise_ctrl (s : State) (op : BitVec 4) (c : Cause) (i : NodeIdx) (b : Bool) :
    (s.raise op c i b).ctrl = s.ctrl := rfl
@[simp] theorem State.raise_root (s : State) (op : BitVec 4) (c : Cause) (i : NodeIdx) (b : Bool) :
    (s.raise op c i b).root = s.root := rfl
@[simp] theorem State.raise_mode (s : State) (op : BitVec 4) (c : Cause) (i : NodeIdx) (b : Bool) :
    (s.raise op c i b).mode = .fault := rfl
@[simp] theorem State.raise_sticky (s : State) (op : BitVec 4) (c : Cause) (i : NodeIdx) (b : Bool) :
    (s.raise op c i b).sticky = true := rfl
@[simp] theorem State.raise_cause (s : State) (op : BitVec 4) (c : Cause) (i : NodeIdx) (b : Bool) :
    (s.raise op c i b).cause = if s.mode = .fault then s.cause else c := rfl
@[simp] theorem State.raise_finfo (s : State) (op : BitVec 4) (c : Cause) (i : NodeIdx) (b : Bool) :
    (s.raise op c i b).finfo = if s.mode = .fault then s.finfo else ⟨i, b, op⟩ := rfl
@[simp] theorem State.raise_cur (s : State) (op : BitVec 4) (c : Cause) (i : NodeIdx) (b : Bool) :
    (s.raise op c i b).cur = s.cur := rfl
@[simp] theorem State.raise_depth (s : State) (op : BitVec 4) (c : Cause) (i : NodeIdx) (b : Bool) :
    (s.raise op c i b).depth = s.depth := rfl
@[simp] theorem State.raise_bitcnt (s : State) (op : BitVec 4) (c : Cause) (i : NodeIdx) (b : Bool) :
    (s.raise op c i b).bitcnt = s.bitcnt := rfl
@[simp] theorem State.raise_outcnt (s : State) (op : BitVec 4) (c : Cause) (i : NodeIdx) (b : Bool) :
    (s.raise op c i b).outcnt = s.outcnt := rfl
@[simp] theorem State.raise_tree (s : State) (op : BitVec 4) (c : Cause) (i : NodeIdx) (b : Bool) :
    (s.raise op c i b).tree = s.tree := rfl
@[simp] theorem State.raise_rsp (s : State) (op : BitVec 4) (c : Cause) (i : NodeIdx) (b : Bool) :
    (s.raise op c i b).rsp = some Response.error := rfl
@[simp] theorem State.raise_inputs (s : State) (op : BitVec 4) (c : Cause) (i : NodeIdx) (b : Bool) :
    (s.raise op c i b).inputs = s.inputs := rfl
@[simp] theorem State.raise_rspReady (s : State) (op : BitVec 4) (c : Cause) (i : NodeIdx) (b : Bool) :
    (s.raise op c i b).rspReady = s.rspReady := rfl
@[simp] theorem State.raise_taken (s : State) (op : BitVec 4) (c : Cause) (i : NodeIdx) (b : Bool) :
    (s.raise op c i b).taken = s.taken := rfl

@[simp] theorem State.clearFault_nodeCount (s : State) :
    (s.clearFault).nodeCount = s.nodeCount := rfl
@[simp] theorem State.clearFault_ctrl (s : State) : (s.clearFault).ctrl = s.ctrl := rfl
@[simp] theorem State.clearFault_root (s : State) : (s.clearFault).root = s.root := rfl
@[simp] theorem State.clearFault_mode (s : State) : (s.clearFault).mode = s.mode := rfl
@[simp] theorem State.clearFault_sticky (s : State) : (s.clearFault).sticky = s.sticky := rfl
@[simp] theorem State.clearFault_cause (s : State) : (s.clearFault).cause = .none := rfl
@[simp] theorem State.clearFault_finfo (s : State) :
    (s.clearFault).finfo = ⟨0#10, false, 0#4⟩ := rfl
@[simp] theorem State.clearFault_cur (s : State) : (s.clearFault).cur = s.cur := rfl
@[simp] theorem State.clearFault_depth (s : State) : (s.clearFault).depth = s.depth := rfl
@[simp] theorem State.clearFault_bitcnt (s : State) : (s.clearFault).bitcnt = s.bitcnt := rfl
@[simp] theorem State.clearFault_outcnt (s : State) : (s.clearFault).outcnt = s.outcnt := rfl
@[simp] theorem State.clearFault_tree (s : State) : (s.clearFault).tree = s.tree := rfl
@[simp] theorem State.clearFault_rsp (s : State) : (s.clearFault).rsp = s.rsp := rfl
@[simp] theorem State.clearFault_inputs (s : State) : (s.clearFault).inputs = s.inputs := rfl
@[simp] theorem State.clearFault_rspReady (s : State) : (s.clearFault).rspReady = s.rspReady := rfl
@[simp] theorem State.clearFault_taken (s : State) : (s.clearFault).taken = s.taken := rfl

@[simp] theorem State.memWrite_nodeCount (s : State) (i : NodeIdx) (w : Word) :
    (s.memWrite i w).nodeCount = s.nodeCount := rfl
@[simp] theorem State.memWrite_ctrl (s : State) (i : NodeIdx) (w : Word) :
    (s.memWrite i w).ctrl = s.ctrl := rfl
@[simp] theorem State.memWrite_root (s : State) (i : NodeIdx) (w : Word) :
    (s.memWrite i w).root = s.root := rfl
@[simp] theorem State.memWrite_mode (s : State) (i : NodeIdx) (w : Word) :
    (s.memWrite i w).mode = s.mode := rfl
@[simp] theorem State.memWrite_sticky (s : State) (i : NodeIdx) (w : Word) :
    (s.memWrite i w).sticky = s.sticky := rfl
@[simp] theorem State.memWrite_cause (s : State) (i : NodeIdx) (w : Word) :
    (s.memWrite i w).cause = s.cause := rfl
@[simp] theorem State.memWrite_finfo (s : State) (i : NodeIdx) (w : Word) :
    (s.memWrite i w).finfo = s.finfo := rfl
@[simp] theorem State.memWrite_cur (s : State) (i : NodeIdx) (w : Word) :
    (s.memWrite i w).cur = s.cur := rfl
@[simp] theorem State.memWrite_depth (s : State) (i : NodeIdx) (w : Word) :
    (s.memWrite i w).depth = s.depth := rfl
@[simp] theorem State.memWrite_bitcnt (s : State) (i : NodeIdx) (w : Word) :
    (s.memWrite i w).bitcnt = s.bitcnt := rfl
@[simp] theorem State.memWrite_outcnt (s : State) (i : NodeIdx) (w : Word) :
    (s.memWrite i w).outcnt = s.outcnt := rfl
@[simp] theorem State.memWrite_tree (s : State) (i : NodeIdx) (w : Word) :
    (s.memWrite i w).tree = s.tree.write i.toNat (w.extractLsb' 0 31) := rfl
@[simp] theorem State.memWrite_rsp (s : State) (i : NodeIdx) (w : Word) :
    (s.memWrite i w).rsp = s.rsp := rfl
@[simp] theorem State.memWrite_inputs (s : State) (i : NodeIdx) (w : Word) :
    (s.memWrite i w).inputs = s.inputs := rfl
@[simp] theorem State.memWrite_rspReady (s : State) (i : NodeIdx) (w : Word) :
    (s.memWrite i w).rspReady = s.rspReady := rfl
@[simp] theorem State.memWrite_taken (s : State) (i : NodeIdx) (w : Word) :
    (s.memWrite i w).taken = s.taken := rfl

@[simp] theorem State.memClear_nodeCount (s : State) : (s.memClear).nodeCount = s.nodeCount := rfl
@[simp] theorem State.memClear_ctrl (s : State) : (s.memClear).ctrl = s.ctrl := rfl
@[simp] theorem State.memClear_root (s : State) : (s.memClear).root = s.root := rfl
@[simp] theorem State.memClear_mode (s : State) : (s.memClear).mode = s.mode := rfl
@[simp] theorem State.memClear_sticky (s : State) : (s.memClear).sticky = s.sticky := rfl
@[simp] theorem State.memClear_cause (s : State) : (s.memClear).cause = s.cause := rfl
@[simp] theorem State.memClear_finfo (s : State) : (s.memClear).finfo = s.finfo := rfl
@[simp] theorem State.memClear_cur (s : State) : (s.memClear).cur = s.cur := rfl
@[simp] theorem State.memClear_depth (s : State) : (s.memClear).depth = s.depth := rfl
@[simp] theorem State.memClear_bitcnt (s : State) : (s.memClear).bitcnt = s.bitcnt := rfl
@[simp] theorem State.memClear_outcnt (s : State) : (s.memClear).outcnt = s.outcnt := rfl
@[simp] theorem State.memClear_tree (s : State) : (s.memClear).tree = [] := rfl
@[simp] theorem State.memClear_rsp (s : State) : (s.memClear).rsp = s.rsp := rfl
@[simp] theorem State.memClear_inputs (s : State) : (s.memClear).inputs = s.inputs := rfl
@[simp] theorem State.memClear_rspReady (s : State) : (s.memClear).rspReady = s.rspReady := rfl
@[simp] theorem State.memClear_taken (s : State) : (s.memClear).taken = s.taken := rfl

@[simp] theorem State.beginRun_nodeCount (s : State) : (s.beginRun).nodeCount = s.nodeCount := rfl
@[simp] theorem State.beginRun_ctrl (s : State) : (s.beginRun).ctrl = s.ctrl := rfl
@[simp] theorem State.beginRun_root (s : State) : (s.beginRun).root = s.root := rfl
@[simp] theorem State.beginRun_mode (s : State) : (s.beginRun).mode = .run := rfl
@[simp] theorem State.beginRun_sticky (s : State) : (s.beginRun).sticky = s.sticky := rfl
@[simp] theorem State.beginRun_cause (s : State) : (s.beginRun).cause = .none := rfl
@[simp] theorem State.beginRun_finfo (s : State) : (s.beginRun).finfo = ⟨0#10, false, 0#4⟩ := rfl
@[simp] theorem State.beginRun_cur (s : State) : (s.beginRun).cur = s.root := rfl
@[simp] theorem State.beginRun_depth (s : State) : (s.beginRun).depth = 0#11 := rfl
@[simp] theorem State.beginRun_bitcnt (s : State) : (s.beginRun).bitcnt = 0#32 := rfl
@[simp] theorem State.beginRun_outcnt (s : State) : (s.beginRun).outcnt = 0#32 := rfl
@[simp] theorem State.beginRun_tree (s : State) : (s.beginRun).tree = s.tree := rfl
@[simp] theorem State.beginRun_rsp (s : State) : (s.beginRun).rsp = s.rsp := rfl
@[simp] theorem State.beginRun_inputs (s : State) : (s.beginRun).inputs = s.inputs := rfl
@[simp] theorem State.beginRun_rspReady (s : State) : (s.beginRun).rspReady = s.rspReady := rfl
@[simp] theorem State.beginRun_taken (s : State) : (s.beginRun).taken = s.taken := rfl

@[simp] theorem State.applyReset_nodeCount (s : State) :
    (s.applyReset).nodeCount = s.nodeCount := rfl
@[simp] theorem State.applyReset_ctrl (s : State) : (s.applyReset).ctrl = 0#3 := rfl
@[simp] theorem State.applyReset_root (s : State) : (s.applyReset).root = 0#10 := rfl
@[simp] theorem State.applyReset_mode (s : State) : (s.applyReset).mode = .idle := rfl
@[simp] theorem State.applyReset_sticky (s : State) : (s.applyReset).sticky = false := rfl
@[simp] theorem State.applyReset_cause (s : State) : (s.applyReset).cause = .none := rfl
@[simp] theorem State.applyReset_finfo (s : State) :
    (s.applyReset).finfo = ⟨0#10, false, 0#4⟩ := rfl
@[simp] theorem State.applyReset_cur (s : State) : (s.applyReset).cur = 0#10 := rfl
@[simp] theorem State.applyReset_depth (s : State) : (s.applyReset).depth = 0#11 := rfl
@[simp] theorem State.applyReset_bitcnt (s : State) : (s.applyReset).bitcnt = 0#32 := rfl
@[simp] theorem State.applyReset_outcnt (s : State) : (s.applyReset).outcnt = 0#32 := rfl
@[simp] theorem State.applyReset_tree (s : State) : (s.applyReset).tree = [] := rfl
@[simp] theorem State.applyReset_rsp (s : State) : (s.applyReset).rsp = none := rfl
@[simp] theorem State.applyReset_inputs (s : State) : (s.applyReset).inputs = s.inputs := rfl
@[simp] theorem State.applyReset_rspReady (s : State) :
    (s.applyReset).rspReady = s.rspReady.tail := rfl
@[simp] theorem State.applyReset_taken (s : State) : (s.applyReset).taken = s.taken := rfl

@[simp] theorem State.offer_nodeCount (s : State) (is : List Instr) :
    (s.offer is).nodeCount = s.nodeCount := rfl
@[simp] theorem State.offer_ctrl (s : State) (is : List Instr) : (s.offer is).ctrl = s.ctrl := rfl
@[simp] theorem State.offer_root (s : State) (is : List Instr) : (s.offer is).root = s.root := rfl
@[simp] theorem State.offer_mode (s : State) (is : List Instr) : (s.offer is).mode = s.mode := rfl
@[simp] theorem State.offer_sticky (s : State) (is : List Instr) :
    (s.offer is).sticky = s.sticky := rfl
@[simp] theorem State.offer_cause (s : State) (is : List Instr) :
    (s.offer is).cause = s.cause := rfl
@[simp] theorem State.offer_finfo (s : State) (is : List Instr) :
    (s.offer is).finfo = s.finfo := rfl
@[simp] theorem State.offer_cur (s : State) (is : List Instr) : (s.offer is).cur = s.cur := rfl
@[simp] theorem State.offer_depth (s : State) (is : List Instr) :
    (s.offer is).depth = s.depth := rfl
@[simp] theorem State.offer_bitcnt (s : State) (is : List Instr) :
    (s.offer is).bitcnt = s.bitcnt := rfl
@[simp] theorem State.offer_outcnt (s : State) (is : List Instr) :
    (s.offer is).outcnt = s.outcnt := rfl
@[simp] theorem State.offer_tree (s : State) (is : List Instr) : (s.offer is).tree = s.tree := rfl
@[simp] theorem State.offer_rsp (s : State) (is : List Instr) : (s.offer is).rsp = s.rsp := rfl
@[simp] theorem State.offer_inputs (s : State) (is : List Instr) :
    (s.offer is).inputs = is.map (fun i => .command (encode i)) := rfl
@[simp] theorem State.offer_rspReady (s : State) (is : List Instr) :
    (s.offer is).rspReady = s.rspReady := rfl
@[simp] theorem State.offer_taken (s : State) (is : List Instr) :
    (s.offer is).taken = s.taken := rfl

/-- Only the tree memory decides what an entry reads as. -/
theorem State.memRead_congr {s t : State} (h : t.tree = s.tree) (i : NodeIdx) :
    t.memRead i = s.memRead i := by
  simp [State.memRead, h]

@[simp] theorem State.respond_memRead (s : State) (r : Response) (i : NodeIdx) :
    (s.respond r).memRead i = s.memRead i := rfl

@[simp] theorem State.raise_memRead (s : State) (op : BitVec 4) (c : Cause) (k i : NodeIdx)
    (b : Bool) : (s.raise op c k b).memRead i = s.memRead i := rfl

@[simp] theorem State.beginRun_memRead (s : State) (i : NodeIdx) :
    s.beginRun.memRead i = s.memRead i := rfl

/-- Only size, ROOT and tree memory decide whether START accepts the root. -/
theorem State.rootValid_congr {s t : State} (hn : t.nodeCount = s.nodeCount)
    (hr : t.root = s.root) (ht : t.tree = s.tree) : t.rootValid = s.rootValid := by
  simp [State.rootValid, State.memRead, hn, hr, ht]

end Sys2Proof.Machine
end

