-- ==== Sys2Proof/Laws/Exec.lean ====
section
/-! SUPPORT. One inversion lemma per command: everything it can do. Each says the next state whole,
with the condition under which the command gives it. -/

namespace Sys2Proof.Machine

theorem execNop_cases {s t : State} : execNop s = .next t ↔ t = s.respond .ok := by
  simp [execNop, eq_comm]

theorem execNodeWrite_cases {idx : NodeIdx} {data : Word} {s t : State}
    (h : execNodeWrite idx data s = .next t) :
    (s.mode = .run ∧ t = s.raise 1#4 .treeBusy idx false) ∨
    (s.mode ≠ .run ∧ s.nodeCount ≤ idx.toNat ∧ t = s.raise 1#4 .badIndex idx false) ∨
    (s.mode ≠ .run ∧ idx.toNat < s.nodeCount ∧ legalNode s.nodeCount data = false ∧
      t = s.raise 1#4 .badNode idx false) ∨
    (s.mode ≠ .run ∧ idx.toNat < s.nodeCount ∧ legalNode s.nodeCount data = true ∧
      t = (s.memWrite idx data).respond .ok) := by
  unfold execNodeWrite at h
  simp only [Instr.opcode] at h
  split at h
  · exact .inl ⟨‹_›, by simpa using h.symm⟩
  · split at h
    · exact .inr (.inl ⟨‹_›, ‹_›, by simpa using h.symm⟩)
    · split at h
      · exact .inr (.inr (.inl ⟨‹_›, by omega, ‹_›, by simpa using h.symm⟩))
      · exact .inr (.inr (.inr ⟨‹_›, by omega, by simp_all, by simpa using h.symm⟩))

theorem execNodeRead_cases {idx : NodeIdx} {s t : State} (h : execNodeRead idx s = .next t) :
    (s.nodeCount ≤ idx.toNat ∧ t = s.raise 2#4 .badIndex idx false) ∨
    (idx.toNat < s.nodeCount ∧ t = s.respond (.data (nodeReadData (s.memRead idx)))) := by
  unfold execNodeRead at h
  simp only [Instr.opcode] at h
  split at h
  · exact .inl ⟨‹_›, by simpa using h.symm⟩
  · exact .inr ⟨by omega, by simpa using h.symm⟩

theorem execTreeClear_cases {s t : State} (h : execTreeClear s = .next t) :
    (s.mode = .run ∧ t = s.raise 3#4 .treeBusy 0#10 false) ∨
    (s.mode ≠ .run ∧ t = s.memClear.respond .ok) := by
  unfold execTreeClear at h
  simp only [Instr.opcode] at h
  split at h
  · exact .inl ⟨‹_›, by simpa using h.symm⟩
  · exact .inr ⟨‹_›, by simpa using h.symm⟩

theorem execRegRead_cases {ra : RegName} {s t : State} (h : execRegRead ra s = .next t) :
    (∃ v, s.regVal ra = some v ∧ t = s.respond (.data v)) ∨
    (s.regVal ra = none ∧ t = s.raise 4#4 .illegalCmd 0#10 false) := by
  unfold execRegRead at h
  simp only [Instr.opcode] at h
  split at h
  · exact .inl ⟨_, ‹_›, by simpa using h.symm⟩
  · exact .inr ⟨‹_›, by simpa using h.symm⟩

theorem execRegWrite_cases {ra : RegName} {data : Word} {s t : State}
    (h : execRegWrite ra data s = .next t) :
    (ra = .ctrl ∧ t = { s with ctrl := data.extractLsb' 0 3 }.respond .ok) ∨
    (ra = .root ∧ s.mode = .run ∧ t = s.raise 5#4 .treeBusy s.root false) ∨
    (ra = .root ∧ s.mode ≠ .run ∧ t = { s with root := data.extractLsb' 0 10 }.respond .ok) ∨
    (ra ≠ .ctrl ∧ ra ≠ .root ∧ t = s.raise 5#4 .illegalCmd 0#10 false) := by
  unfold execRegWrite at h
  simp only [Instr.opcode] at h
  split at h
  · exact .inl ⟨rfl, by simpa using h.symm⟩
  · split at h
    · exact .inr (.inl ⟨rfl, ‹_›, by simpa using h.symm⟩)
    · exact .inr (.inr (.inl ⟨rfl, ‹_›, by simpa using h.symm⟩))
  all_goals exact .inr (.inr (.inr ⟨by simp, by simp, by simpa using h.symm⟩))

theorem execStart_cases {s t : State} (h : execStart s = .next t) :
    (s.rootValid = false ∧ t = s.raise 6#4 .badRoot s.root false) ∨
    (s.rootValid = true ∧ t = s.beginRun.respond .ok) := by
  unfold execStart at h
  simp only [Instr.opcode] at h
  split at h
  · exact .inl ⟨‹_›, by simpa using h.symm⟩
  · exact .inr ⟨by simp_all, by simpa using h.symm⟩

theorem execAbort_cases {s t : State} :
    execAbort s = .next t ↔ t = { s.clearFault with mode := .idle }.respond .ok := by
  simp [execAbort, eq_comm]

/-- Everything a step of the walk can do, the child's presence and index and its entry named. -/
theorem walkBit_cases (b : Bool) (s : State) {p v : Bool} {c : NodeIdx} {cw : NodeWord}
    (hb : NodeWord.branch (s.memRead s.cur).2 b = (p, c)) (hc : s.memRead c = (v, cw)) :
    (p = false ∧ walkBit b s = s.raise 8#4 .absentChild s.cur b) ∨
    (p = true ∧ v = false ∧ walkBit b s = s.raise 8#4 .unwrittenNode c b) ∨
    (p = true ∧ v = true ∧ s.nodeCount ≤ s.depth.toNat + 1 ∧
      walkBit b s = s.raise 8#4 .depthOverflow c b) ∨
    (p = true ∧ v = true ∧ s.depth.toNat + 1 < s.nodeCount ∧ walkBit b s = s.arrive c cw) := by
  unfold walkBit
  simp only [hb, hc, Instr.opcode]
  cases p
  · simp
  · cases v
    · simp
    · by_cases hd : s.nodeCount ≤ s.depth.toNat + 1
      · simp [hd]
      · simp [hd]
        omega

/-- Everything an arrival can do (R143, R144). -/
theorem State.arrive_cases (s : State) (c : NodeIdx) (cw : NodeWord) :
    (NodeWord.sym cw = Config.eos ∧ s.arrive c cw =
      { s with mode := .done, bitcnt := s.bitcnt + 1#32, cur := c,
               depth := s.depth + 1#11 }.respond .ok) ∨
    (NodeWord.isLeaf cw = true ∧ NodeWord.sym cw ≠ Config.eos ∧ s.arrive c cw =
      { s with bitcnt := s.bitcnt + 1#32, outcnt := s.outcnt + 1#32, cur := s.root,
               depth := 0#11 }.respond (.byte ((NodeWord.sym cw).extractLsb' 0 8))) ∨
    (NodeWord.isLeaf cw = false ∧ s.arrive c cw =
      { s with bitcnt := s.bitcnt + 1#32, cur := c, depth := s.depth + 1#11 }.respond .ok) := by
  unfold State.arrive
  by_cases hl : NodeWord.isLeaf cw = true
  · by_cases he : NodeWord.sym cw = Config.eos
    · simp [hl, he]
    · simp [hl, he]
  · have : NodeWord.sym cw ≠ Config.eos := by
      intro he
      simp [NodeWord.isLeaf, he, Config.eos, Config.nas] at hl
    simp [hl, this]

theorem execBit_cases {b : Bool} {s t : State} (h : execBit b s = .next t) :
    (s.mode = .idle ∧ t = s.raise 8#4 .cmdState 0#10 b) ∨
    (s.mode = .run ∧ t = walkBit b s) ∨
    (s.mode ≠ .idle ∧ s.mode ≠ .run ∧ t = s.respond .ok) := by
  unfold execBit at h
  simp only [Instr.opcode] at h
  split at h
  · exact .inl ⟨‹_›, by simpa using h.symm⟩
  · exact .inr (.inl ⟨‹_›, by simpa using h.symm⟩)
  all_goals exact .inr (.inr ⟨by simp_all, by simp_all, by simpa using h.symm⟩)

theorem execEndInput_cases {s t : State} (h : execEndInput s = .next t) :
    (s.mode = .idle ∧ t = s.raise 9#4 .cmdState 0#10 false) ∨
    (s.mode = .run ∧ t = { s with mode := .malformed }.respond .ok) ∨
    (s.mode ≠ .idle ∧ s.mode ≠ .run ∧ t = s.respond .ok) := by
  unfold execEndInput at h
  simp only [Instr.opcode] at h
  split at h
  · exact .inl ⟨‹_›, by simpa using h.symm⟩
  · exact .inr (.inl ⟨‹_›, by simpa using h.symm⟩)
  all_goals exact .inr (.inr ⟨by simp_all, by simp_all, by simpa using h.symm⟩)

/-- `walkBit_cases` with the child and its entry as they are read. -/
theorem walkBit_cases_read (b : Bool) (s : State) {w : NodeWord}
    (hw : (s.memRead s.cur).2 = w) :
    ((NodeWord.branch w b).1 = false ∧ walkBit b s = s.raise 8#4 .absentChild s.cur b) ∨
    ((NodeWord.branch w b).1 = true ∧ (s.memRead (NodeWord.branch w b).2).1 = false ∧
      walkBit b s = s.raise 8#4 .unwrittenNode (NodeWord.branch w b).2 b) ∨
    ((NodeWord.branch w b).1 = true ∧ (s.memRead (NodeWord.branch w b).2).1 = true ∧
      s.nodeCount ≤ s.depth.toNat + 1 ∧
      walkBit b s = s.raise 8#4 .depthOverflow (NodeWord.branch w b).2 b) ∨
    ((NodeWord.branch w b).1 = true ∧ (s.memRead (NodeWord.branch w b).2).1 = true ∧
      s.depth.toNat + 1 < s.nodeCount ∧
      walkBit b s =
        s.arrive (NodeWord.branch w b).2 (s.memRead (NodeWord.branch w b).2).2) := by
  subst hw
  exact walkBit_cases b s Prod.mk.eta.symm Prod.mk.eta.symm

/-- Everything a command can do: it raises a fault, or it has its own effect, said command by
command. -/
theorem exec_cases {i : Instr} {s t : State} (h : exec i s = .next t) :
    (∃ ca k b, ca ≠ .none ∧ t = s.raise i.opcode ca k b) ∨
    (i = .nop ∧ t = s.respond .ok) ∨
    (∃ idx data, i = .nodeWrite idx data ∧ s.mode ≠ .run ∧ idx.toNat < s.nodeCount ∧
      legalNode s.nodeCount data = true ∧ t = (s.memWrite idx data).respond .ok) ∨
    (∃ idx, i = .nodeRead idx ∧ idx.toNat < s.nodeCount ∧
      t = s.respond (.data (nodeReadData (s.memRead idx)))) ∨
    (i = .treeClear ∧ s.mode ≠ .run ∧ t = s.memClear.respond .ok) ∨
    (∃ ra v, i = .regRead ra ∧ s.regVal ra = some v ∧ t = s.respond (.data v)) ∨
    (∃ data, i = .regWrite .ctrl data ∧ t = { s with ctrl := data.extractLsb' 0 3 }.respond .ok) ∨
    (∃ data, i = .regWrite .root data ∧ s.mode ≠ .run ∧
      t = { s with root := data.extractLsb' 0 10 }.respond .ok) ∨
    (i = .start ∧ s.rootValid = true ∧ t = s.beginRun.respond .ok) ∨
    (i = .abort ∧ t = { s.clearFault with mode := .idle }.respond .ok) ∨
    (∃ b w, i = .bit b ∧ s.mode = .run ∧ (s.memRead s.cur).2 = w ∧
      (NodeWord.branch w b).1 = true ∧ (s.memRead (NodeWord.branch w b).2).1 = true ∧
      s.depth.toNat + 1 < s.nodeCount ∧
      t = s.arrive (NodeWord.branch w b).2 (s.memRead (NodeWord.branch w b).2).2) ∨
    ((i = .endInput ∨ ∃ b, i = .bit b) ∧ s.mode ≠ .idle ∧ s.mode ≠ .run ∧ t = s.respond .ok) ∨
    (i = .endInput ∧ s.mode = .run ∧ t = { s with mode := .malformed }.respond .ok) := by
  cases i with
  | nop => exact .inr (.inl ⟨rfl, execNop_cases.mp h⟩)
  | nodeWrite idx data =>
    obtain ⟨-, h⟩ | ⟨-, -, h⟩ | ⟨-, -, -, h⟩ | ⟨h1, h2, h3, h⟩ := execNodeWrite_cases h
    · exact .inl ⟨_, _, _, by decide, h⟩
    · exact .inl ⟨_, _, _, by decide, h⟩
    · exact .inl ⟨_, _, _, by decide, h⟩
    · exact .inr (.inr (.inl ⟨_, _, rfl, h1, h2, h3, h⟩))
  | nodeRead idx =>
    obtain ⟨-, h⟩ | ⟨h1, h⟩ := execNodeRead_cases h
    · exact .inl ⟨_, _, _, by decide, h⟩
    · exact .inr (.inr (.inr (.inl ⟨_, rfl, h1, h⟩)))
  | treeClear =>
    obtain ⟨-, h⟩ | ⟨h1, h⟩ := execTreeClear_cases h
    · exact .inl ⟨_, _, _, by decide, h⟩
    · exact .inr (.inr (.inr (.inr (.inl ⟨rfl, h1, h⟩))))
  | regRead ra =>
    obtain ⟨v, h1, h⟩ | ⟨-, h⟩ := execRegRead_cases h
    · exact .inr (.inr (.inr (.inr (.inr (.inl ⟨_, v, rfl, h1, h⟩)))))
    · exact .inl ⟨_, _, _, by decide, h⟩
  | regWrite ra data =>
    obtain ⟨rfl, h'⟩ | ⟨-, -, h'⟩ | ⟨rfl, h1, h'⟩ | ⟨-, -, h'⟩ := execRegWrite_cases h
    · exact .inr (.inr (.inr (.inr (.inr (.inr (.inl ⟨_, rfl, h'⟩))))))
    · exact .inl ⟨_, _, _, by decide, h'⟩
    · exact .inr (.inr (.inr (.inr (.inr (.inr (.inr (.inl ⟨_, rfl, h1, h'⟩)))))))
    · exact .inl ⟨_, _, _, by decide, h'⟩
  | start =>
    obtain ⟨-, h⟩ | ⟨h1, h⟩ := execStart_cases h
    · exact .inl ⟨_, _, _, by decide, h⟩
    · exact .inr (.inr (.inr (.inr (.inr (.inr (.inr (.inr (.inl ⟨rfl, h1, h⟩))))))))
  | abort =>
    exact .inr (.inr (.inr (.inr (.inr (.inr (.inr (.inr (.inr (.inl
      ⟨rfl, execAbort_cases.mp h⟩)))))))))
  | bit b =>
    obtain ⟨-, h⟩ | ⟨hm, h⟩ | ⟨h1, h2, h⟩ := execBit_cases h
    · exact .inl ⟨_, _, _, by decide, h⟩
    · obtain ⟨-, h'⟩ | ⟨-, -, h'⟩ | ⟨-, -, -, h'⟩ | ⟨h1, h2, h3, h'⟩ := walkBit_cases_read b s rfl
      · exact .inl ⟨_, _, _, by decide, h.trans h'⟩
      · exact .inl ⟨_, _, _, by decide, h.trans h'⟩
      · exact .inl ⟨_, _, _, by decide, h.trans h'⟩
      · exact .inr (.inr (.inr (.inr (.inr (.inr (.inr (.inr (.inr (.inr (.inl
          ⟨b, _, rfl, hm, rfl, h1, h2, h3, h.trans h'⟩))))))))))
    · exact .inr (.inr (.inr (.inr (.inr (.inr (.inr (.inr (.inr (.inr (.inr (.inl
        ⟨.inr ⟨b, rfl⟩, h1, h2, h⟩)))))))))))
  | endInput =>
    obtain ⟨-, h⟩ | ⟨hm, h⟩ | ⟨h1, h2, h⟩ := execEndInput_cases h
    · exact .inl ⟨_, _, _, by decide, h⟩
    · exact .inr (.inr (.inr (.inr (.inr (.inr (.inr (.inr (.inr (.inr (.inr (.inr
        ⟨rfl, hm, h⟩)))))))))))
    · exact .inr (.inr (.inr (.inr (.inr (.inr (.inr (.inr (.inr (.inr (.inr (.inl
        ⟨.inl rfl, h1, h2, h⟩)))))))))))

/-- Every command answers a next state with a response at the port (60_exceptions.md R200,
00_scope.md R12). -/
theorem exec_next (i : Instr) (s : State) : ∃ t r, exec i s = .next t ∧ t.rsp = some r := by
  have walk : ∀ b, ∃ r, (walkBit b s).rsp = some r := fun b => by
    obtain ⟨-, h⟩ | ⟨-, -, h⟩ | ⟨-, -, -, h⟩ | ⟨-, -, -, h⟩ :=
      walkBit_cases b s (p := _) (c := _) rfl (v := _) (cw := _) rfl
    · exact ⟨.error, by rw [h]; rfl⟩
    · exact ⟨.error, by rw [h]; rfl⟩
    · exact ⟨.error, by rw [h]; rfl⟩
    · rw [h]
      obtain ⟨-, h'⟩ | ⟨-, -, h'⟩ | ⟨-, h'⟩ := s.arrive_cases _ _ <;> rw [h'] <;> exact ⟨_, rfl⟩
  cases i with
  | nop => exact ⟨_, _, rfl, rfl⟩
  | nodeWrite idx data =>
    simp only [exec, execNodeWrite]
    split_ifs <;> exact ⟨_, _, rfl, rfl⟩
  | nodeRead idx =>
    simp only [exec, execNodeRead]
    split_ifs <;> exact ⟨_, _, rfl, rfl⟩
  | treeClear =>
    simp only [exec, execTreeClear]
    split_ifs <;> exact ⟨_, _, rfl, rfl⟩
  | regRead ra => cases ra <;> exact ⟨_, _, rfl, rfl⟩
  | regWrite ra data =>
    cases ra
    case root =>
      simp only [exec, execRegWrite]
      split_ifs <;> exact ⟨_, _, rfl, rfl⟩
    all_goals exact ⟨_, _, rfl, rfl⟩
  | start =>
    simp only [exec, execStart]
    split_ifs <;> exact ⟨_, _, rfl, rfl⟩
  | abort => exact ⟨_, _, rfl, rfl⟩
  | bit b =>
    simp only [exec, execBit]
    cases hm : s.mode
    case run =>
      obtain ⟨r, hr⟩ := walk b
      exact ⟨_, r, rfl, hr⟩
    all_goals exact ⟨_, _, rfl, rfl⟩
  | endInput =>
    simp only [exec, execEndInput]
    cases hm : s.mode <;> exact ⟨_, _, rfl, rfl⟩

/-- Every accepted transaction answers a next state with a response at the port. -/
theorem issue_next (c : Command) (s : State) : ∃ t r, issue c s = .next t ∧ t.rsp = some r := by
  unfold issue
  split
  · exact exec_next _ s
  · exact ⟨_, _, rfl, rfl⟩

theorem issue_of_decode {c : Command} {i : Instr} (h : decode c = .ok i) (s : State) :
    issue c s = exec i s := by
  simp [issue, h]

end Sys2Proof.Machine
end

