-- ==== Sys2Proof/Laws/Layout.lean ====
section
/-! SUPPORT. The canonical layout: a tree memory that lists exactly the nodes of a tree
(45_reference_codec.md R181), each a legal word (30_encoding.md R82). -/

namespace Sys2Proof.Codec

open Sys2Proof.Machine

/-- What a list of writes leaves at an index, when the list names each index once. -/
theorem lookup_writes {es : List (Nat × NodeWord)} (hn : (es.map (·.1)).Nodup) (m : Memory)
    (i : Nat) (w : NodeWord) :
    (es.foldl (fun m e => m.write e.1 e.2) m).lookup i = some w ↔
      (i, w) ∈ es ∨ (i ∉ es.map (·.1) ∧ m.lookup i = some w) := by
  induction es generalizing m with
  | nil => simp
  | cons e es ih =>
    rw [List.map_cons, List.nodup_cons] at hn
    rw [List.foldl_cons, ih hn.2, Memory.lookup_write, List.mem_cons, List.map_cons,
      List.mem_cons, not_or]
    by_cases hi : i = e.1
    · subst hi
      constructor
      · rintro (h | ⟨-, h⟩)
        · exact .inl (.inr h)
        · rw [if_pos rfl] at h
          cases h
          exact .inl (.inl rfl)
      · rintro ((h | h) | ⟨h, -⟩)
        · exact .inr ⟨hn.1, by rw [if_pos rfl, ← h]⟩
        · exact .inl h
        · exact absurd rfl h.1
    · rw [if_neg hi]
      constructor
      · rintro (h | h)
        · exact .inl (.inr h)
        · exact .inr ⟨⟨hi, h.1⟩, h.2⟩
      · rintro ((h | h) | h)
        · exact absurd (by rw [← h]) hi
        · exact .inl h
        · exact .inr ⟨h.1.2, h.2⟩

theorem wf_writes (es : List (Nat × NodeWord)) {m : Memory} (h : m.wf) :
    Memory.wf (es.foldl (fun m e => m.write e.1 e.2) m) := by
  induction es generalizing m with
  | nil => exact h
  | cons e es ih => exact ih (Memory.wf_write h _ _)

theorem layout_wf (T : RefNode) : (layout T).wf := wf_writes _ Memory.wf_nil

/-- The layout holds each node's word at the node's number. -/
theorem lookup_layout {T : RefNode} (hn : T.idxs.Nodup) (i : Nat) (w : NodeWord) :
    (layout T).lookup i = some w ↔ (i, w) ∈ T.entries := by
  rw [layout, lookup_writes hn]
  simp

theorem mem_layout {T : RefNode} (hn : T.idxs.Nodup) (e : Nat × NodeWord) :
    e ∈ layout T ↔ e ∈ T.entries := by
  rw [← Memory.lookup_eq_some_iff (layout_wf T), lookup_layout hn]

theorem nodeIdx_toNat {i : Nat} (h : i < 1024) : (nodeIdx i).toNat = i := by
  simp [nodeIdx]
  omega

/-- Every node word of a tree whose numbers are inside the memory is legal. -/
theorem RefNode.entries_legal {n : Nat} (hn : n ≤ 1024) {T : RefNode} (hb : ∀ i ∈ T.idxs, i < n) :
    ∀ e ∈ T.entries, e.1 < n ∧ NodeWord.legal n e.2 = true := by
  intro e he
  refine ⟨hb _ (List.mem_map_of_mem (f := (·.1)) he), ?_⟩
  have hk : ∀ {r : RefNode}, r.idx < n → (nodeIdx r.idx).toNat < n := fun {r} h => by
    rw [nodeIdx_toNat (by omega)]
    exact h
  induction T with
  | leaf s c i =>
    simp only [entries, List.mem_singleton] at he
    rw [he]
    exact legal_leafWord s.code_le
  | wrap c i z ih =>
    have hz : ∀ j ∈ z.idxs, j < n := fun j hj => hb j (by simp [idxs, entries] at hj ⊢; tauto)
    rcases List.mem_cons.mp he with rfl | he
    · exact legal_innerWord (.inl rfl) (by simpa using hk (hz _ z.idx_mem_idxs)) (by simp)
    · exact ih hz he
  | inner c i z o ihz iho =>
    rw [idxs_inner] at hb
    have hz : ∀ j ∈ z.idxs, j < n := fun j hj => hb j (by simp [hj])
    have ho : ∀ j ∈ o.idxs, j < n := fun j hj => hb j (by simp [hj])
    rcases List.mem_cons.mp he with rfl | he
    · exact legal_innerWord (.inl rfl) (by simpa using hk (hz _ z.idx_mem_idxs))
        (by simpa using hk (ho _ o.idx_mem_idxs))
    · rcases List.mem_append.mp he with he | he
      · exact ihz hz he
      · exact iho ho he

end Sys2Proof.Codec
end

