-- ==== Sys2Proof/Laws/Step.lean ====
section
/-! SUPPORT. What a step does around a command, and how a list of commands runs through the
ports. -/

namespace Sys2Proof.Machine

/-! ### No command reads the ports -/

/-- The ports, replaced. -/
def State.withPorts (s : State) (rsp : Option Response) (inputs : List HostInput)
    (rspReady : List Bool) (taken : List Response) : State :=
  { s with rsp := rsp, inputs := inputs, rspReady := rspReady, taken := taken }

/-- A function applied to the next state of an outcome. -/
def mapNext (f : State → State) :
    Host.Outcome State Fault Refusal → Host.Outcome State Fault Refusal
  | .next t => .next (f t)
  | .fault r => .fault r
  | .refused r => .refused r

@[simp] theorem mapNext_next (f : State → State) (t : State) :
    mapNext f (.next t) = .next (f t) := rfl

@[simp] theorem State.withPorts_self (s : State) :
    s.withPorts s.rsp s.inputs s.rspReady s.taken = s := rfl

section
variable (s : State) (x y : Option Response) (a a' : List HostInput) (b b' : List Bool)
  (c c' : List Response)

@[simp] theorem State.withPorts_withPorts :
    (s.withPorts x a b c).withPorts y a' b' c' = s.withPorts y a' b' c' := rfl

@[simp] theorem State.withPorts_nodeCount : (s.withPorts x a b c).nodeCount = s.nodeCount := rfl
@[simp] theorem State.withPorts_ctrl : (s.withPorts x a b c).ctrl = s.ctrl := rfl
@[simp] theorem State.withPorts_root : (s.withPorts x a b c).root = s.root := rfl
@[simp] theorem State.withPorts_mode : (s.withPorts x a b c).mode = s.mode := rfl
@[simp] theorem State.withPorts_sticky : (s.withPorts x a b c).sticky = s.sticky := rfl
@[simp] theorem State.withPorts_cause : (s.withPorts x a b c).cause = s.cause := rfl
@[simp] theorem State.withPorts_finfo : (s.withPorts x a b c).finfo = s.finfo := rfl
@[simp] theorem State.withPorts_cur : (s.withPorts x a b c).cur = s.cur := rfl
@[simp] theorem State.withPorts_depth : (s.withPorts x a b c).depth = s.depth := rfl
@[simp] theorem State.withPorts_bitcnt : (s.withPorts x a b c).bitcnt = s.bitcnt := rfl
@[simp] theorem State.withPorts_outcnt : (s.withPorts x a b c).outcnt = s.outcnt := rfl
@[simp] theorem State.withPorts_tree : (s.withPorts x a b c).tree = s.tree := rfl

@[simp] theorem State.withPorts_rsp : (s.withPorts x a b c).rsp = x := rfl
@[simp] theorem State.withPorts_inputs : (s.withPorts x a b c).inputs = a := rfl
@[simp] theorem State.withPorts_rspReady : (s.withPorts x a b c).rspReady = b := rfl
@[simp] theorem State.withPorts_taken : (s.withPorts x a b c).taken = c := rfl
@[simp] theorem State.withPorts_memRead (i : NodeIdx) :
    (s.withPorts x a b c).memRead i = s.memRead i := rfl
@[simp] theorem State.withPorts_rootValid : (s.withPorts x a b c).rootValid = s.rootValid := rfl
@[simp] theorem State.withPorts_regVal (ra : RegName) :
    (s.withPorts x a b c).regVal ra = s.regVal ra := by cases ra <;> rfl

theorem State.arrive_withPorts (k : NodeIdx) (w : NodeWord) :
    (s.withPorts x a b c).arrive k w = (s.arrive k w).withPorts (s.arrive k w).rsp a b c := by
  simp only [State.arrive]
  split_ifs <;> rfl

theorem walkBit_withPorts (bit : Bool) :
    walkBit bit (s.withPorts x a b c) =
      (walkBit bit s).withPorts (walkBit bit s).rsp a b c := by
  simp only [walkBit, apply_ite (fun t : State => t.withPorts t.rsp a b c),
    ← State.arrive_withPorts s x a b c]
  rfl

/-- No command reads the ports, and it writes only the response. -/
theorem exec_withPorts (i : Instr) :
    exec i (s.withPorts x a b c) = mapNext (fun t => t.withPorts t.rsp a b c) (exec i s) := by
  cases i with
  | nop => rfl
  | nodeWrite idx data =>
    simp only [exec, execNodeWrite, apply_ite (mapNext _)]
    rfl
  | nodeRead idx =>
    simp only [exec, execNodeRead, apply_ite (mapNext _)]
    rfl
  | treeClear =>
    simp only [exec, execTreeClear, apply_ite (mapNext _)]
    rfl
  | regRead ra => cases ra <;> rfl
  | regWrite ra data =>
    cases ra
    case root =>
      simp only [exec, execRegWrite, apply_ite (mapNext _)]
      rfl
    all_goals rfl
  | start =>
    simp only [exec, execStart, apply_ite (mapNext _)]
    rfl
  | abort => rfl
  | bit bit =>
    simp only [exec, execBit, State.withPorts_mode, walkBit_withPorts]
    cases s.mode <;> rfl
  | endInput =>
    simp only [exec, execEndInput, State.withPorts_mode]
    cases s.mode <;> rfl

/-- No accepted transaction reads the ports. -/
theorem issue_withPorts (k : Command) :
    issue k (s.withPorts x a b c) = mapNext (fun t => t.withPorts t.rsp a b c) (issue k s) := by
  unfold issue
  split
  · exact exec_withPorts s x a b c _
  · rfl

end

/-! ### The ports in one step -/

/-- With no response pending the response side does nothing. -/
theorem State.settle_none {s : State} (h : s.rsp = none) :
    s.settle = { s with rspReady := s.rspReady.tail } := by
  unfold State.settle
  simp [h]

/-- A response the host takes crosses to it. -/
theorem State.settle_take {s : State} {r : Response} (h : s.rsp = some r)
    (hn : s.rspReadyNow = true) :
    s.settle = { s with rsp := none, taken := s.taken ++ [r], rspReady := s.rspReady.tail } := by
  unfold State.settle
  simp [h, hn]

/-- A response the host does not take stays. -/
theorem State.settle_keep {s : State} {r : Response} (h : s.rsp = some r)
    (hn : s.rspReadyNow = false) : s.settle = { s with rspReady := s.rspReady.tail } := by
  unfold State.settle
  simp [h, hn]

/-- With a command next and the port free or freed now, the command is accepted. -/
theorem State.accept_command {s : State} {c : Command} {rest : List HostInput}
    (h : s.inputs = .command c :: rest) (hr : s.rsp = none ∨ s.rspReadyNow = true) :
    s.accept = (s.withPorts none rest s.rspReady.tail (s.taken ++ s.rsp.toList), some c) := by
  unfold State.accept State.cmdReady
  cases hrsp : s.rsp with
  | none => simp [h, State.settle_none hrsp, State.withPorts, hrsp]
  | some r =>
    have : s.rspReadyNow = true := by simpa [hrsp] using hr
    simp [h, this, State.settle_take hrsp this, State.withPorts]

/-- A step with a command next and the port free or freed now. -/
theorem step_command {s : State} {c : Command} {rest : List HostInput}
    (h : s.inputs = .command c :: rest) (hr : s.rsp = none ∨ s.rspReadyNow = true) :
    step s = issue c (s.withPorts none rest s.rspReady.tail (s.taken ++ s.rsp.toList)) := by
  unfold step
  rw [State.accept_command h hr]

/-- A step with nothing at the command port. -/
theorem step_empty {s : State} (h : s.inputs = []) : step s = .next s.settle := by
  unfold step State.accept
  simp [h]

/-- A step at an edge at which the host offers nothing. -/
theorem step_idle {s : State} {rest : List HostInput} (h : s.inputs = .idle :: rest) :
    step s = .next { s.settle with inputs := rest } := by
  unfold step State.accept
  simp [h]

/-- A step with `rst_n` low. -/
theorem step_reset {s : State} {c : Option Command} {rest : List HostInput}
    (h : s.inputs = .reset c :: rest) :
    step s = .next { s with inputs := rest }.applyReset := by
  unfold step State.accept
  simp [h]

/-- A step with a command next and an untaken response the host does not take. -/
theorem step_blocked {s : State} {c : Command} {rest : List HostInput} {r : Response}
    (h : s.inputs = .command c :: rest) (hr : s.rsp = some r)
    (hn : s.rspReadyNow = false) :
    step s = .next { s with rspReady := s.rspReady.tail } := by
  unfold step State.accept State.cmdReady
  simp [h, hr, hn, State.settle_keep hr hn]

/-- The response side leaves what the host will do. -/
@[simp] theorem State.settle_inputs (s : State) : s.settle.inputs = s.inputs := by
  unfold State.settle
  split <;> [rfl; (split <;> rfl)]

/-- Everything a step can do: nothing but the response side (an `idle` edge leaves `inputs`), a
reset, or one command, accepted with the port free or freed now. -/
theorem step_cases {s t : State} (h : step s = .next t) :
    ((∀ c rest, s.inputs ≠ .reset c :: rest) ∧ (s.inputs = t.inputs ∨ s.inputs = .idle :: t.inputs) ∧
      t = { s.settle with inputs := t.inputs }) ∨
    (∃ c rest, s.inputs = .reset c :: rest ∧ t = { s with inputs := rest }.applyReset) ∨
    (∃ c rest, s.inputs = .command c :: rest ∧
      (s.rsp = none ∨ s.rspReadyNow = true) ∧
      issue c (s.withPorts none rest s.rspReady.tail (s.taken ++ s.rsp.toList)) = .next t) := by
  cases hi : s.inputs with
  | nil =>
    rw [step_empty hi] at h
    obtain rfl : s.settle = t := by simpa using h
    exact .inl ⟨by simp, .inl (by simp [hi]), rfl⟩
  | cons f rest =>
    cases f with
    | idle =>
      rw [step_idle hi] at h
      obtain rfl : { s.settle with inputs := rest } = t := by simpa using h
      exact .inl ⟨by simp, .inr rfl, rfl⟩
    | reset c =>
      rw [step_reset hi] at h
      exact .inr (.inl ⟨c, rest, rfl, by simpa using h.symm⟩)
    | command c =>
      by_cases hr : s.rsp = none ∨ s.rspReadyNow = true
      · rw [step_command hi hr] at h
        exact .inr (.inr ⟨c, rest, rfl, hr, h⟩)
      · obtain ⟨r, hrsp⟩ := Option.ne_none_iff_exists'.mp (fun e => hr (.inl e))
        have hn : s.rspReadyNow = false := by simpa using fun e => hr (.inr e)
        rw [step_blocked hi hrsp hn, ← State.settle_keep hrsp hn] at h
        obtain rfl : s.settle = t := by simpa using h
        exact .inl ⟨by simp, .inl (by simp [hi]), rfl⟩

/-! ### A list of commands, the host taking every response at once -/

/-- A list of commands takes `s` to `t` with these responses, one by one. -/
inductive Feeds : State → List Instr → List Response → State → Prop
  | nil (s : State) : Feeds s [] [] s
  | cons {s t u : State} {i : Instr} {is : List Instr} {r : Response} {rs : List Response}
      (h : exec i s = .next t) (hr : t.rsp = some r) (rest : Feeds t is rs u) :
      Feeds s (i :: is) (r :: rs) u

/-- Every list of commands runs through. -/
theorem Feeds.exists (is : List Instr) (s : State) : ∃ rs t, Feeds s is rs t := by
  induction is generalizing s with
  | nil => exact ⟨_, _, .nil s⟩
  | cons i is ih =>
    obtain ⟨t, r, h, hr⟩ := exec_next i s
    obtain ⟨rs, u, hu⟩ := ih t
    exact ⟨_, _, .cons h hr hu⟩

/-- One response for each command. -/
theorem Feeds.length {s t : State} {is : List Instr} {rs : List Response}
    (h : Feeds s is rs t) : rs.length = is.length := by
  induction h with
  | nil => rfl
  | cons _ _ _ ih => simp [ih]

theorem Feeds.append {s t u : State} {is js : List Instr} {rs qs : List Response}
    (h : Feeds s is rs t) (h' : Feeds t js qs u) : Feeds s (is ++ js) (rs ++ qs) u := by
  induction h with
  | nil => exact h'
  | cons he hr _ ih => exact .cons he hr (ih h')

/-- One step of a queue of commands, `rsp_ready` staying high. -/
theorem step_queue {s t : State} {i : Instr} (he : exec i s = .next t)
    (hd : decode (encode i) = .ok i) (pending : Option Response) (rest : List HostInput)
    (taken : List Response) :
    step (s.withPorts pending (.command (encode i) :: rest) [] taken) =
      .next (t.withPorts t.rsp rest [] (taken ++ pending.toList)) := by
  rw [step_command rfl (.inr rfl), issue_of_decode hd, State.withPorts_withPorts, exec_withPorts,
    he]
  rfl

/-- A run of one more step, for any machine behind the host's interface. -/
theorem core_run_succ (M : Host.Core) (k : Nat) (s t : M.State) (h : M.step s = .next t) :
    M.run (k + 1) s = M.run k t := by
  rw [Host.Core.run, h]

/-- A run of one more step. -/
theorem RunsTo.succ {k : Nat} {s t u : State} (h : step s = .next t) (hr : RunsTo k t u) :
    RunsTo (k + 1) s u := (core_run_succ Sys2Proof.core k s t h).trans hr

theorem RunsTo.zero (s : State) : RunsTo 0 s s := rfl

/-- A queue of commands run to its end: every response has crossed to the host, in order. -/
theorem Feeds.run {s t : State} {is : List Instr} {rs : List Response} (hf : Feeds s is rs t)
    (hd : ∀ i ∈ is, decode (encode i) = .ok i) (pending : Option Response)
    (taken : List Response) :
    RunsTo (is.length + 1)
      (s.withPorts pending (is.map (fun i => .command (encode i))) [] taken)
      (t.withPorts none [] [] (taken ++ pending.toList ++ rs)) := by
  induction hf generalizing pending taken with
  | nil s =>
    have : step (s.withPorts pending [] [] taken) =
        .next (s.withPorts none [] [] (taken ++ pending.toList)) := by
      rw [step_empty rfl]
      cases pending
      · rw [State.settle_none rfl]
        simp [State.withPorts]
      · rw [State.settle_take rfl rfl]
        simp [State.withPorts]
    simpa using RunsTo.succ this (.zero _)
  | @cons s t u i is r rs he hr hrest ih =>
    have hi := step_queue he (hd i (by simp)) pending
      (is.map (fun i => .command (encode i))) taken
    have := ih (fun j hj => hd j (List.mem_cons_of_mem _ hj)) (some r) (taken ++ pending.toList)
    rw [← hr] at this
    simpa [hr] using RunsTo.succ hi this

/-- `Feeds.run` from a state whose ports are clear. -/
theorem Feeds.runsTo {s t : State} {is : List Instr} {rs : List Response} (hf : Feeds s is rs t)
    (hp : s.PortsClear) (hd : ∀ i ∈ is, decode (encode i) = .ok i) :
    RunsTo (is.length + 1) (s.offer is) (t.withPorts none [] [] (s.taken ++ rs)) := by
  have := hf.run hd none s.taken
  have he : s.withPorts none (is.map (fun i => .command (encode i))) [] s.taken = s.offer is := by
    obtain ⟨h1, h2⟩ := hp
    cases s
    simp_all [State.withPorts, State.offer]
  rw [he] at this
  simpa using this

end Sys2Proof.Machine
end

