-- ==== Sys2Proof/Laws/Load.lean ====
section
/-! SUPPORT. Loading a tree memory entry by entry with NODE_WRITE (30_encoding.md R88, 40_tree_load.md
R101). -/

namespace Sys2Proof.Machine

open Sys2Proof.Codec

/-- NODE_WRITE of a legal word inside the memory, outside RUN. -/
theorem execNodeWrite_legal {s : State} (hm : s.mode ≠ .run) {i : Nat} {w : NodeWord}
    (hi : i < s.nodeCount) (h10 : i < 1024) (hl : NodeWord.legal s.nodeCount w = true) :
    exec (.nodeWrite (nodeIdx i) (0#1 ++ w)) s =
      .next ({ s with tree := s.tree.write i w }.respond .ok) := by
  have hn : ¬ s.nodeCount ≤ i := by omega
  have hx : (0#1 ++ w : BitVec (1 + 31)).extractLsb' 0 31 = w := extract_append_low _ _
  simp [exec, execNodeWrite, hm, nodeIdx_toNat h10, hn, hl, State.memWrite, hx]

/-- Writing a list of legal entries runs without a fault and leaves each in the tree memory. -/
theorem feeds_writeNodes (m : Memory) {s : State} (hm : s.mode ≠ .run)
    (he : ∀ e ∈ m, e.1 < s.nodeCount ∧ e.1 < 1024 ∧ NodeWord.legal s.nodeCount e.2 = true) :
    ∃ rs r, Feeds s (Pseudo.writeNodes m) rs
        { s with tree := m.foldl (fun k e => k.write e.1 e.2) s.tree, rsp := r } ∧
      ∀ q ∈ rs, q = Response.ok := by
  induction m generalizing s with
  | nil => exact ⟨[], s.rsp, .nil s, by simp⟩
  | cons e m ih =>
    obtain ⟨h1, h2, h3⟩ := he e (by simp)
    obtain ⟨rs, r, hf, hr⟩ :=
      ih (s := { s with tree := s.tree.write e.1 e.2 }.respond .ok) hm
        (fun f hf => he f (List.mem_cons_of_mem _ hf))
    exact ⟨_, r, .cons (execNodeWrite_legal hm h1 h2 h3) rfl hf, by simpa using hr⟩

/-- Writing the entries of a canonical memory into an empty one gives it. -/
theorem writes_of_wf {m : Memory} (h : m.wf) :
    m.foldl (fun k e => Memory.write k e.1 e.2) [] = m := by
  have hn : (m.map (·.1)).Nodup := by
    rw [List.Nodup, List.pairwise_map]
    exact h.imp fun hlt => by omega
  refine Memory.eq_of_lookup (wf_writes _ Memory.wf_nil) h fun i => Option.ext fun w => ?_
  rw [lookup_writes hn, ← Memory.lookup_eq_some_iff h]
  simp

end Sys2Proof.Machine
end

