-- ==== Sys2Proof/Laws/PerInstr.lean ====
section
/-! SUPPORT. Facts of every instruction as syntax, one lemma per constructor. Family OpcodeField:
the command word of an instruction carries its opcode in CMD[31:28] and its operand in CMD[27:0]
(30_encoding.md R71). -/

namespace Sys2Proof

/-- CMD[31:28] of a word put together from an opcode and operand bits. -/
theorem opField_append (op : BitVec 4) (x : BitVec 28) : opField (op ++ x) = op := by
  apply BitVec.eq_of_toNat_eq
  have := x.isLt
  simp only [opField, BitVec.extractLsb'_toNat, BitVec.toNat_append, Nat.shiftLeft_eq,
    Nat.shiftRight_eq_div_pow]
  rw [← Nat.shiftLeft_eq, ← Nat.shiftLeft_add_eq_or_of_lt this, Nat.shiftLeft_eq]
  have := op.isLt
  omega

namespace Laws.OpcodeField

/-- The opcode field of the instruction's command word is its opcode. -/
def Statement (i : Instr) : Prop := opField (encode i).cmd = i.opcode

theorem nop : Statement .nop := opField_append _ _

theorem nodeWrite (idx : NodeIdx) (data : Word) : Statement (.nodeWrite idx data) :=
  opField_append _ _

theorem nodeRead (idx : NodeIdx) : Statement (.nodeRead idx) := opField_append _ _

theorem treeClear : Statement .treeClear := opField_append _ _

theorem regRead (ra : RegName) : Statement (.regRead ra) := opField_append _ _

theorem regWrite (ra : RegName) (data : Word) : Statement (.regWrite ra data) :=
  opField_append _ _

theorem start : Statement .start := opField_append _ _

theorem abort : Statement .abort := opField_append _ _

theorem bit (b : Bool) : Statement (.bit b) := opField_append _ _

theorem endInput : Statement .endInput := opField_append _ _

end Laws.OpcodeField

end Sys2Proof
end

