-- ==== Sys2Proof/Laws/Walk.lean ====
section
/-! SUPPORT. The pure decode function over a tree memory that holds a reference tree: a code word
walks to its leaf, and the encoder's bits give back the bytes (42_bitstream.md R149,
45_reference_codec.md R180, R182). -/

namespace Sys2Proof.Codec

open Sys2Proof.Machine

/-- The tree memory holds every node of the tree at its number. -/
def RefNode.In (r : RefNode) (m : Memory) : Prop :=
  ∀ e ∈ r.entries, e.1 < 1024 ∧ m.lookup e.1 = some e.2

theorem RefNode.In.read {r : RefNode} {m : Memory} (h : r.In m) :
    m.read (nodeIdx r.idx) = (true, r.word) := by
  obtain ⟨hi, hl⟩ := h _ r.idx_mem_entries
  exact Memory.read_of_lookup (by rw [nodeIdx_toNat hi]; exact hl)

theorem RefNode.In.wrap {c i : Nat} {z : RefNode} {m : Memory} (h : (RefNode.wrap c i z).In m) :
    z.In m := fun e he => h e (by simp [entries, he])

theorem RefNode.In.zero {c i : Nat} {z o : RefNode} {m : Memory}
    (h : (RefNode.inner c i z o).In m) : z.In m := fun e he => h e (by simp [entries, he])

theorem RefNode.In.one {c i : Nat} {z o : RefNode} {m : Memory}
    (h : (RefNode.inner c i z o).In m) : o.In m := fun e he => h e (by simp [entries, he])

/-- The canonical layout holds its tree. -/
theorem RefNode.in_layout {T : RefNode} (hn : T.idxs.Nodup) (hb : ∀ i ∈ T.idxs, i < 1024) :
    T.In (layout T) := fun e he =>
  ⟨hb _ (List.mem_map_of_mem (f := (·.1)) he), (lookup_layout hn e.1 e.2).mpr he⟩

/-- The children of a node with the bits that select them. -/
inductive RefNode.Child : RefNode → Bool → RefNode → Prop
  | wrap (c i : Nat) (z : RefNode) : Child (.wrap c i z) false z
  | zero (c i : Nat) (z o : RefNode) : Child (.inner c i z o) false z
  | one (c i : Nat) (z o : RefNode) : Child (.inner c i z o) true o

theorem RefNode.Child.branch {r k : RefNode} {b : Bool} (h : r.Child b k) :
    NodeWord.branch r.word b = (true, nodeIdx k.idx) := by
  cases h <;> simp [RefNode.word]

theorem RefNode.Child.in {r k : RefNode} {b : Bool} (h : r.Child b k) {m : Memory} (hr : r.In m) :
    k.In m := by
  cases h
  · exact hr.wrap
  · exact hr.zero
  · exact hr.one

theorem RefNode.sym_word_of_isLeafNode {r : RefNode} (h : r.isLeafNode = false) :
    NodeWord.sym r.word = Config.nas := by
  cases r with
  | leaf => simp [isLeafNode] at h
  | wrap => simp [word]
  | inner => simp [word]

/-- A path that is not empty begins with the bit of a child, and goes on in the child. -/
theorem RefNode.path_child {r : RefNode} (hr : r.isLeafNode = false) {s : Sym} {p : List Bool}
    (hp : (s, p) ∈ r.paths) : ∃ b k q, p = b :: q ∧ r.Child b k ∧ (s, q) ∈ k.paths := by
  cases r with
  | leaf => simp [isLeafNode] at hr
  | wrap c i z =>
    obtain ⟨⟨s', q⟩, hq, he⟩ := List.mem_map.mp hp
    cases he
    exact ⟨false, z, q, rfl, .wrap c i z, hq⟩
  | inner c i z o =>
    rcases List.mem_append.mp hp with hp | hp <;> obtain ⟨⟨s', q⟩, hq, he⟩ := List.mem_map.mp hp <;>
      cases he
    · exact ⟨false, z, q, rfl, .zero c i z o, hq⟩
    · exact ⟨true, o, q, rfl, .one c i z o, hq⟩

theorem RefNode.path_leaf {r : RefNode} (hr : r.isLeafNode = true) {s : Sym} {p : List Bool}
    (hp : (s, p) ∈ r.paths) : p = [] ∧ r.word = leafWord s.code := by
  cases r with
  | leaf s' c i =>
    simp only [paths, List.mem_singleton, Prod.mk.injEq] at hp
    simp [hp.1, hp.2, word]
  | wrap => simp [isLeafNode] at hr
  | inner => simp [isLeafNode] at hr

/-- A path walks to its leaf: EOS ends the walk there, and a byte is delivered and the walk goes on
from the root. -/
theorem walk_path {n : Nat} {m : Memory} {root : NodeIdx} {ended : Bool} {s : Sym}
    (p : List Bool) (r : RefNode) (hr : r.isLeafNode = false) (hin : r.In m)
    (hp : (s, p) ∈ r.paths) (d : Nat) (hd : d + p.length < n) (rest : List Bool)
    (out : List Byte) (bc : Nat) :
    ∃ k : NodeIdx, m.read k = (true, leafWord s.code) ∧
      walk n m root ended (nodeIdx r.idx) d (p ++ rest) out bc =
        match (generalizing := false) s with
        | .eos => ⟨out, .done, k, d + p.length, bc + p.length⟩
        | .byte b => walk n m root ended root 0 rest (out ++ [b]) (bc + p.length) := by
  induction p generalizing r d bc with
  | nil =>
    obtain ⟨b, k, q, hq, -⟩ := RefNode.path_child hr hp
    simp at hq
  | cons b p ih =>
    obtain ⟨b', k, q, hq, hc, hk⟩ := RefNode.path_child hr hp
    cases hq
    have hkin := hc.in hin
    simp only [List.length_cons] at hd
    have hnd : ¬ n ≤ d + 1 := by omega
    cases hl : k.isLeafNode with
    | true =>
      obtain ⟨rfl, hw⟩ := RefNode.path_leaf hl hk
      refine ⟨nodeIdx k.idx, by rw [hkin.read, hw], ?_⟩
      rw [List.cons_append, walk]
      simp only [hin.read, hc.branch, hkin.read, hw, sym_leafWord]
      cases s with
      | eos => simp [Sym.code, hnd]
      | byte b =>
        have hb : Sym.code (.byte b) ≠ Config.eos := fun h => by
          have h' : (Sym.code (.byte b)).toNat = (Sym.code .eos).toNat := by rw [h]; rfl
          simpa using Sym.code_inj h'
        have hx : (Sym.code (.byte b)).extractLsb' 0 8 = b := by
          apply BitVec.eq_of_toNat_eq
          have := b.isLt
          simp [Sym.code]
          omega
        have hle : (Sym.code (.byte b)).toNat ≤ 255 := by
          rw [Sym.code_byte]
          have := b.isLt
          omega
        simp [hnd, hb, hle, hx]
    | false =>
      obtain ⟨j, hj, hwalk⟩ := ih k hl hkin hk (d + 1) (by omega) (bc + 1)
      refine ⟨j, hj, ?_⟩
      rw [List.cons_append, walk]
      have hs := RefNode.sym_word_of_isLeafNode hl
      simp only [hin.read, hc.branch, hkin.read, hs]
      have h1 : Config.nas ≠ Config.eos := by decide
      have h2 : ¬ Config.nas.toNat ≤ 255 := by decide
      simp only [h1, h2, hnd, if_false, hwalk, List.length_cons]
      cases s <;> simp [Nat.add_comm, Nat.add_left_comm]

/-- Decoding the encoder's bits, with any padding after them, gives the bytes back and ends in
DONE at the EOS leaf (R182, R184, R186). -/
theorem walk_encoded {n : Nat} {m : Memory} {T : RefNode} {ended : Bool}
    (hT : T.isLeafNode = false) (hin : T.In m) (hs : T.leafSyms.Nodup) (hh : T.height < n)
    {S : List Byte} {bits : List Bool} (he : encodeBytes S T.paths = some bits)
    (pad : List Bool) (out : List Byte) (bc : Nat) :
    ∃ k w, m.read k = (true, leafWord Config.eos) ∧ T.paths.lookup .eos = some w ∧
      walk n m (nodeIdx T.idx) ended (nodeIdx T.idx) 0 (bits ++ pad) out bc =
        ⟨out ++ S, .done, k, w.length, bc + bits.length⟩ := by
  have hnd : (T.paths.map (·.1)).Nodup := by rw [RefNode.paths_syms]; exact hs
  have hlen : ∀ {s : Sym} {w : List Bool}, (s, w) ∈ T.paths → 0 + w.length < n := fun hw => by
    have := RefNode.path_length_le hw
    simp only at this
    omega
  induction S generalizing bits out bc with
  | nil =>
    have hw := (lookup_eq_some_iff hnd .eos bits).mp he
    obtain ⟨k, hk, hwalk⟩ := walk_path (root := nodeIdx T.idx) (ended := ended) bits T hT hin hw 0
      (hlen hw) pad out bc
    exact ⟨k, bits, hk, he, by rw [hwalk]; simp⟩
  | cons b S ih =>
    rw [encodeBytes] at he
    cases hb : T.paths.lookup (.byte b) with
    | none => simp [hb] at he
    | some w =>
      cases hr : encodeBytes S T.paths with
      | none => simp [hb, hr] at he
      | some rest =>
        simp only [hb, hr, Option.some.injEq] at he
        subst he
        have hw := (lookup_eq_some_iff hnd (.byte b) w).mp hb
        obtain ⟨_, -, hwalk⟩ := walk_path (root := nodeIdx T.idx) (ended := ended) w T hT hin hw 0
          (hlen hw) (rest ++ pad) out bc
        obtain ⟨k, v, hk, hv, hrest⟩ := ih hr (out ++ [b]) (bc + w.length)
        refine ⟨k, v, hk, hv, ?_⟩
        rw [List.append_assoc, hwalk]
        simp only [hrest]
        simp [Nat.add_assoc]

end Sys2Proof.Codec
end

