-- ==== Sys2Proof/Machine/Assembler.lean ====
section
/-! DEFINITION. The assembler syntax (30_encoding.md R87) with the pseudo-commands of R88 that a
line can write: text to command transactions. What R87 leaves open is notes/assumptions/14.md. -/

namespace Sys2Proof.Asm

open Sys2Proof.Machine Sys2Proof.Codec

/-- A blank between the parts of a line. -/
def isBlank (c : Char) : Bool := c == ' ' || c == '\t' || c == '\r'

/-- A text without the blanks at its two ends. -/
def trim (cs : List Char) : List Char :=
  ((cs.dropWhile isBlank).reverse.dropWhile isBlank).reverse

/-- A text cut at every `sep`. -/
def splitAt (sep : Char) : List Char → List (List Char)
  | [] => [[]]
  | c :: cs =>
    match splitAt sep cs with
    | [] => [[c]]
    | p :: ps => if c = sep then [] :: p :: ps else (c :: p) :: ps

/-- The value of a digit, hexadecimal ones in either letter case. -/
def digit (c : Char) : Option Nat :=
  if '0' ≤ c ∧ c ≤ '9' then some (c.toNat - 48)
  else if 'a' ≤ c ∧ c ≤ 'f' then some (c.toNat - 87)
  else if 'A' ≤ c ∧ c ≤ 'F' then some (c.toNat - 55)
  else none

/-- The value of some digits in a base, from the value `acc` of the digits before them. -/
def digits (base : Nat) : Nat → List Char → Option Nat
  | acc, [] => some acc
  | acc, c :: cs =>
    match digit c with
    | some d => if d < base then digits base (acc * base + d) cs else none
    | none => none

/-- A number: decimal, `0x` hexadecimal or `0b` binary (R87). -/
def number : List Char → Option Nat
  | [] => none
  | '0' :: 'x' :: c :: cs => digits 16 0 (c :: cs)
  | '0' :: 'b' :: c :: cs => digits 2 0 (c :: cs)
  | c :: cs => digits 10 0 (c :: cs)

/-- A number that fits in `w` bits. -/
def field (w : Nat) (cs : List Char) : Option (BitVec w) :=
  (number cs).bind (fun n => if n < 2 ^ w then some (BitVec.ofNat w n) else none)

/-- The register names (R87). -/
def regNames : List (String × RegName) :=
  [("PARAM", .param), ("CTRL", .ctrl), ("ROOT", .root), ("STATUS", .status), ("CUR", .cur),
   ("DEPTH", .depth), ("BITCNT", .bitcnt), ("OUTCNT", .outcnt), ("FINFO", .finfo)]

/-- `REG`: a number 0..15 or one of the names (R87). -/
def register (cs : List Char) : Option RegName :=
  match regNames.find? (fun e => e.1.toList == cs) with
  | some e => some e.2
  | none => (field 4 cs).map RegName.ofCode

/-- `B`: `0` or `1` (R87). -/
def bitOperand (cs : List Char) : Option Bool :=
  if cs = ['0'] then some false else if cs = ['1'] then some true else none

/-- The bits of a character string. -/
def bitChars : List Char → Option (List Bool)
  | [] => some []
  | c :: cs =>
    match bitOperand [c], bitChars cs with
    | some b, some bs => some (b :: bs)
    | _, _ => none

/-- `"s"`: a quoted bit string (R88). -/
def bitString : List Char → Option (List Bool)
  | '"' :: cs => if cs.getLast? = some '"' then bitChars cs.dropLast else none
  | _ => none

/-- The symbol operand of LEAF: 0..256, `'a'` or `EOS` (R88). R88 gives a quoted character "its
byte value" and no text encoding: the model takes the character's code point, and a character
above U+00FF names no byte (DESIGN CHOICE, notes/assumptions/14.md). -/
def symbol (cs : List Char) : Option Sym :=
  match cs with
  | ['\'', c, '\''] => if c.toNat < 256 then some (.byte (BitVec.ofNat 8 c.toNat)) else none
  | _ =>
    if cs = "EOS".toList then some .eos
    else (number cs).bind (fun n =>
      if n < 256 then some (.byte (BitVec.ofNat 8 n)) else if n = 256 then some .eos else none)

/-- A child operand of INNER: an index, or `-` for an absent child (R88). -/
def child (cs : List Char) : Option (Option NodeIdx) :=
  if cs = ['-'] then some none else (field 10 cs).map some

/-- INNER with at least one child present, the forms R88 has. -/
def innerLine (i z o : List Char) : Option (List Instr) :=
  match field 10 i, child z, child o with
  | some _, some none, some none => none
  | some i, some z, some o => some (Pseudo.inner i z o)
  | _, _, _ => none

/-- The instructions of a mnemonic with its operands (R87, R88). -/
def instrs (mnemonic : String) (ops : List (List Char)) : Option (List Instr) :=
  match mnemonic, ops with
  | "NOP", [] => some [.nop]
  | "TREE_CLEAR", [] => some [.treeClear]
  | "START", [] => some [.start]
  | "ABORT", [] => some [.abort]
  | "END", [] => some [.endInput]
  | "NODE_WRITE", [i, d] =>
    (field 10 i).bind (fun i => (field 32 d).map (fun d => [.nodeWrite i d]))
  | "NODE_READ", [i] => (field 10 i).map (fun i => [.nodeRead i])
  | "REG_READ", [r] => (register r).map (fun r => [.regRead r])
  | "REG_WRITE", [r, d] =>
    (register r).bind (fun r => (field 32 d).map (fun d => [.regWrite r d]))
  | "BIT", [b] => (bitOperand b).map (fun b => [.bit b])
  | "BIT0", [] => some Pseudo.bit0
  | "BIT1", [] => some Pseudo.bit1
  | "BITS", [s] => (bitString s).map Pseudo.bits
  | "DECODE", [s] => (bitString s).map Pseudo.decode
  | "SET_ROOT", [n] => (field 32 n).map Pseudo.setRoot
  | "SET_IRQ", [m] => (field 32 m).map Pseudo.setIrq
  | "LEAF", [i, s] => (field 10 i).bind (fun i => (symbol s).map (Pseudo.leaf i))
  | "INNER", [i, z, o] => innerLine i z o
  | _, _ => none

/-- One line: a mnemonic, then its operands separated by commas; `;` starts a comment (R87). A
line with nothing but blanks and a comment has no command. -/
def line (cs : List Char) : Option (List Instr) :=
  let cs := trim (cs.takeWhile (· != ';'))
  if cs = [] then some []
  else
    let mnemonic := cs.takeWhile (fun c => !isBlank c)
    let rest := trim (cs.drop mnemonic.length)
    instrs (String.ofList mnemonic) (if rest = [] then [] else (splitAt ',' rest).map trim)

/-- The instructions of some lines, in order. -/
def linesInstrs : List (List Char) → Option (List Instr)
  | [] => some []
  | l :: ls =>
    match line l, linesInstrs ls with
    | some is, some rest => some (is ++ rest)
    | _, _ => none

/-- The command transactions a program text assembles to, none where a line is not of the syntax:
DATA in WDATA, and WDATA = 0 for a command without a DATA operand (R87). -/
def assemble (text : String) : Option (List Command) :=
  (linesInstrs (splitAt '\n' text.toList)).map (fun is => is.map encode)

end Sys2Proof.Asm
end

