-- ==== Sys2Proof/Tests/Slice0.lean ====
section
/-! SUPPORT. The model's own tests: words written out from 30_encoding.md, vectors of
95_test_vectors.md (each named beside its theorem), and one witness for the hypotheses of each
statement. -/

namespace Sys2Proof.Tests

open Sys2Proof.Machine Sys2Proof.Codec

/-! ### Well-formedness: an ill-formed term for the one check -/

theorem test_wellFormed_refuses_reserved_below_9 :
    (Instr.regRead (.reserved 0x3#4)).wellFormed = false ∧
    (Instr.regWrite (.reserved 0x8#4) 0#32).wellFormed = false ∧
    (Instr.regRead (.reserved 0x9#4)).wellFormed = true := by decide

/-! ### Decoding: every constructor by a word written out from R71 and R73 -/

theorem test_decode_format_Z :
    decode ⟨0b00000000000000000000000000000000#32, 5#32⟩ = .ok .nop ∧
    decode ⟨0b00110000000000000000000000000000#32, 5#32⟩ = .ok .treeClear ∧
    decode ⟨0b01100000000000000000000000000000#32, 5#32⟩ = .ok .start ∧
    decode ⟨0b01110000000000000000000000000000#32, 5#32⟩ = .ok .abort ∧
    decode ⟨0b10010000000000000000000000000000#32, 5#32⟩ = .ok .endInput := by decide

theorem test_decode_format_N :
    decode ⟨0b00010000000000000000001000000110#32, 0x61#32⟩ = .ok (.nodeWrite 0x206#10 0x61#32) ∧
    decode ⟨0b00100000000000000000001111111111#32, 0x61#32⟩ = .ok (.nodeRead 0x3FF#10) := by
  decide

theorem test_decode_format_R :
    decode ⟨0b01000000000000000000000000001000#32, 0#32⟩ = .ok (.regRead .finfo) ∧
    decode ⟨0b01000000000000000000000000001001#32, 0#32⟩ = .ok (.regRead (.reserved 9#4)) ∧
    decode ⟨0b01010000000000000000000000000010#32, 6#32⟩ = .ok (.regWrite .root 6#32) := by decide

theorem test_decode_format_B :
    decode ⟨0b10000000000000000000000000000000#32, 0#32⟩ = .ok (.bit false) ∧
    decode ⟨0b10000000000000000000000000000001#32, 0#32⟩ = .ok (.bit true) := by decide

/-- V-ENC-9 to V-ENC-13. -/
theorem test_decode_refuses :
    decode ⟨0xA0000000#32, 0#32⟩ = .error (.reservedOpcode 0xA#4) ∧
    decode ⟨0x00000001#32, 0#32⟩ = .error (.reservedBits 0x0#4) ∧
    decode ⟨0x10000400#32, 0x61#32⟩ = .error (.reservedBits 0x1#4) ∧
    decode ⟨0x40000010#32, 0#32⟩ = .error (.reservedBits 0x4#4) ∧
    decode ⟨0x80000002#32, 0#32⟩ = .error (.reservedBits 0x8#4) := by decide

theorem test_decodeTableWord_wdata_is_the_second_word :
    decodeTableWord 32 0x10000006 = some (.nodeWrite 6#10 0#32) ∧
    decodeTableWord 64 0x00A0070110000006 = some (.nodeWrite 6#10 0x00A00701#32) := by decide

/-! ### Node words (V-NODE-1 to V-NODE-15, NODE_COUNT = 513) -/

theorem test_legalNode_legal :
    legalNode 513 0x00000061#32 ∧ legalNode 513 0x000000FF#32 ∧ legalNode 513 0x00000100#32 ∧
    legalNode 513 0x00000301#32 ∧ legalNode 513 0x00000501#32 ∧ legalNode 513 0x00100301#32 ∧
    legalNode 1024 0x7FE00501#32 := by decide

theorem test_legalNode_illegal :
    ¬ legalNode 513 0x00100B01#32 ∧ ¬ legalNode 513 0x80000061#32 ∧
    ¬ legalNode 513 0x00000102#32 ∧ ¬ legalNode 513 0x00000161#32 ∧
    ¬ legalNode 513 0x00000101#32 ∧ ¬ legalNode 513 0x00002A01#32 ∧
    ¬ legalNode 513 0x00600401#32 ∧ ¬ legalNode 513 0x7FE00301#32 ∧
    ¬ legalNode 513 0x00000261#32 := by decide

/-- V-ENC-4 to V-ENC-7. -/
theorem test_pseudo_node_words :
    Pseudo.inner 4#10 (some 2#10) (some 3#10) = [.nodeWrite 4#10 0x00601701#32] ∧
    Pseudo.inner 1#10 (some 0#10) none = [.nodeWrite 1#10 0x00000301#32] ∧
    Pseudo.inner 1#10 none (some 0#10) = [.nodeWrite 1#10 0x00000501#32] ∧
    Pseudo.leaf 3#10 .eos = [.nodeWrite 3#10 0x00000100#32] := by decide

/-! ### Small states -/

/-- Tree T1 of 95_test_vectors.md section 1.3. -/
def t1Tree : Memory :=
  [(0, 0x61#31), (1, 0x62#31), (2, 0x63#31), (3, 0x100#31), (4, 0x00601701#31),
   (5, 0x00800F01#31), (6, 0x00A00701#31)]

/-- T1 loaded, ROOT = 6, IDLE. -/
def t1Loaded : State := { State.reset with tree := t1Tree, root := 6#10 }

/-- "T1 RUN@6". -/
def t1Run : State := { t1Loaded with mode := .run, cur := 6#10 }

/-- T2 loaded and started: "T2 RUN@1". -/
def t2Run : State :=
  { State.reset with tree := [(0, 0x100#31), (1, 0x301#31)], root := 1#10, mode := .run,
                     cur := 1#10 }

/-- V-BIT-11 before its BIT: entry 1 unwritten. -/
def holeRun : State :=
  { State.reset with tree := [(0, 0x61#31), (2, 0x00200701#31)], root := 2#10, mode := .run,
                     cur := 2#10 }

/-- V-BIT-13 before its last BIT: NODE_COUNT = 513, a self-loop, DEPTH = 512. -/
def loopRun : State :=
  { State.powerOn 513 with tree := [(0, 0x301#31)], mode := .run, depth := 512#11,
                           bitcnt := 512#32 }

/-- A FAULT episode with CAUSE = ABSENT_CHILD (V-CT-18). -/
def faulted : State :=
  { t2Run with mode := .fault, sticky := true, cause := .absentChild,
               finfo := ⟨1#10, true, 8#4⟩ }

/-- What one command leaves of a state, by a view. -/
def seen {α : Type} (i : Instr) (s : State) (f : State → α) : Option α :=
  match exec i s with
  | .next t => some (f t)
  | .fault _ => none
  | .refused _ => none

/-- The STATUS and FINFO words. -/
def record (s : State) : Option Word × Option Word := (s.regVal .status, s.regVal .finfo)

/-! ### Commands, one step each -/

/-- V-CT-1. -/
theorem test_nop : seen .nop t1Run (fun t => (t.rsp, t.mode, t.cur)) =
    some (some ⟨0#32, false, 0#8, false⟩, .run, 6#10) := by decide

/-- V-LD-1. -/
theorem test_nodeWrite_stores : seen (.nodeWrite 4#10 0x00601701#32) State.reset
    (fun t => (t.rsp, t.tree)) = some (some .ok, [(4, 0x00601701#31)]) := by decide

/-- V-LD-7: TREE_BUSY wins over BAD_INDEX. -/
theorem test_nodeWrite_busy_first : seen (.nodeWrite 600#10 0x61#32)
    { t1Run with nodeCount := 513 } record = some (some 0x2C#32, some 0x1258#32) := by decide

/-- V-LD-9, V-LD-3. -/
theorem test_nodeRead : seen (.nodeRead 6#10) t1Run (fun t => t.rsp) =
      some (some (.data 0x80A00701#32)) ∧
    seen (.nodeRead 4#10) State.reset (fun t => t.rsp) = some (some (.data 0#32)) := by decide

/-- V-LD-6. -/
theorem test_nodeRead_outside : seen (.nodeRead 600#10) (State.powerOn 513) record =
    some (some 0x4C#32, some 0x2258#32) := by decide

/-- V-LD-10. -/
theorem test_treeClear : seen .treeClear { t1Loaded with mode := .done, cur := 3#10 }
    (fun t => (t.tree, t.mode, t.cur)) = some ([], .done, 3#10) := by decide

/-- V-LD-8. -/
theorem test_treeClear_busy : seen .treeClear t1Run (fun t => (record t, t.tree)) =
    some ((some 0x2C#32, some 0x3000#32), t1Tree) := by decide

/-- V-CT-2, V-CT-3, V-EX-7. -/
theorem test_regRead :
    seen (.regRead .param) State.reset (fun t => t.rsp) = some (some (.data 0x01000400#32)) ∧
    seen (.regRead .param) (State.powerOn 513) (fun t => t.rsp) =
      some (some (.data 0x01000201#32)) ∧
    seen (.regRead .status) { faulted with ctrl := 4#3 } (fun t => t.rsp) =
      some (some (.data 0x17C#32)) := by decide

/-- V-CT-5. -/
theorem test_regRead_reserved : seen (.regRead (.reserved 9#4)) State.reset
    (fun t => (record t, t.rsp)) = some ((some 0x1C#32, some 0x4000#32), some .error) := by decide

/-- V-CT-7, V-CT-8. -/
theorem test_regWrite :
    seen (.regWrite .ctrl 0xFFFFFFFF#32) State.reset (fun t => t.regVal .ctrl) =
      some (some 7#32) ∧
    seen (.regWrite .root 0xFFFFFFFF#32) State.reset (fun t => t.regVal .root) =
      some (some 1023#32) := by decide

/-- V-CT-9, V-CT-6. -/
theorem test_regWrite_faults :
    seen (.regWrite .root 3#32) t1Run (fun t => (record t, t.root)) =
      some ((some 0x2C#32, some 0x5006#32), 6#10) ∧
    seen (.regWrite .param 5#32) State.reset record = some (some 0x1C#32, some 0x5000#32) := by
  decide

/-- V-CT-15: restart. -/
theorem test_start : seen .start { t1Run with cur := 5#10, depth := 1#11, bitcnt := 1#32 }
    (fun t => (t.mode, t.cur, t.depth, t.bitcnt)) = some (.run, 6#10, 0#11, 0#32) := by decide

/-- V-CT-12. -/
theorem test_start_leaf_root : seen .start { State.reset with tree := [(0, 0x61#31)] } record =
    some (some 0x6C#32, some 0x6000#32) := by decide

/-- V-CT-18. -/
theorem test_abort : seen .abort faulted record = some (some 0x8#32, some 0#32) := by decide

/-- V-BIT-1 rows 4 and 1: an internal node, then a byte leaf. -/
theorem test_bit :
    seen (.bit true) t1Run (fun t => (t.rsp, t.cur, t.depth, t.bitcnt)) =
      some (some .ok, 5#10, 1#11, 1#32) ∧
    seen (.bit false) t1Run (fun t => (t.rsp, t.cur, t.depth, t.outcnt)) =
      some (some (.byte 0x61#8), 6#10, 0#11, 1#32) := by decide

/-- V-BIT-7, V-BIT-11, V-BIT-13, V-BIT-2. -/
theorem test_bit_faults :
    seen (.bit true) t2Run (fun t => (record t, t.cur, t.bitcnt)) =
      some ((some 0x7C#32, some 0x8401#32), 1#10, 0#32) ∧
    seen (.bit true) holeRun record = some (some 0x8C#32, some 0x8401#32) ∧
    seen (.bit false) loopRun (fun t => (record t, t.depth)) =
      some ((some 0x9C#32, some 0x8000#32), 512#11) ∧
    seen (.bit true) State.reset record = some (some 0x3C#32, some 0x8400#32) := by decide

/-- V-BIT-15, V-BIT-17. -/
theorem test_endInput :
    seen .endInput { t1Run with cur := 5#10, depth := 1#11 } (fun t => (t.mode, t.cur, t.rsp)) =
      some (.malformed, 5#10, some .ok) ∧
    seen .endInput { t1Run with mode := .done } (fun t => (t.mode, t.rsp)) =
      some (.done, some .ok) := by decide

/-- V-BIT-16. -/
theorem test_endInput_idle : seen .endInput State.reset record =
    some (some 0x3C#32, some 0x9000#32) := by decide

/-- What one step leaves of a state, by a view. -/
def stepSeen {α : Type} (s : State) (f : State → α) : Option α :=
  match step s with
  | .next t => some (f t)
  | .fault _ => none
  | .refused _ => none

/-- V-ENC-13: an illegal word raises ILLEGAL_CMD where a legal BIT is discarded. -/
theorem test_step_illegal_word :
    stepSeen { t1Run with mode := .done, inputs := [.command ⟨0x80000002#32, 0#32⟩] } record =
      some (some 0x1C#32, some 0x8000#32) := by decide

theorem test_withFetchWord_runs_next :
    stepSeen (State.reset.withFetchWord 64 0x0060170110000004) (fun t => (t.tree, t.inputs)) =
      some ([(4, 0x00601701#31)], []) := by decide

/-- R231: a coinciding command and the untaken response are discarded. -/
theorem test_step_reset :
    stepSeen { faulted with ctrl := 7#3, rsp := some .error,
                            inputs := [.reset (some ⟨0x60000000#32, 0#32⟩)] }
      (fun t => (record t, t.rsp, t.taken, t.inputs)) =
      some ((some 0#32, some 0#32), none, [], []) := by decide

/-- R86, R231: an `idle` edge lets the untaken response cross before a reset that comes later. -/
theorem test_step_idle :
    stepSeen { faulted with rsp := some .error, inputs := [.idle, .reset none] }
      (fun t => (record t, t.rsp, t.taken, t.inputs)) =
      some ((some 0x7C#32, some 0x8401#32), none, [.error], [.reset none]) := by decide

/-- R235: with `rsp_ready` low the command waits; with it high the response crosses first. -/
theorem test_step_back_pressure :
    stepSeen { t1Run with rsp := some (.byte 0x61#8), rspReady := [false],
                          inputs := [.command ⟨0x80000000#32, 0#32⟩] }
      (fun t => (t.rsp, t.bitcnt)) = some (some (.byte 0x61#8), 0#32) ∧
    stepSeen { t1Run with rsp := some .ok, inputs := [.command ⟨0x80000000#32, 0#32⟩] }
      (fun t => (t.rsp, t.taken)) = some (some (.byte 0x61#8), [.ok]) := by decide

/-! ### The reference codec (95_test_vectors.md section 1.3) -/

/-- The canonical layout and the root of an input's tree. -/
def placed (S : List Byte) : Option (Memory × Nat) :=
  (build (count S)).map (fun T => (layout T, T.idx))

/-- The code table of an input. -/
def table (S : List Byte) : CodeTable := codes (build (count S))

/-- T1, "aaabbc". -/
theorem test_codec_T1 :
    placed [0x61#8, 0x61#8, 0x61#8, 0x62#8, 0x62#8, 0x63#8] = some (t1Tree, 6) ∧
    table [0x61#8, 0x61#8, 0x61#8, 0x62#8, 0x62#8, 0x63#8] =
      [(.byte 0x61#8, [false]), (.byte 0x62#8, [true, false]),
       (.byte 0x63#8, [true, true, false]), (.eos, [true, true, true])] := by decide

theorem test_encode_T1 :
    encodeBytes [0x61#8, 0x61#8, 0x61#8, 0x62#8, 0x62#8, 0x63#8]
      (table [0x61#8, 0x61#8, 0x61#8, 0x62#8, 0x62#8, 0x63#8]) =
    some [false, false, false, true, false, true, false, true, true, false, true, true, true] := by
  decide

/-- T2, the empty input; T3, "a"; T4, "aaaa". -/
theorem test_codec_T2_T3_T4 :
    placed [] = some ([(0, 0x100#31), (1, 0x301#31)], 1) ∧ table [] = [(.eos, [false])] ∧
    placed [0x61#8] = some ([(0, 0x61#31), (1, 0x100#31), (2, 0x00200701#31)], 2) ∧
    table [0x61#8] = [(.byte 0x61#8, [false]), (.eos, [true])] ∧
    placed [0x61#8, 0x61#8, 0x61#8, 0x61#8] =
      some ([(0, 0x61#31), (1, 0x100#31), (2, 0x00000F01#31)], 2) ∧
    table [0x61#8, 0x61#8, 0x61#8, 0x61#8] = [(.eos, [false]), (.byte 0x61#8, [true])] := by
  decide

/-- T6, "abracadabra": the FIFO tie-break. -/
theorem test_codec_T6 : (build (count [0x61#8, 0x62#8, 0x72#8, 0x61#8, 0x63#8, 0x61#8, 0x64#8,
    0x61#8, 0x62#8, 0x72#8, 0x61#8])).map layout = some
    [(0, 0x61#31), (1, 0x62#31), (2, 0x63#31), (3, 0x64#31), (4, 0x72#31), (5, 0x100#31),
     (6, 0x00601701#31), (7, 0x00202F01#31), (8, 0x00C02701#31), (9, 0x01003F01#31),
     (10, 0x01200701#31)] := by decide

/-- V-RT-1 through R149. -/
theorem test_decodeRun_T1 : decodeRun 1024 t1Tree 6#10 true
    [false, false, false, true, false, true, false, true, true, false, true, true, true] =
    ⟨[0x61#8, 0x61#8, 0x61#8, 0x62#8, 0x62#8, 0x63#8], .done, 3#10, 3, 13⟩ := by decide

/-- V-ENC-1 to V-ENC-3, and the forms of R87 and R88. -/
theorem test_assemble :
    Asm.assemble "NODE_WRITE 6, 0x00A00701 ; a node\nREG_WRITE ROOT, 6\n  BIT 1" =
      some [⟨0x10000006#32, 0x00A00701#32⟩, ⟨0x50000002#32, 6#32⟩, ⟨0x80000001#32, 0#32⟩] ∧
    Asm.assemble "DECODE \"01\"" = some [⟨0x60000000#32, 0#32⟩, ⟨0x80000000#32, 0#32⟩,
      ⟨0x80000001#32, 0#32⟩, ⟨0x90000000#32, 0#32⟩] := by decide


/-! ### Witnesses: for each statement with hypotheses, states and operands that meet them -/

/-- A state with T1 loaded keeps the invariant. -/
theorem witness_inv_loaded : t1Loaded.Inv where
  params := by decide
  treeWf := by decide
  entries := by
    unfold State.EntriesOk
    decide
  curInside := by decide
  depthBound := by decide
  runRoot := fun h => absurd h (by decide)
  runWalk := fun h => absurd h (by decide)
  record := by
    unfold State.RecordOk
    decide

/-- A state in RUN keeps the invariant. -/
theorem witness_inv_run : t1Run.Inv where
  params := by decide
  treeWf := by decide
  entries := by
    unfold State.EntriesOk
    decide
  curInside := by decide
  depthBound := by decide
  runRoot := fun _ => by
    unfold State.RootOk
    decide
  runWalk := fun _ => by
    unfold State.WalkOk
    decide
  record := by
    unfold State.RecordOk
    decide

theorem witness_DecodeEncodeAgree :
    (Instr.regRead (.reserved 0x9#4)).wellFormed = true ∧
    (Instr.regWrite (.reserved 0xF#4) 0#32).wellFormed = true ∧
    (Instr.nodeWrite 0x3FF#10 0xFFFFFFFF#32).wellFormed = true := by decide

theorem witness_EncodeDecodeAgree :
    decode ⟨0x100003FF#32, 0xFFFFFFFF#32⟩ = .ok (.nodeWrite 0x3FF#10 0xFFFFFFFF#32) ∧
    decode ⟨0x5000000F#32, 1#32⟩ = .ok (.regWrite (.reserved 0xF#4) 1#32) ∧
    decode ⟨0x60000000#32, 1#32⟩ = .ok .start := by decide

theorem witness_DecodeFollowsOpcodeMap :
    decode ⟨0x90000000#32, 0#32⟩ = .ok .endInput ∧
    (∃ r ∈ opcodeMap, r.fits 0x80000001#32 = true) ∧
    (∀ r ∈ opcodeMap, r.fits 0xA0000000#32 = false) ∧
    (∀ r ∈ opcodeMap, r.fits 0x80000002#32 = false) := by decide

theorem witness_IllegalWordsRaiseIllegalCmd :
    0xA ≤ ((0xA0000000#32 : Word).extractLsb' 28 4).toNat ∧
    0xA ≤ ((0xF0000000#32 : Word).extractLsb' 28 4).toNat ∧
    (∀ r ∈ opcodeMap, r.fits 0x00000001#32 = false) := by decide

theorem witness_LegalNodeFieldByField : legalNode State.reset.nodeCount 0x00000101#32 = false ∧
    (∃ t r, exec (.nodeWrite 0#10 0x00000101#32) State.reset = .next t ∧ t.rsp = some r) ∧
    t1Loaded.EntriesOk ∧ ∃ t, exec (.nodeWrite 7#10 0x61#32) t1Loaded = .next t :=
  ⟨by decide, ⟨_, _, rfl, rfl⟩, witness_inv_loaded.entries, _, rfl⟩

/-- T1 loaded with a BIT offered, an untaken response before it. -/
def waiting : State :=
  { t1Run with rsp := some .ok, inputs := [.command ⟨0x80000000#32, 0#32⟩] }

theorem witness_StepRunsDecodedCommand :
    waiting.inputs = .command ⟨0x80000000#32, 0#32⟩ :: [] ∧
    waiting.rspReady.headD true = true ∧ decode ⟨0x80000000#32, 0#32⟩ = .ok (.bit false) ∧
    { waiting with inputs := [.command ⟨0x80000002#32, 0#32⟩], rsp := none }.rsp = none ∧
    decode ⟨0x80000002#32, 0#32⟩ = .error (.reservedBits 8#4) := by
  decide

theorem witness_StepRunsPlacedWord : decodeTableWord 64 0x0060170110000004 =
    some (.nodeWrite 4#10 0x00601701#32) := by decide

/-- A command offered, an `idle` edge, and nothing. -/
theorem witness_UntakenResponseHoldsCommands :
    { waiting with rspReady := [false] }.rsp = some .ok ∧
    { waiting with rspReady := [false] }.rspReady.headD true = false ∧
    waiting.inputs = .command ⟨0x80000000#32, 0#32⟩ :: [] ∧
    { waiting with inputs := [.idle] }.inputs = HostInput.idle :: [] ∧
    { waiting with inputs := [] }.inputs = [] := by decide

theorem witness_ResponsesKeptInOrder :
    (∃ t, step waiting = .next t) ∧ (∀ c rest, waiting.inputs ≠ .reset c :: rest) ∧
    (waiting.rsp = some .ok ∧ waiting.rspReady.headD true = true) ∧
    (∃ t, step t1Run = .next t) ∧ (∀ c rest, t1Run.inputs ≠ .reset c :: rest) ∧
    (∃ t, step { waiting with inputs := [.idle] } = .next t) :=
  ⟨⟨_, rfl⟩, by simp [waiting], ⟨rfl, rfl⟩, ⟨_, rfl⟩,
    by simp [t1Run, t1Loaded, State.reset, State.powerOn], _, rfl⟩

theorem witness_ResetInputResetsEverything :
    { faulted with inputs := [.reset none] }.inputs = HostInput.reset none :: [] := rfl

theorem witness_ResetStateValues : 513 ≤ Config.nodeCountMin ∧ Config.nodeCountMax ≤ 1024 ∧
    RegName.finfo ≠ .param ∧ ∀ n, RegName.finfo ≠ .reserved n := by
  simp [Config.nodeCountMin, Config.nodeCountMax]

theorem witness_NoInputNoChange : t1Loaded.rsp = none ∧ t1Loaded.inputs = [] ∧
    { t1Loaded with inputs := [.idle] }.inputs = HostInput.idle :: [] := ⟨rfl, rfl, rfl⟩

theorem witness_FaultPrimitiveEffect : t1Run.mode ≠ .fault ∧ faulted.mode = .fault := by decide

/-- The command faults in the state. -/
def faultsIn (i : Instr) (s : State) : Prop :=
  ∃ t r, exec i s = .next t ∧ t.rsp = some r ∧ r.err = true

theorem witness_FaultsArePrecise : faultsIn .treeClear t1Run ∧ faultsIn .start faulted.memClear :=
  ⟨⟨_, _, rfl, rfl, rfl⟩, _, _, rfl, rfl, rfl⟩

/-- Each command that can fault, with each of its causes. -/
theorem witness_CausesByCommand :
    (faultsIn (.nodeWrite 0#10 0x61#32) t1Run ∧ t1Run.mode ≠ .fault) ∧
    (faultsIn (.nodeWrite 513#10 0x61#32) (State.powerOn 513) ∧
      (State.powerOn 513).mode ≠ .fault) ∧
    faultsIn (.nodeWrite 512#10 0x101#32) (State.powerOn 513) ∧
    faultsIn (.nodeRead 513#10) (State.powerOn 513) ∧ faultsIn .treeClear t1Run ∧
    faultsIn (.regRead (.reserved 9#4)) t1Run ∧ faultsIn (.regWrite .param 0#32) t1Run ∧
    faultsIn (.regWrite .root 0#32) t1Run ∧ faultsIn .start State.reset ∧
    faultsIn (.bit true) State.reset ∧ faultsIn (.bit true) t2Run ∧ t2Run.mode ≠ .fault ∧
    faultsIn (.bit true) holeRun ∧ faultsIn (.bit false) loopRun ∧
    faultsIn .endInput State.reset := by
  refine ⟨⟨⟨_, _, rfl, rfl, rfl⟩, by decide⟩, ⟨⟨_, _, rfl, rfl, rfl⟩, by decide⟩, ?_, ?_, ?_, ?_, ?_,
    ?_, ?_, ?_, ?_, by decide, ?_, ?_, ?_⟩ <;> exact ⟨_, _, rfl, rfl, rfl⟩

theorem witness_FaultLeftOnlyByStartOrAbort : faulted.mode = .fault ∧ faulted.rootValid = true ∧
    faulted.memClear.rootValid = false ∧ faulted.sticky = true ∧
    (∃ t, exec .nop faulted = .next t) ∧ (∃ t, exec .abort faulted = .next t) ∧
    ∃ t, exec .start faulted = .next t :=
  ⟨rfl, by decide, by decide, rfl, ⟨_, rfl⟩, ⟨_, rfl⟩, _, rfl⟩

/-- For the statements about a next state and its response: with ERR, with a byte, with neither. -/
theorem witness_response :
    (∃ t r, exec (.bit false) t1Run = .next t ∧ t.rsp = some r ∧ r.emit = true) ∧
    (∃ t r, exec (.bit true) t1Run = .next t ∧ t.rsp = some r ∧ r.emit = false) ∧
    (∃ t r, exec .start t1Loaded = .next t ∧ t.rsp = some r ∧ r.err = false) ∧
    (∃ t r, exec .start State.reset = .next t ∧ t.rsp = some r ∧ r.err = true) :=
  ⟨⟨_, _, rfl, rfl, rfl⟩, ⟨_, _, rfl, rfl, rfl⟩, ⟨_, _, rfl, rfl, rfl⟩, _, _, rfl, rfl, rfl⟩

theorem witness_NodeWriteWritesOneEntry :
    ((State.powerOn 513).mode ≠ .run ∧ (512#10).toNat < (State.powerOn 513).nodeCount ∧
      legalNode (State.powerOn 513).nodeCount 0x00000100#32 = true) ∧ t1Run.mode = .run ∧
    (State.powerOn 513).nodeCount ≤ (513#10).toNat ∧
    legalNode (State.powerOn 513).nodeCount 0x00000102#32 = false ∧
    (0x10000400#32 : Word).extractLsb' 28 4 = 1#4 ∧
    (0x10000400#32 : Word).extractLsb' 10 18 ≠ 0#18 := by decide

theorem witness_LatestWriteIsReadBack : t1Loaded.PortsClear ∧ t1Loaded.mode ≠ .run ∧
    (4#10).toNat < t1Loaded.nodeCount ∧ legalNode t1Loaded.nodeCount 0x61#32 = true ∧
    ∀ i ∈ [Instr.start, .bit true, .nodeWrite 5#10 0x62#32],
      i.wellFormed = true ∧ i ≠ .treeClear ∧ ∀ d, i ≠ .nodeWrite 4#10 d :=
  ⟨⟨rfl, rfl⟩, by decide, by decide, by decide, by simp [Instr.wellFormed]⟩

theorem witness_NodeReadReturnsEntry : (1023#10).toNat < t1Run.nodeCount ∧
    (512#10).toNat < (State.powerOn 513).nodeCount ∧
    (State.powerOn 513).nodeCount ≤ (513#10).toNat ∧
    (0x20000400#32 : Word).extractLsb' 28 4 = 2#4 ∧
    (0x20000400#32 : Word).extractLsb' 10 18 ≠ 0#18 := by decide

theorem witness_TreeBusyInRun : t1Run.mode = .run ∧
    ∃ s t : State, s.mode ≠ .run ∧ exec .nop s = .next t ∧ t.cause = .treeBusy :=
  ⟨rfl, { faulted with cause := .treeBusy }, _, by decide, rfl, rfl⟩

theorem witness_BadIndexOutsideMemory :
    ((State.powerOn 513).nodeCount ≤ (513#10).toNat ∧ (State.powerOn 513).mode ≠ .run) ∧
    State.reset.nodeCount = 1024 := by decide

theorem witness_modes : t1Loaded.mode ≠ .run ∧ t1Run.mode = .run ∧ State.reset.mode = .idle ∧
    faulted.mode = .fault := by decide

theorem witness_TreeChangesOnlyByWriteAndClear :
    (∃ t, exec .nop t1Loaded = .next t) ∧ (∃ t, exec .treeClear t1Loaded = .next t) ∧
    ∃ t, exec (.nodeWrite 7#10 0x61#32) t1Loaded = .next t :=
  ⟨⟨_, rfl⟩, ⟨_, rfl⟩, _, rfl⟩

theorem witness_ReadsPureWritesIdempotent :
    (∃ t r, exec (.regRead .status) t1Run = .next t ∧ t.rsp = some r ∧ r.err = false) ∧
    (∃ t r, exec (.nodeRead 6#10) t1Run = .next t ∧ t.rsp = some r ∧ r.err = false) ∧
    (∃ t r, exec (.nodeWrite 7#10 0x61#32) t1Loaded = .next t ∧ t.rsp = some r ∧ r.err = false) ∧
    (∃ t r, exec .treeClear t1Loaded = .next t ∧ t.rsp = some r ∧ r.err = false) ∧
    (∃ t r, exec (.regWrite .ctrl 7#32) t1Run = .next t ∧ t.rsp = some r ∧ r.err = false) ∧
    (∃ t r, exec .start t1Run = .next t ∧ t.rsp = some r ∧ r.err = false) ∧
    (∃ t r, exec .abort t1Run = .next t ∧ t.rsp = some r ∧ r.err = false) := by
  refine ⟨?_, ?_, ?_, ?_, ?_, ?_, ?_⟩ <;> exact ⟨_, _, rfl, rfl, rfl⟩

/-- Words of each format whose opcode is defined and whose reserved bits are not 0. -/
theorem witness_reservedBits :
    ((0x00000001#32 : Word).extractLsb' 28 4 = 0#4 ∧
      (0x00000001#32 : Word).extractLsb' 0 28 ≠ 0#28) ∧
    ((0x30000001#32 : Word).extractLsb' 28 4 = 3#4 ∧
      (0x30000001#32 : Word).extractLsb' 0 28 ≠ 0#28) ∧
    ((0x40000010#32 : Word).extractLsb' 28 4 = 4#4 ∧
      (0x40000010#32 : Word).extractLsb' 4 24 ≠ 0#24) ∧
    ((0x50000010#32 : Word).extractLsb' 28 4 = 5#4 ∧
      (0x50000010#32 : Word).extractLsb' 4 24 ≠ 0#24) ∧
    ((0x68000000#32 : Word).extractLsb' 28 4 = 6#4 ∧
      (0x68000000#32 : Word).extractLsb' 0 28 ≠ 0#28) ∧
    ((0x70000001#32 : Word).extractLsb' 28 4 = 7#4 ∧
      (0x70000001#32 : Word).extractLsb' 0 28 ≠ 0#28) ∧
    ((0x98000000#32 : Word).extractLsb' 28 4 = 9#4 ∧
      (0x98000000#32 : Word).extractLsb' 0 28 ≠ 0#28) := by decide

/-- The lowest reserved address, and the highest with a value. -/
theorem witness_RegisterValues : State.reset.nodeCount < 2048 ∧ 9 ≤ (9#4).toNat ∧
    faulted.regVal (RegName.ofCode 8#4) = some 0x8401#32 := by decide

theorem witness_RegReadReturnsValue : faulted.regVal .finfo = some 0x8401#32 ∧
    (9 ≤ (RegName.reserved 9#4).code.toNat ∧ (RegName.reserved 9#4).wellFormed = true) ∧
    (9 ≤ (RegName.reserved 15#4).code.toNat ∧ (RegName.reserved 15#4).wellFormed = true) := by
  decide

theorem witness_RegWriteKeepsDefinedFields : t1Loaded.mode ≠ .run ∧ t1Run.mode = .run ∧
    RegName.param ≠ .ctrl ∧ RegName.param ≠ .root ∧ RegName.reserved 15#4 ≠ .ctrl ∧
    RegName.reserved 15#4 ≠ .root := by decide

/-- A valid root; then a root outside the memory, one that is not written, and a leaf. -/
theorem witness_StartBeginsRunAtRoot :
    (t1Loaded.root.toNat < t1Loaded.nodeCount ∧ (t1Loaded.memRead t1Loaded.root).1 = true ∧
      NodeWord.sym (t1Loaded.memRead t1Loaded.root).2 = 257#9) ∧
    { State.powerOn 513 with root := 513#10 }.nodeCount ≤
      { State.powerOn 513 with root := 513#10 }.root.toNat ∧
    (State.reset.memRead State.reset.root).1 = false ∧
    NodeWord.sym ({ t1Loaded with root := 3#10 }.memRead 3#10).2 ≠ 257#9 := by decide

theorem witness_BitMovesToInternalNode : t1Run.mode = .run ∧
    t1Run.memRead t1Run.cur = (true, 0x00A00701#31) ∧
    (0x00A00701#31 : NodeWord).getLsbD 10 = true ∧
    5#10 = (0x00A00701#31 : NodeWord).extractLsb' 21 10 ∧
    t1Run.memRead 5#10 = (true, 0x00800F01#31) ∧ t1Run.depth.toNat + 1 < t1Run.nodeCount ∧
    NodeWord.sym 0x00800F01#31 = 257#9 := by decide

/-- The byte leaf 0xFF, and the EOS leaf. -/
theorem witness_BitReachesLeaf :
    (t2Run.mode = .run ∧ t2Run.memRead t2Run.cur = (true, 0x301#31) ∧
      (0x301#31 : NodeWord).getLsbD 9 = true ∧
      0#10 = (0x301#31 : NodeWord).extractLsb' 11 10 ∧ t2Run.memRead 0#10 = (true, 0x100#31) ∧
      t2Run.depth.toNat + 1 < t2Run.nodeCount ∧
      ((0x100#31 : NodeWord).extractLsb' 0 9).toNat = 256) ∧
    { t2Run with tree := [(0, 0xFF#31), (1, 0x301#31)] }.memRead 0#10 = (true, 0xFF#31) ∧
    ((0xFF#31 : NodeWord).extractLsb' 0 9).toNat ≤ 255 := by decide

/-- An absent child, an unwritten node, and DEPTH = NODE_COUNT - 1. -/
theorem witness_WalkFaultsInOrder :
    (t2Run.mode = .run ∧ t2Run.memRead t2Run.cur = (true, 0x301#31) ∧
      (NodeWord.branch 0x301#31 true).1 = false) ∧
    (holeRun.mode = .run ∧ holeRun.memRead holeRun.cur = (true, 0x00200701#31) ∧
      (NodeWord.branch 0x00200701#31 true).1 = true ∧
      (holeRun.memRead (NodeWord.branch 0x00200701#31 true).2).1 = false) ∧
    (loopRun.mode = .run ∧ loopRun.memRead loopRun.cur = (true, 0x301#31) ∧
      (NodeWord.branch 0x301#31 false).1 = true ∧
      (loopRun.memRead (NodeWord.branch 0x301#31 false).2).1 = true ∧
      loopRun.nodeCount ≤ loopRun.depth.toNat + 1) := by decide

/-- An illegal word of each kind. -/
theorem witness_StateTransitions :
    decode ⟨0xA0000000#32, 0#32⟩ = .error (.reservedOpcode 0xA#4) ∧
    decode ⟨0x00000001#32, 0#32⟩ = .error (.reservedBits 0#4) := by decide

theorem witness_CurComesFromRootOrChild :
    (∃ t, exec .start t1Loaded = .next t ∧ t.cur ≠ t1Loaded.cur) ∧
    ∃ t, exec (.bit true) t1Run = .next t ∧ t.cur ≠ t1Run.cur :=
  ⟨⟨_, rfl, by decide⟩, _, rfl, by decide⟩

theorem witness_StepKeepsInvariant : t1Run.Inv ∧ ∃ t, step t1Run = .next t :=
  ⟨witness_inv_run, _, rfl⟩

/-- Two instances after different histories, and two that agree but for STICKY. -/
theorem witness_EarlierRunsDoNotMatter :
    (∃ s s' : State, s'.nodeCount = s.nodeCount ∧ s'.tree = s.tree ∧ s'.root = s.root ∧
      s'.ctrl = s.ctrl ∧ s.rootValid = true ∧ s'.bitcnt ≠ s.bitcnt) ∧
    (t1Run.AgreeButSticky { t1Run with sticky := true } ∧
      (∃ t, exec (.bit true) t1Run = .next t) ∧
      ∃ t, exec (.bit true) { t1Run with sticky := true } = .next t) :=
  ⟨⟨t1Loaded, { t1Loaded with bitcnt := 9#32, mode := .done }, rfl, rfl, rfl, rfl, by decide,
    by decide⟩, rfl, ⟨_, rfl⟩, _, rfl⟩

/-- For RunIsTheDecodeFunction, LoadTreeLoadsTheLayout and RoundTrip. -/
theorem witness_run_premises : t1Loaded.Inv ∧ t1Loaded.rootValid = true ∧ t1Loaded.PortsClear ∧
    t1Loaded.mode ≠ .run :=
  ⟨witness_inv_loaded, by decide, ⟨rfl, rfl⟩, by decide⟩

theorem witness_FiniteInputEndsTheRun : t1Run.mode = .run ∧ t1Run.PortsClear :=
  ⟨rfl, rfl, rfl⟩

theorem witness_OneDistinctByteCode :
    count (List.replicate 1 0x61#8) = [(.byte 0x61#8, 1), (.eos, 1)] ∧
    count (List.replicate 2 0x61#8) = [(.byte 0x61#8, 2), (.eos, 1)] := by decide

theorem witness_frequency_tables :
    count [] ≠ [] ∧ (count []).Pairwise (fun e f => e.1.code.toNat < f.1.code.toNat) ∧
    (count []).length = 1 ∧ 2 ≤ (count [0x61#8]).length ∧
    (count [0x61#8]).Pairwise (fun e f => e.1.code.toNat < f.1.code.toNat) ∧
    (.byte 0x61#8, [false]) ∈ codes (build (count [0x61#8])) ∧
    (.eos, [true]) ∈ codes (build (count [0x61#8])) := by decide

theorem witness_EncoderFindsEveryByte :
    ∃ b ∈ [0x61#8], List.lookup (Sym.byte b) (table []) = none := by decide

/-- A packing that keeps every bit: one bit to a byte. -/
def onePerByte : PackOrder where
  pack bits := bits.map (fun b => if b then 1#8 else 0#8)
  unpack bytes := bytes.map (fun x => x == 1#8)

theorem witness_RoundTripThroughPayload : onePerByte.Keeps ∧ t1Loaded.Inv ∧
    t1Loaded.mode ≠ .run ∧ t1Loaded.PortsClear := by
  refine ⟨fun bits => ⟨[], ?_⟩, witness_inv_loaded, by decide, rfl, rfl⟩
  induction bits with
  | nil => rfl
  | cons b bits ih => cases b <;> simpa [onePerByte] using ih

end Sys2Proof.Tests
end

