-- ==== Sys2Proof/Proofs/OpcodeMap.lean ====
section
/-! SUPPORT. The decoder against the opcode map (30_encoding.md R73): a result of the decoder is
held to the map once per format, and the statement follows from that and from the uniqueness of
the row. -/

namespace Sys2Proof

open Sys2Proof.Machine

/-- What the opcode map says of a result of the decoder on the word `w`: a command has a row that
`w` fits, under its mnemonic, and for an error `w` fits no row. -/
def FollowsOpcodeMap (w : Word) : Except DecodeError Instr → Prop
  | .ok i => ∃ r ∈ opcodeMap, r.fits w = true ∧ r.mnemonic = i.mnemonic
  | .error _ => ∀ r ∈ opcodeMap, r.fits w = false

theorem fits_iff (r : OpcodeRow) (w : Word) : r.fits w = true ↔ w &&& r.mask = r.pattern := by
  simp [OpcodeRow.fits]

/-- Every row's mask covers CMD[31:28]. -/
theorem opField_mask_of_mem {r : OpcodeRow} (hr : r ∈ opcodeMap) :
    opField r.mask = BitVec.allOnes 4 := by
  revert r
  decide

/-- A word that fits a row has the row's opcode. -/
theorem opField_eq_of_fits {r : OpcodeRow} {w : Word} (hr : r ∈ opcodeMap)
    (hw : r.fits w = true) : opField w = opField r.pattern := by
  have hm := opField_mask_of_mem hr
  unfold opField at hm ⊢
  rw [← (fits_iff r w).mp hw, BitVec.extractLsb'_and, hm, BitVec.and_allOnes]

theorem opField_pattern_lt {r : OpcodeRow} (hr : r ∈ opcodeMap) :
    (opField r.pattern).toNat < 10 := by
  revert r
  decide

/-- The rows have ten different opcodes. -/
theorem opcodeMap_eq_of_opField_eq : ∀ r ∈ opcodeMap, ∀ r' ∈ opcodeMap,
    opField r.pattern = opField r'.pattern → r = r' := by
  decide

/-- At most one row matches (R73). -/
theorem fits_row_unique {r r' : OpcodeRow} {w : Word} (hr : r ∈ opcodeMap) (hr' : r' ∈ opcodeMap)
    (hw : r.fits w = true) (hw' : r'.fits w = true) : r = r' :=
  opcodeMap_eq_of_opField_eq r hr r' hr'
    ((opField_eq_of_fits hr hw).symm.trans (opField_eq_of_fits hr' hw'))

/-- The opcode of a pattern with `k` operand bits and `n` reserved bits. -/
theorem extract_opcode_of_pattern {n k : Nat} (op : BitVec 4) :
    ((op ++ 0#n) ++ 0#k).extractLsb' (k + n) 4 = op := by
  rw [extract_append_high _ _ (by omega), Nat.add_sub_cancel_left,
    extract_append_high _ _ le_rfl]
  simp

/-- A decoder that accepts exactly the words of one row follows the map on the words with that
row's opcode: no other row has it. -/
theorem followsOpcodeMap_ite {r : OpcodeRow} {w : Word} {i : Instr} {e : DecodeError} {P : Prop}
    [Decidable P] (hr : r ∈ opcodeMap) (hop : opField w = opField r.pattern)
    (hfits : r.fits w = true ↔ P) (hm : i.mnemonic = r.mnemonic) :
    FollowsOpcodeMap w (if P then .ok i else .error e) := by
  split
  · next hP => exact ⟨r, hr, hfits.mpr hP, hm.symm⟩
  · next hP =>
    intro r' hr'
    refine Bool.eq_false_iff.mpr fun hw' => hP (hfits.mp ?_)
    have hrow : r = r' :=
      opcodeMap_eq_of_opField_eq r hr r' hr' (hop.symm.trans (opField_eq_of_fits hr' hw'))
    rwa [hrow]

/-- Format Z against its row. -/
theorem decodeZ_followsOpcodeMap {m : String} {op : BitVec 4} {w : Word} {i : Instr}
    (hop : opField w = op) (hr : ⟨m, op ++ 0#28, 0xFFFFFFFF#32⟩ ∈ opcodeMap)
    (hm : i.mnemonic = m) : FollowsOpcodeMap w (decodeZ w i) :=
  followsOpcodeMap_ite hr (hop.trans (opField_append op _).symm)
    (by rw [fits_iff, masked_formatZ, and_iff_right hop]) hm

/-- Format N against its row. -/
theorem decodeN_followsOpcodeMap {m : String} {op : BitVec 4} {w : Word} {f : NodeIdx → Instr}
    (hop : opField w = op) (hr : ⟨m, (op ++ 0#18) ++ 0#10, 0xFFFFFC00#32⟩ ∈ opcodeMap)
    (hm : ∀ idx, (f idx).mnemonic = m) : FollowsOpcodeMap w (decodeN w f) :=
  followsOpcodeMap_ite hr (hop.trans (extract_opcode_of_pattern op).symm)
    (by rw [fits_iff, masked_formatN, and_iff_right hop]) (hm _)

/-- Format R against its row. -/
theorem decodeR_followsOpcodeMap {m : String} {op : BitVec 4} {w : Word} {f : RegName → Instr}
    (hop : opField w = op) (hr : ⟨m, (op ++ 0#24) ++ 0#4, 0xFFFFFFF0#32⟩ ∈ opcodeMap)
    (hm : ∀ ra, (f ra).mnemonic = m) : FollowsOpcodeMap w (decodeR w f) :=
  followsOpcodeMap_ite hr (hop.trans (extract_opcode_of_pattern op).symm)
    (by rw [fits_iff, masked_formatR, and_iff_right hop]) (hm _)

/-- Format B against its row. -/
theorem decodeB_followsOpcodeMap {m : String} {op : BitVec 4} {w : Word} {f : Bool → Instr}
    (hop : opField w = op) (hr : ⟨m, (op ++ 0#27) ++ 0#1, 0xFFFFFFFE#32⟩ ∈ opcodeMap)
    (hm : ∀ b, (f b).mnemonic = m) : FollowsOpcodeMap w (decodeB w f) :=
  followsOpcodeMap_ite hr (hop.trans (extract_opcode_of_pattern op).symm)
    (by rw [fits_iff, masked_formatB, and_iff_right hop]) (hm _)

/-- A word with a reserved opcode fits no row. -/
theorem followsOpcodeMap_of_reserved {w : Word} {e : DecodeError} (h : 10 ≤ (opField w).toNat) :
    FollowsOpcodeMap w (.error e) := fun r hr => by
  refine Bool.eq_false_iff.mpr fun hw => ?_
  have hlt := opField_pattern_lt hr
  rw [← opField_eq_of_fits hr hw] at hlt
  omega

/-- Every result of the decoder is the opcode map's (R73). -/
theorem decode_followsOpcodeMap (c : Command) : FollowsOpcodeMap c.cmd (decode c) := by
  have hop : ∀ {n : Nat}, (opField c.cmd).toNat = n → opField c.cmd = BitVec.ofNat 4 n :=
    fun h => by rw [← h, BitVec.ofNat_toNat, BitVec.setWidth_eq]
  unfold decode
  split
  · next h => exact decodeZ_followsOpcodeMap (m := "NOP") (hop h) (by decide) rfl
  · next h => exact decodeN_followsOpcodeMap (m := "NODE_WRITE") (hop h) (by decide) fun _ => rfl
  · next h => exact decodeN_followsOpcodeMap (m := "NODE_READ") (hop h) (by decide) fun _ => rfl
  · next h => exact decodeZ_followsOpcodeMap (m := "TREE_CLEAR") (hop h) (by decide) rfl
  · next h => exact decodeR_followsOpcodeMap (m := "REG_READ") (hop h) (by decide) fun _ => rfl
  · next h => exact decodeR_followsOpcodeMap (m := "REG_WRITE") (hop h) (by decide) fun _ => rfl
  · next h => exact decodeZ_followsOpcodeMap (m := "START") (hop h) (by decide) rfl
  · next h => exact decodeZ_followsOpcodeMap (m := "ABORT") (hop h) (by decide) rfl
  · next h => exact decodeB_followsOpcodeMap (m := "BIT") (hop h) (by decide) fun _ => rfl
  · next h => exact decodeZ_followsOpcodeMap (m := "END") (hop h) (by decide) rfl
  · refine followsOpcodeMap_of_reserved ?_
    simp only [imp_false] at *
    omega

/-- A command has a row under its mnemonic. -/
theorem row_of_decode_ok {c : Command} {i : Instr} (h : decode c = .ok i) :
    ∃ r ∈ opcodeMap, r.fits c.cmd = true ∧ r.mnemonic = i.mnemonic := by
  simpa only [h, FollowsOpcodeMap] using decode_followsOpcodeMap c

/-- A word that is no command fits no row. -/
theorem not_fits_of_decode_error {c : Command} {e : DecodeError} (h : decode c = .error e) :
    ∀ r ∈ opcodeMap, r.fits c.cmd = false := by
  simpa only [h, FollowsOpcodeMap] using decode_followsOpcodeMap c

/-- A word that fits a row is a command with the row's mnemonic. -/
theorem decode_ok_of_fits {c : Command} {r : OpcodeRow} (hr : r ∈ opcodeMap)
    (hw : r.fits c.cmd = true) : ∃ i, decode c = .ok i ∧ i.mnemonic = r.mnemonic := by
  cases hd : decode c with
  | error e => exact absurd hw (by simp [not_fits_of_decode_error hd r hr])
  | ok i =>
    obtain ⟨r', hr', hw', hm⟩ := row_of_decode_ok hd
    exact ⟨i, rfl, by rw [fits_row_unique hr hr' hw hw', hm]⟩

/-- A word that fits no row is no command. -/
theorem decode_error_of_not_fits {c : Command} (h : ∀ r ∈ opcodeMap, r.fits c.cmd = false) :
    ∃ e, decode c = .error e := by
  cases hd : decode c with
  | error e => exact ⟨e, rfl⟩
  | ok i =>
    obtain ⟨r, hr, hw, -⟩ := row_of_decode_ok hd
    exact absurd hw (by simp [h r hr])

/-- Settles O4: every result of the decoder is the map's, and at most one row matches. -/
theorem decodeFollowsOpcodeMap : Obligations.DecodeFollowsOpcodeMap :=
  ⟨fun _ _ h => row_of_decode_ok h, fun _ _ hr hw => decode_ok_of_fits hr hw,
    fun _ h => decode_error_of_not_fits h, fun _ _ hr _ hr' hw hw' =>
      fits_row_unique hr hr' hw hw'⟩

end Sys2Proof
end

