-- ==== Sys2Proof/Proofs/LegalNode.lean ====
section
/-! SUPPORT. `legal_node` by the bit positions of R82, what a command does to the tree memory, and
from the two that every stored word stays legal. -/

namespace Sys2Proof.Machine

/-! ### The fields of w[30:0] as fields of the word -/

@[simp] theorem sym_extract (w : Word) :
    NodeWord.sym (w.extractLsb' 0 31) = w.extractLsb' 0 9 :=
  BitVec.extractLsb'_extractLsb'_of_le (by decide)

@[simp] theorem zc_extract (w : Word) :
    NodeWord.zc (w.extractLsb' 0 31) = w.extractLsb' 11 10 :=
  BitVec.extractLsb'_extractLsb'_of_le (by decide)

@[simp] theorem oc_extract (w : Word) :
    NodeWord.oc (w.extractLsb' 0 31) = w.extractLsb' 21 10 :=
  BitVec.extractLsb'_extractLsb'_of_le (by decide)

@[simp] theorem zv_extract (w : Word) : NodeWord.zv (w.extractLsb' 0 31) = w.getLsbD 9 := by
  simp [NodeWord.zv]

@[simp] theorem ov_extract (w : Word) : NodeWord.ov (w.extractLsb' 0 31) = w.getLsbD 10 := by
  simp [NodeWord.ov]

theorem extract_bit_eq_one_iff {n : Nat} (x : BitVec n) (k : Nat) :
    x.extractLsb' k 1 = 1#1 ↔ x.getLsbD k = true := by
  rw [extract_bit]
  exact BitVec.ofBool_eq_iff_eq (b' := true)

theorem extract_bit_eq_zero_iff {n : Nat} (x : BitVec n) (k : Nat) :
    x.extractLsb' k 1 = 0#1 ↔ x.getLsbD k = false := by
  rw [extract_bit]
  exact BitVec.ofBool_eq_iff_eq (b' := false)

/-- Two neighbouring fields are 0 exactly when the field they make up is. -/
theorem extract_add_eq_zero_iff {w : Nat} (x : BitVec w) (k m n : Nat) :
    x.extractLsb' k (m + n) = 0#(m + n) ↔
      x.extractLsb' k m = 0#m ∧ x.extractLsb' (k + m) n = 0#n := by
  simp only [extract_eq_zero_iff]
  constructor
  · intro h
    exact ⟨fun i hi => h i (by omega), fun i hi => Nat.add_assoc k m i ▸ h (m + i) (by omega)⟩
  · rintro ⟨hlow, hhigh⟩ i hi
    by_cases him : i < m
    · exact hlow i him
    · have := hhigh (i - m) (by omega)
      rwa [show k + m + (i - m) = k + i by omega] at this

/-! ### The clauses of `legal_node` (R82) -/

theorem legalChild_iff (n : Nat) (present : Bool) (child : NodeIdx) :
    legalChild n present child = true ↔
      (present = true → child.toNat < n) ∧ (present = false → child.toNat = 0) := by
  cases present <;> simp [legalChild, ← BitVec.toNat_inj]

/-- The leaf clause: a byte or EOS, and every other bit 0. -/
theorem legalLeaf_extract_iff (w : Word) :
    NodeWord.legalLeaf (w.extractLsb' 0 31) = true ↔
      (w.extractLsb' 0 9).toNat ≤ 256 ∧ w.extractLsb' 9 1 = 0#1 ∧ w.extractLsb' 10 1 = 0#1 ∧
        w.extractLsb' 11 20 = 0#20 := by
  have hrest : (w.extractLsb' 0 31).extractLsb' 9 22 = w.extractLsb' 9 22 :=
    BitVec.extractLsb'_extractLsb'_of_le (by decide)
  have hsplit : w.extractLsb' 9 22 = 0#22 ↔ w.extractLsb' 9 1 = 0#1 ∧ w.extractLsb' 10 1 = 0#1 ∧
      w.extractLsb' 11 20 = 0#20 := by
    rw [extract_add_eq_zero_iff w 9 1 21, extract_add_eq_zero_iff w 10 1 20]
  simp [NodeWord.legalLeaf, hrest, hsplit]

/-- The internal clause: NAS, a child at least, a present child inside the memory and an absent one
0. -/
theorem legalInternal_extract_iff (n : Nat) (w : Word) :
    NodeWord.legalInternal n (w.extractLsb' 0 31) = true ↔
      (w.extractLsb' 0 9).toNat = 257 ∧
        (w.extractLsb' 9 1 = 1#1 ∨ w.extractLsb' 10 1 = 1#1) ∧
        (w.extractLsb' 9 1 = 1#1 → (w.extractLsb' 11 10).toNat < n) ∧
        (w.extractLsb' 9 1 = 0#1 → (w.extractLsb' 11 10).toNat = 0) ∧
        (w.extractLsb' 10 1 = 1#1 → (w.extractLsb' 21 10).toNat < n) ∧
        (w.extractLsb' 10 1 = 0#1 → (w.extractLsb' 21 10).toNat = 0) := by
  have hnas : w.extractLsb' 0 9 = Config.nas ↔ (w.extractLsb' 0 9).toNat = 257 :=
    BitVec.toNat_inj.symm
  simp only [NodeWord.legalInternal, Bool.and_eq_true, Bool.or_eq_true, beq_iff_eq, sym_extract,
    zv_extract, ov_extract, zc_extract, oc_extract, legalChild_iff, hnas, extract_bit_eq_one_iff,
    extract_bit_eq_zero_iff, and_assoc]

theorem legalNode_iff (n : Nat) (w : Word) :
    legalNode n w = true ↔
      w.extractLsb' 31 1 = 0#1 ∧ (NodeWord.legalLeaf (w.extractLsb' 0 31) = true ∨
        NodeWord.legalInternal n (w.extractLsb' 0 31) = true) := by
  simp [legalNode, NodeWord.legal, extract_bit_eq_zero_iff]

/-! ### What a command does to the tree memory -/

@[simp] theorem State.arrive_tree (s : State) (c : NodeIdx) (cw : NodeWord) :
    (s.arrive c cw).tree = s.tree := by
  obtain ⟨-, h⟩ | ⟨-, -, h⟩ | ⟨-, h⟩ := s.arrive_cases c cw <;> rw [h] <;> rfl

@[simp] theorem State.arrive_nodeCount (s : State) (c : NodeIdx) (cw : NodeWord) :
    (s.arrive c cw).nodeCount = s.nodeCount := by
  obtain ⟨-, h⟩ | ⟨-, -, h⟩ | ⟨-, h⟩ := s.arrive_cases c cw <;> rw [h] <;> rfl

/-- No command changes NODE_COUNT, and a command leaves the tree memory, writes one legal word
inside it, or clears it. -/
theorem exec_tree_cases {i : Instr} {s t : State} (h : exec i s = .next t) :
    t.nodeCount = s.nodeCount ∧
      (t.tree = s.tree ∨
        (∃ idx data, i = .nodeWrite idx data ∧ idx.toNat < s.nodeCount ∧
          legalNode s.nodeCount data = true ∧ t.tree = (s.memWrite idx data).tree) ∨
        (i = .treeClear ∧ t.tree = [])) := by
  obtain ⟨_, _, _, -, rfl⟩ | ⟨-, rfl⟩ | ⟨idx, data, hi, -, hidx, hlegal, rfl⟩ | ⟨_, -, -, rfl⟩ |
    ⟨hi, -, rfl⟩ | ⟨_, _, -, -, rfl⟩ | ⟨_, -, rfl⟩ | ⟨_, -, -, rfl⟩ | ⟨-, -, rfl⟩ | ⟨-, rfl⟩ |
    ⟨_, _, -, -, -, -, -, -, rfl⟩ | ⟨-, -, -, rfl⟩ | ⟨-, -, rfl⟩ := exec_cases h
  -- the write of NODE_WRITE and the clear of TREE_CLEAR; nothing else reaches the tree memory
  case inr.inr.inl => exact ⟨rfl, .inr (.inl ⟨idx, data, hi, hidx, hlegal, rfl⟩)⟩
  case inr.inr.inr.inr.inl => exact ⟨rfl, .inr (.inr ⟨hi, rfl⟩)⟩
  all_goals simp

/-- NODE_WRITE of a word that is not legal raises a fault, TREE_BUSY and BAD_INDEX before BAD_NODE
(R101, R103). -/
theorem execNodeWrite_of_not_legal {idx : NodeIdx} {data : Word} {s t : State}
    (hlegal : legalNode s.nodeCount data = false) (h : execNodeWrite idx data s = .next t) :
    ∃ c, t = s.raise 1#4 c idx false := by
  obtain ⟨-, h⟩ | ⟨-, -, h⟩ | ⟨-, -, -, h⟩ | ⟨-, -, hlegal', -⟩ := execNodeWrite_cases h
  · exact ⟨_, h⟩
  · exact ⟨_, h⟩
  · exact ⟨_, h⟩
  · simp [hlegal] at hlegal'

/-! ### Every stored word is legal -/

/-- A legal write inside the memory keeps every stored word legal. -/
theorem State.EntriesOk.memWrite {s : State} (hs : s.EntriesOk) {idx : NodeIdx} {data : Word}
    (hidx : idx.toNat < s.nodeCount) (hlegal : legalNode s.nodeCount data = true) :
    (s.memWrite idx data).EntriesOk := by
  intro e he
  rcases Memory.mem_write he with rfl | he
  · have hw : NodeWord.legal s.nodeCount (data.extractLsb' 0 31) = true :=
      (Bool.and_eq_true_iff.mp hlegal).2
    exact ⟨hidx, hw⟩
  · exact hs e he

/-- Only NODE_COUNT and the tree memory decide whether the stored words are legal. -/
theorem State.EntriesOk.congr {s t : State} (hs : s.EntriesOk) (hn : t.nodeCount = s.nodeCount)
    (ht : t.tree = s.tree) : t.EntriesOk := by
  intro e he
  rw [hn]
  exact hs e (ht ▸ he)

/-- Every command keeps every stored word legal (R82). -/
theorem exec_keeps_entriesOk {i : Instr} {s t : State} (hs : s.EntriesOk)
    (h : exec i s = .next t) : t.EntriesOk := by
  obtain ⟨hn, ht | ⟨idx, data, -, hidx, hlegal, ht⟩ | ⟨-, ht⟩⟩ := exec_tree_cases h
  · exact hs.congr hn ht
  · exact (hs.memWrite hidx hlegal).congr hn ht
  · simp [State.EntriesOk, ht]

/-- Settles O6: R82 clause by clause, the fault of the rest, and the invariant of the tree
memory. -/
theorem legalNodeFieldByField : Obligations.LegalNodeFieldByField := by
  refine ⟨fun n w => ?_, fun idx data s t r hlegal h hr => ?_,
    fun i s t hs h => exec_keeps_entriesOk hs h⟩
  · rw [legalNode_iff, legalLeaf_extract_iff, legalInternal_extract_iff]
  · obtain ⟨c, rfl⟩ := execNodeWrite_of_not_legal hlegal h
    have hr' : Response.error = r := Option.some.inj hr
    exact ⟨hr' ▸ rfl, rfl⟩

end Sys2Proof.Machine
end

