-- ==== Sys2Proof/Proofs/TreeLoad.lean ====
section
/-! SUPPORT. The tree-load commands (40_tree_load.md): the check of the command word before any
other (R100), NODE_WRITE, NODE_READ and TREE_CLEAR branch by branch, and which command can record
TREE_BUSY. -/

namespace Sys2Proof

open Sys2Proof.Machine

/-! ### Command words of formats Z and N -/

theorem decode_of_opcode_one {c : Command} (hop : opField c.cmd = 1#4) :
    decode c = decodeN c.cmd (fun idx => .nodeWrite idx c.wdata) := by
  simp [decode, hop]

theorem decode_of_opcode_two {c : Command} (hop : opField c.cmd = 2#4) :
    decode c = decodeN c.cmd .nodeRead := by
  simp [decode, hop]

theorem decode_of_opcode_three {c : Command} (hop : opField c.cmd = 3#4) :
    decode c = decodeZ c.cmd .treeClear := by
  simp [decode, hop]

/-- The opcode of a word of format N. -/
theorem opField_formatN (op : BitVec 4) (idx : NodeIdx) : opField (op ++ 0#18 ++ idx) = op :=
  (extract_append_high (op ++ 0#18) idx (by decide)).trans
    ((extract_append_high op 0#18 (by decide)).trans (by simp))

/-- A word of format N, assembled, gives its IDX. -/
theorem decodeN_formatN (op : BitVec 4) (idx : NodeIdx) (f : NodeIdx → Instr) :
    decodeN (op ++ 0#18 ++ idx) f = .ok (f idx) := by
  have hidx : (op ++ 0#18 ++ idx).extractLsb' 0 10 = idx := extract_append_low _ _
  have hres : (op ++ 0#18 ++ idx).extractLsb' 10 18 = 0#18 :=
    (extract_append_high (op ++ 0#18) idx (by decide)).trans (extract_append_low op 0#18)
  rw [decodeN, if_pos hres, hidx]

theorem decodeN_of_reserved {w : Word} (h : w.extractLsb' 10 18 ≠ 0#18) (f : NodeIdx → Instr) :
    decodeN w f = .error (.reservedBits (opField w)) := if_neg h

theorem decodeZ_of_reserved {w : Word} (h : w.extractLsb' 0 28 ≠ 0#28) (i : Instr) :
    decodeZ w i = .error (.reservedBits (opField w)) := if_neg h

theorem decode_nodeWrite (idx : NodeIdx) (data : Word) :
    decode ⟨0x1#4 ++ 0#18 ++ idx, data⟩ = .ok (.nodeWrite idx data) :=
  (decode_of_opcode_one (c := ⟨0x1#4 ++ 0#18 ++ idx, data⟩) (opField_formatN 0x1#4 idx)).trans
    (decodeN_formatN 0x1#4 idx _)

theorem decode_nodeRead (idx : NodeIdx) (w : Word) :
    decode ⟨0x2#4 ++ 0#18 ++ idx, w⟩ = .ok (.nodeRead idx) :=
  (decode_of_opcode_two (c := ⟨0x2#4 ++ 0#18 ++ idx, w⟩) (opField_formatN 0x2#4 idx)).trans
    (decodeN_formatN 0x2#4 idx _)

theorem decode_treeClear (w : Word) : decode ⟨0x30000000#32, w⟩ = .ok .treeClear := by
  have hop : opField 0x30000000#32 = 3#4 := by decide
  have hres : (0x30000000#32).extractLsb' 0 28 = 0#28 := by decide
  exact (decode_of_opcode_three (c := ⟨0x30000000#32, w⟩) hop).trans (if_pos hres)

/-- A word whose opcode is 0xA..0xF fits no row of the opcode map. -/
theorem not_fits_of_reserved_opcode {w : Word} (h : 10 ≤ (opField w).toNat) :
    ∀ r ∈ opcodeMap, r.fits w = false :=
  followsOpcodeMap_of_reserved (e := .reservedOpcode (opField w)) h

end Sys2Proof

namespace Sys2Proof.Machine

/-! ### Illegal words (R100) -/

/-- What the decoder refuses raises ILLEGAL_CMD, whatever the state. -/
theorem issue_of_decode_error {c : Command} {op : BitVec 4} {e : DecodeError}
    (hop : opField c.cmd = op) (h : decode c = .error e) (s : State) :
    issue c s = .next (s.raise op .illegalCmd 0#10 false) := by
  simp [issue, h, execIllegal, hop]

/-- Settles O5: an illegal word of either kind fits no row, so the decoder refuses it before the
state is looked at. -/
theorem illegalWordsRaiseIllegalCmd : Obligations.IllegalWordsRaiseIllegalCmd := by
  intro c s h
  have hfits : ∀ r ∈ opcodeMap, r.fits c.cmd = false := h.elim not_fits_of_reserved_opcode id
  obtain ⟨e, he⟩ := decode_error_of_not_fits hfits
  exact issue_of_decode_error rfl he s

/-! ### The commands, branch by branch -/

section
variable {s : State} {idx : NodeIdx} {data : Word}

theorem exec_nodeWrite_treeBusy (hm : s.mode = .run) :
    exec (.nodeWrite idx data) s = .next (s.raise 1#4 .treeBusy idx false) := if_pos hm

theorem exec_nodeWrite_badIndex (hm : s.mode ≠ .run) (hi : s.nodeCount ≤ idx.toNat) :
    exec (.nodeWrite idx data) s = .next (s.raise 1#4 .badIndex idx false) :=
  (if_neg hm).trans (if_pos hi)

theorem exec_nodeWrite_badNode (hm : s.mode ≠ .run) (hi : idx.toNat < s.nodeCount)
    (hl : legalNode s.nodeCount data = false) :
    exec (.nodeWrite idx data) s = .next (s.raise 1#4 .badNode idx false) :=
  (if_neg hm).trans ((if_neg hi.not_ge).trans (if_pos hl))

theorem exec_nodeWrite_ok (hm : s.mode ≠ .run) (hi : idx.toNat < s.nodeCount)
    (hl : legalNode s.nodeCount data = true) :
    exec (.nodeWrite idx data) s = .next ((s.memWrite idx data).respond .ok) :=
  (if_neg hm).trans ((if_neg hi.not_ge).trans (if_neg (by simp [hl])))

theorem exec_nodeRead_badIndex (hi : s.nodeCount ≤ idx.toNat) :
    exec (.nodeRead idx) s = .next (s.raise 2#4 .badIndex idx false) := if_pos hi

theorem exec_nodeRead_ok (hi : idx.toNat < s.nodeCount) :
    exec (.nodeRead idx) s = .next (s.respond (.data (nodeReadData (s.memRead idx)))) :=
  if_neg hi.not_ge

theorem exec_treeClear_treeBusy (hm : s.mode = .run) :
    exec .treeClear s = .next (s.raise 3#4 .treeBusy 0#10 false) := if_pos hm

theorem exec_treeClear_ok (hm : s.mode ≠ .run) :
    exec .treeClear s = .next (s.memClear.respond .ok) := if_neg hm

theorem exec_regWrite_root_treeBusy (hm : s.mode = .run) :
    exec (.regWrite .root data) s = .next (s.raise 5#4 .treeBusy s.root false) := if_pos hm

theorem exec_start_badRoot (hr : s.rootValid = false) :
    exec .start s = .next (s.raise 6#4 .badRoot s.root false) := if_pos hr

/-- START does not accept a root whose entry is unwritten (R126). -/
theorem State.rootValid_of_unwritten (h : (s.memRead s.root).1 = false) :
    s.rootValid = false := by
  simp [State.rootValid, h]

end

/-- Settles O23: each branch of NODE_WRITE under its own condition; the frame is the law of a read
after a write. -/
theorem nodeWriteWritesOneEntry : Obligations.NodeWriteWritesOneEntry :=
  ⟨fun idx data s => issue_of_decode (decode_nodeWrite idx data) s,
    fun idx data s hm hi hl => ⟨_, exec_nodeWrite_ok hm hi hl, rfl,
      s.memWrite_memRead_self idx data, fun _ hj => s.memWrite_memRead_of_ne data hj⟩,
    fun _ _ _ hm => exec_nodeWrite_treeBusy hm,
    fun _ _ _ hm hi => exec_nodeWrite_badIndex hm hi,
    fun _ _ _ hm hi hl => exec_nodeWrite_badNode hm hi hl,
    fun _ s hop hb => issue_of_decode_error hop
      ((decode_of_opcode_one hop).trans (decodeN_of_reserved hb _)) s⟩

/-- Settles O25: neither branch of NODE_READ looks at STATE. -/
theorem nodeReadReturnsEntry : Obligations.NodeReadReturnsEntry :=
  ⟨fun idx w s => issue_of_decode (decode_nodeRead idx w) s,
    fun _ _ hi => exec_nodeRead_ok hi,
    fun _ _ hi => exec_nodeRead_badIndex hi,
    fun _ s hop hb => issue_of_decode_error hop
      ((decode_of_opcode_two hop).trans (decodeN_of_reserved hb _)) s⟩

/-- Settles O26: the index check of both commands; IDX has 10 bits, so it is below 1024. -/
theorem badIndexOutsideMemory : Obligations.BadIndexOutsideMemory := fun idx _ _ =>
  ⟨fun hi => ⟨exec_nodeRead_badIndex hi, fun hm => exec_nodeWrite_badIndex hm hi⟩,
    fun hn => hn ▸ idx.isLt⟩

/-- Settles O27: TREE_CLEAR in and outside RUN; the entry ROOT names is unwritten after it. -/
theorem treeClearEmptiesMemory : Obligations.TreeClearEmptiesMemory :=
  ⟨fun w s => issue_of_decode (decode_treeClear w) s,
    fun s hm => ⟨_, exec_treeClear_ok hm, rfl, s.memClear_memRead,
      exec_start_badRoot (State.rootValid_of_unwritten (s.memClear_memRead s.root))⟩,
    fun _ hm => exec_treeClear_treeBusy hm,
    fun _ s hop hb => issue_of_decode_error hop
      ((decode_of_opcode_three hop).trans (decodeZ_of_reserved hb _)) s⟩

/-! ### Who records TREE_BUSY (R110) -/

/-- A fault of another cause does not record TREE_BUSY: in an episode the record stays (R206). -/
theorem State.raise_cause_ne_treeBusy (s : State) (op : BitVec 4) {c : Cause} (k : NodeIdx)
    (b : Bool) (hc : c ≠ .treeBusy) :
    (s.raise op c k b).cause = s.cause ∨ (s.raise op c k b).cause ≠ .treeBusy := by
  by_cases hm : s.mode = .fault
  · exact .inl (if_pos hm)
  · exact .inr (by simpa [hm] using hc)

@[simp] theorem State.arrive_cause (s : State) (c : NodeIdx) (cw : NodeWord) :
    (s.arrive c cw).cause = s.cause := by
  obtain ⟨-, h⟩ | ⟨-, -, h⟩ | ⟨-, h⟩ := s.arrive_cases c cw <;> rw [h] <;> rfl

theorem walkBit_cause_ne_treeBusy (b : Bool) (s : State) :
    (walkBit b s).cause = s.cause ∨ (walkBit b s).cause ≠ .treeBusy := by
  obtain ⟨-, h⟩ | ⟨-, -, h⟩ | ⟨-, -, -, h⟩ | ⟨-, -, -, h⟩ := walkBit_cases_read b s rfl <;> rw [h]
  · exact s.raise_cause_ne_treeBusy _ _ _ (by decide)
  · exact s.raise_cause_ne_treeBusy _ _ _ (by decide)
  · exact s.raise_cause_ne_treeBusy _ _ _ (by decide)
  · exact .inl (s.arrive_cause _ _)

/-- Outside RUN a command keeps the recorded cause or leaves another than TREE_BUSY. -/
theorem exec_cause_ne_treeBusy {i : Instr} {s t : State} (hm : s.mode ≠ .run)
    (h : exec i s = .next t) : t.cause = s.cause ∨ t.cause ≠ .treeBusy := by
  cases i with
  | nop =>
    obtain rfl := execNop_cases.mp h
    exact .inl rfl
  | nodeWrite idx data =>
    obtain ⟨hm', -⟩ | ⟨-, -, rfl⟩ | ⟨-, -, -, rfl⟩ | ⟨-, -, -, rfl⟩ := execNodeWrite_cases h
    · exact absurd hm' hm
    · exact s.raise_cause_ne_treeBusy _ _ _ (by decide)
    · exact s.raise_cause_ne_treeBusy _ _ _ (by decide)
    · exact .inl rfl
  | nodeRead idx =>
    obtain ⟨-, rfl⟩ | ⟨-, rfl⟩ := execNodeRead_cases h
    · exact s.raise_cause_ne_treeBusy _ _ _ (by decide)
    · exact .inl rfl
  | treeClear =>
    obtain ⟨hm', -⟩ | ⟨-, rfl⟩ := execTreeClear_cases h
    · exact absurd hm' hm
    · exact .inl rfl
  | regRead ra =>
    obtain ⟨v, -, rfl⟩ | ⟨-, rfl⟩ := execRegRead_cases h
    · exact .inl rfl
    · exact s.raise_cause_ne_treeBusy _ _ _ (by decide)
  | regWrite ra data =>
    obtain ⟨-, rfl⟩ | ⟨-, hm', -⟩ | ⟨-, -, rfl⟩ | ⟨-, -, rfl⟩ := execRegWrite_cases h
    · exact .inl rfl
    · exact absurd hm' hm
    · exact .inl rfl
    · exact s.raise_cause_ne_treeBusy _ _ _ (by decide)
  | start =>
    obtain ⟨-, rfl⟩ | ⟨-, rfl⟩ := execStart_cases h
    · exact s.raise_cause_ne_treeBusy _ _ _ (by decide)
    · exact .inr (by simp [State.beginRun])
  | abort =>
    obtain rfl := execAbort_cases.mp h
    exact .inr (by simp)
  | bit b =>
    obtain ⟨-, rfl⟩ | ⟨-, rfl⟩ | ⟨-, -, rfl⟩ := execBit_cases h
    · exact s.raise_cause_ne_treeBusy _ _ _ (by decide)
    · exact walkBit_cause_ne_treeBusy b s
    · exact .inl rfl
  | endInput =>
    obtain ⟨-, rfl⟩ | ⟨-, rfl⟩ | ⟨-, -, rfl⟩ := execEndInput_cases h
    · exact s.raise_cause_ne_treeBusy _ _ _ (by decide)
    · exact .inl rfl
    · exact .inl rfl

/-- Settles O28: the three refusals, what a raise leaves, and that outside RUN TREE_BUSY is never
newly recorded. -/
theorem treeBusyInRun : Obligations.TreeBusyInRun :=
  ⟨fun _ _ _ hm => ⟨exec_nodeWrite_treeBusy hm, exec_treeClear_treeBusy hm,
      exec_regWrite_root_treeBusy hm⟩,
    fun s _ _ => ⟨s.raise_tree _ _ _ _, s.raise_root _ _ _ _, s.raise_mode _ _ _ _⟩,
    fun _ _ _ hm h hc => (exec_cause_ne_treeBusy hm h).elim (fun he => he ▸ hc)
      fun hne => absurd hc hne⟩

end Sys2Proof.Machine
end

