-- ==== Sys2Proof/Proofs/Control.lean ====
section
/-! SUPPORT. The control commands (41_control.md): their command words, the register values as sums
of fields, and NOP, REG_READ, REG_WRITE, START and ABORT branch by branch. -/

namespace Sys2Proof

open Sys2Proof.Machine

/-! ### Command words of formats Z and R -/

theorem decode_of_opcode_zero {c : Command} (hop : opField c.cmd = 0#4) :
    decode c = decodeZ c.cmd .nop := by
  simp [decode, hop]

theorem decode_of_opcode_four {c : Command} (hop : opField c.cmd = 4#4) :
    decode c = decodeR c.cmd .regRead := by
  simp [decode, hop]

theorem decode_of_opcode_five {c : Command} (hop : opField c.cmd = 5#4) :
    decode c = decodeR c.cmd (fun ra => .regWrite ra c.wdata) := by
  simp [decode, hop]

theorem decode_of_opcode_six {c : Command} (hop : opField c.cmd = 6#4) :
    decode c = decodeZ c.cmd .start := by
  simp [decode, hop]

theorem decode_of_opcode_seven {c : Command} (hop : opField c.cmd = 7#4) :
    decode c = decodeZ c.cmd .abort := by
  simp [decode, hop]

/-- A word of format Z, assembled, is its opcode's command. -/
theorem decodeZ_formatZ (op : BitVec 4) (i : Instr) : decodeZ (op ++ 0#28) i = .ok i :=
  if_pos (extract_append_low op 0#28)

/-- The opcode of a word of format R. -/
theorem opField_formatR (op ra : BitVec 4) : opField (op ++ 0#24 ++ ra) = op :=
  (extract_append_high (op ++ 0#24) ra (by decide)).trans
    ((extract_append_high op 0#24 (by decide)).trans (by simp))

/-- A word of format R, assembled, gives the register at its RA. -/
theorem decodeR_formatR (op ra : BitVec 4) (f : RegName → Instr) :
    decodeR (op ++ 0#24 ++ ra) f = .ok (f (RegName.ofCode ra)) := by
  have hra : (op ++ 0#24 ++ ra).extractLsb' 0 4 = ra := extract_append_low _ _
  have hres : (op ++ 0#24 ++ ra).extractLsb' 4 24 = 0#24 :=
    (extract_append_high (op ++ 0#24) ra (by decide)).trans (extract_append_low op 0#24)
  rw [decodeR, if_pos hres, hra]

theorem decodeR_of_reserved {w : Word} (h : w.extractLsb' 4 24 ≠ 0#24) (f : RegName → Instr) :
    decodeR w f = .error (.reservedBits (opField w)) := if_neg h

theorem decode_nop (w : Word) : decode ⟨0x00000000#32, w⟩ = .ok .nop :=
  (decode_of_opcode_zero (c := ⟨0x0#4 ++ 0#28, w⟩) (opField_append 0x0#4 0#28)).trans
    (decodeZ_formatZ 0x0#4 _)

theorem decode_regRead (ra : BitVec 4) (w : Word) :
    decode ⟨0x4#4 ++ 0#24 ++ ra, w⟩ = .ok (.regRead (RegName.ofCode ra)) :=
  (decode_of_opcode_four (c := ⟨0x4#4 ++ 0#24 ++ ra, w⟩) (opField_formatR 0x4#4 ra)).trans
    (decodeR_formatR 0x4#4 ra _)

theorem decode_regWrite (ra : BitVec 4) (data : Word) :
    decode ⟨0x5#4 ++ 0#24 ++ ra, data⟩ = .ok (.regWrite (RegName.ofCode ra) data) :=
  (decode_of_opcode_five (c := ⟨0x5#4 ++ 0#24 ++ ra, data⟩) (opField_formatR 0x5#4 ra)).trans
    (decodeR_formatR 0x5#4 ra _)

theorem decode_start (w : Word) : decode ⟨0x60000000#32, w⟩ = .ok .start :=
  (decode_of_opcode_six (c := ⟨0x6#4 ++ 0#28, w⟩) (opField_append 0x6#4 0#28)).trans
    (decodeZ_formatZ 0x6#4 _)

theorem decode_abort (w : Word) : decode ⟨0x70000000#32, w⟩ = .ok .abort :=
  (decode_of_opcode_seven (c := ⟨0x7#4 ++ 0#28, w⟩) (opField_append 0x7#4 0#28)).trans
    (decodeZ_formatZ 0x7#4 _)

end Sys2Proof

namespace Sys2Proof.Machine

/-! ### The register values as sums (R121) -/

/-- Two neighbouring fields as a sum. -/
theorem toNat_append_eq_add {n m : Nat} (x : BitVec n) (y : BitVec m) :
    (x ++ y).toNat = 2 ^ m * x.toNat + y.toNat := by
  rw [BitVec.toNat_append, ← Nat.shiftLeft_add_eq_or_of_lt y.isLt, Nat.shiftLeft_eq, Nat.mul_comm]

theorem State.paramWord_toNat (s : State) (hn : s.nodeCount < 2 ^ 11) :
    s.paramWord.toNat = s.nodeCount + 2 ^ 16 * 256 := by
  have hfield : (BitVec.ofNat 11 s.nodeCount).toNat = s.nodeCount := by
    rw [BitVec.toNat_ofNat, Nat.mod_eq_of_lt hn]
  simp only [State.paramWord, toNat_append_eq_add, hfield, Config.eos, BitVec.toNat_ofNat]
  omega

theorem State.statusWord_toNat (s : State) :
    s.statusWord.toNat = s.mode.code.toNat + 2 ^ 3 * s.sticky.toNat + 2 ^ 4 * s.cause.code.toNat +
      2 ^ 8 * s.irq.toNat := by
  simp only [State.statusWord, toNat_append_eq_add, BitVec.toNat_ofBool, BitVec.toNat_ofNat]
  omega

theorem FInfo.word_toNat (f : FInfo) :
    f.word.toNat = f.fidx.toNat + 2 ^ 10 * f.fbit.toNat + 2 ^ 12 * f.fop.toNat := by
  simp only [FInfo.word, toNat_append_eq_add, BitVec.toNat_ofBool, BitVec.toNat_ofNat]
  omega

/-- The addresses 0x9..0xF have no value. -/
theorem State.regVal_eq_none (s : State) {ra : RegName} (h : 9 ≤ ra.code.toNat) :
    s.regVal ra = none := by
  cases ra with
  | reserved n => rfl
  | _ => exact absurd h (by decide)

/-! ### The commands, branch by branch -/

section
variable {s : State} {data : Word}

theorem exec_regRead_ok {ra : RegName} {v : Word} (hv : s.regVal ra = some v) :
    exec (.regRead ra) s = .next (s.respond (.data v)) := by
  simp [exec, execRegRead, hv]

theorem exec_regRead_illegalCmd {ra : RegName} (hv : s.regVal ra = none) :
    exec (.regRead ra) s = .next (s.raise 4#4 .illegalCmd 0#10 false) := by
  simp [exec, execRegRead, hv, Instr.opcode]

theorem exec_regWrite_root_ok (hm : s.mode ≠ .run) :
    exec (.regWrite .root data) s =
      .next ({ s with root := data.extractLsb' 0 10 }.respond .ok) := if_neg hm

/-- Only CTRL and ROOT are writable. -/
theorem exec_regWrite_illegalCmd {ra : RegName} (hc : ra ≠ .ctrl) (hr : ra ≠ .root) :
    exec (.regWrite ra data) s = .next (s.raise 5#4 .illegalCmd 0#10 false) := by
  cases ra with
  | ctrl => exact absurd rfl hc
  | root => exact absurd rfl hr
  | _ => rfl

theorem exec_start_ok (hr : s.rootValid = true) :
    exec .start s = .next (s.beginRun.respond .ok) := if_neg (by simp [hr])

end

theorem NodeWord.isLeaf_eq_false_iff (w : NodeWord) :
    NodeWord.isLeaf w = false ↔ NodeWord.sym w = 257#9 := by
  simp [NodeWord.isLeaf, Config.nas]

/-- The three conditions of START on the root (R126). -/
theorem State.rootValid_iff (s : State) :
    s.rootValid = true ↔ s.root.toNat < s.nodeCount ∧ (s.memRead s.root).1 = true ∧
      NodeWord.sym (s.memRead s.root).2 = 257#9 := by
  simp [State.rootValid, NodeWord.isLeaf_eq_false_iff, and_assoc]

theorem State.rootValid_eq_false_iff (s : State) :
    s.rootValid = false ↔ s.nodeCount ≤ s.root.toNat ∨ (s.memRead s.root).1 = false ∨
      NodeWord.sym (s.memRead s.root).2 ≠ 257#9 := by
  rw [← Bool.not_eq_true, s.rootValid_iff]
  simp only [not_and_or, not_lt, Bool.not_eq_true, ne_eq]

/-! ### The statements -/

/-- Settles O32: NOP has one branch, whatever the state. -/
theorem nopDoesNothing : Obligations.NopDoesNothing :=
  ⟨fun w s => issue_of_decode (decode_nop w) s,
    fun _ => rfl,
    fun _ s hop hb => issue_of_decode_error hop
      ((decode_of_opcode_zero hop).trans (decodeZ_of_reserved hb _)) s⟩

/-- Settles O33: the words put together from fields are the sums of them, and REG_READ answers the
value of its address. -/
theorem registerValues : Obligations.RegisterValues := fun s hn => by
  refine ⟨⟨_, rfl, s.paramWord_toNat hn⟩,
    ⟨_, rfl, BitVec.toNat_setWidth_of_le (by decide)⟩,
    ⟨_, rfl, BitVec.toNat_setWidth_of_le (by decide)⟩,
    ⟨_, rfl, s.statusWord_toNat.trans ?_⟩,
    ⟨_, rfl, BitVec.toNat_setWidth_of_le (by decide)⟩,
    ⟨_, rfl, BitVec.toNat_setWidth_of_le (by decide)⟩, rfl, rfl,
    ⟨_, rfl, s.finfo.word_toNat⟩,
    fun ra h => s.regVal_eq_none (by rwa [RegName.code_ofCode]),
    fun ra w v hv => (issue_of_decode (decode_regRead ra w) s).trans (exec_regRead_ok hv)⟩
  -- STATE and CAUSE by their codes
  congr 3
  · cases s.mode <;> rfl
  · cases s.cause <;> rfl

/-- Settles O34: whether the address has a value is the only branch of REG_READ. -/
theorem regReadReturnsValue : Obligations.RegReadReturnsValue :=
  ⟨fun ra w s => issue_of_decode (decode_regRead ra w) s,
    fun _ _ _ hv => exec_regRead_ok hv,
    fun _ s hra _ => exec_regRead_illegalCmd (s.regVal_eq_none hra),
    fun _ s hop hb => issue_of_decode_error hop
      ((decode_of_opcode_four hop).trans (decodeR_of_reserved hb _)) s⟩

/-- Settles O35: CTRL in one branch, ROOT in and outside RUN, and every other address. -/
theorem regWriteKeepsDefinedFields : Obligations.RegWriteKeepsDefinedFields :=
  ⟨fun ra data s => issue_of_decode (decode_regWrite ra data) s,
    fun _ _ => rfl,
    fun _ _ hm => exec_regWrite_root_ok hm,
    fun _ _ hm => exec_regWrite_root_treeBusy hm,
    fun _ _ _ hc hr => exec_regWrite_illegalCmd hc hr,
    fun _ s hop hb => issue_of_decode_error hop
      ((decode_of_opcode_five hop).trans (decodeR_of_reserved hb _)) s⟩

/-- Settles O36: START accepts the root under three conditions and refuses it under the negation
of them. -/
theorem startBeginsRunAtRoot : Obligations.StartBeginsRunAtRoot :=
  ⟨fun w s => issue_of_decode (decode_start w) s,
    fun s hi hv hw => exec_start_ok (s.rootValid_iff.mpr ⟨hi, hv, hw⟩),
    fun s h => exec_start_badRoot (s.rootValid_eq_false_iff.mpr h),
    fun _ s hop hb => issue_of_decode_error hop
      ((decode_of_opcode_six hop).trans (decodeZ_of_reserved hb _)) s⟩

/-- Settles O37: ABORT has one branch, whatever the state, and an illegal word does not reach
it. -/
theorem abortReturnsToIdle : Obligations.AbortReturnsToIdle :=
  ⟨fun w s => issue_of_decode (decode_abort w) s,
    fun _ => rfl,
    fun _ s hop hb => issue_of_decode_error hop
      ((decode_of_opcode_seven hop).trans (decodeZ_of_reserved hb _)) s⟩

end Sys2Proof.Machine
end

