-- ==== Sys2Proof/Proofs/BitStream.lean ====
section
/-! SUPPORT. The bit-stream commands (42_bitstream.md): END's command word, the selected child by
bit positions, the arrivals under their conditions on SYM, and BIT and END branch by branch. -/

namespace Sys2Proof

open Sys2Proof.Machine

/-! ### The command word of END -/

theorem decode_of_opcode_nine {c : Command} (hop : opField c.cmd = 9#4) :
    decode c = decodeZ c.cmd .endInput := by
  simp [decode, hop]

theorem decode_endInput (w : Word) : decode ⟨0x90000000#32, w⟩ = .ok .endInput :=
  (decode_of_opcode_nine (c := ⟨0x9#4 ++ 0#28, w⟩) (opField_append 0x9#4 0#28)).trans
    (decodeZ_formatZ 0x9#4 _)

end Sys2Proof

namespace Sys2Proof.Machine

/-! ### The selected child and the arrivals (R141, R143, R144) -/

/-- The child a bit selects, by the positions of its fields in the node word (R80, R141). -/
theorem NodeWord.branch_eq (w : NodeWord) (b : Bool) :
    NodeWord.branch w b =
      (w.getLsbD (if b then 10 else 9), w.extractLsb' (if b then 21 else 11) 10) := by
  cases b with
  | false => rfl
  | true => rfl

/-- SYM[7:0] taken from the node word. -/
theorem NodeWord.sym_byte (w : NodeWord) :
    (NodeWord.sym w).extractLsb' 0 8 = w.extractLsb' 0 8 :=
  BitVec.extractLsb'_extractLsb'_of_le (by decide)

/-- A node whose SYM is a byte or EOS is a leaf. -/
theorem NodeWord.isLeaf_of_sym_le {w : NodeWord} (h : (NodeWord.sym w).toNat ≤ 256) :
    NodeWord.isLeaf w = true := by
  have hne : NodeWord.sym w ≠ Config.nas := fun he => absurd (he ▸ h) (by decide)
  simpa [NodeWord.isLeaf] using hne

section
variable {s : State} {c : NodeIdx} {cw : NodeWord}

theorem State.arrive_internal (h : NodeWord.sym cw = 257#9) :
    s.arrive c cw =
      { s with bitcnt := s.bitcnt + 1#32, cur := c, depth := s.depth + 1#11 }.respond .ok :=
  if_neg (by simp [(NodeWord.isLeaf_eq_false_iff cw).mpr h])

theorem State.arrive_byteLeaf (h : (NodeWord.sym cw).toNat ≤ 255) :
    s.arrive c cw =
      { s with bitcnt := s.bitcnt + 1#32, outcnt := s.outcnt + 1#32, cur := s.root,
               depth := 0#11 }.respond (.byte (cw.extractLsb' 0 8)) := by
  have hne : NodeWord.sym cw ≠ Config.eos := fun he => absurd (he ▸ h) (by decide)
  rw [← NodeWord.sym_byte]
  exact (if_pos (NodeWord.isLeaf_of_sym_le (h.trans (by decide)))).trans (if_neg hne)

theorem State.arrive_eosLeaf (h : (NodeWord.sym cw).toNat = 256) :
    s.arrive c cw =
      { s with mode := .done, bitcnt := s.bitcnt + 1#32, cur := c,
               depth := s.depth + 1#11 }.respond .ok :=
  (if_pos (NodeWord.isLeaf_of_sym_le h.le)).trans (if_pos (BitVec.eq_of_toNat_eq h))

end

/-! ### The commands, branch by branch -/

section
variable {s : State} {b : Bool} {w cw : NodeWord} {c : NodeIdx}

theorem exec_bit_cmdState (hm : s.mode = .idle) :
    exec (.bit b) s = .next (s.raise 8#4 .cmdState 0#10 b) := by
  simp [exec, execBit, hm, Instr.opcode]

theorem exec_bit_run (hm : s.mode = .run) : exec (.bit b) s = .next (walkBit b s) := by
  simp [exec, execBit, hm]

theorem exec_bit_discarded (hm : s.mode = .done ∨ s.mode = .malformed ∨ s.mode = .fault) :
    exec (.bit b) s = .next (s.respond .ok) := by
  obtain hm | hm | hm := hm <;> simp [exec, execBit, hm]

theorem exec_bit_absentChild (hm : s.mode = .run) (hw : (s.memRead s.cur).2 = w)
    (hp : (NodeWord.branch w b).1 = false) :
    exec (.bit b) s = .next (s.raise 8#4 .absentChild s.cur b) := by
  subst hw
  exact (exec_bit_run hm).trans (congrArg _ (if_pos hp))

theorem exec_bit_unwrittenNode (hm : s.mode = .run) (hw : (s.memRead s.cur).2 = w)
    (hp : (NodeWord.branch w b).1 = true) (hv : (s.memRead (NodeWord.branch w b).2).1 = false) :
    exec (.bit b) s = .next (s.raise 8#4 .unwrittenNode (NodeWord.branch w b).2 b) := by
  subst hw
  exact (exec_bit_run hm).trans (congrArg _ ((if_neg (by simp [hp])).trans (if_pos hv)))

theorem exec_bit_depthOverflow (hm : s.mode = .run) (hw : (s.memRead s.cur).2 = w)
    (hp : (NodeWord.branch w b).1 = true) (hv : (s.memRead (NodeWord.branch w b).2).1 = true)
    (hd : s.nodeCount ≤ s.depth.toNat + 1) :
    exec (.bit b) s = .next (s.raise 8#4 .depthOverflow (NodeWord.branch w b).2 b) := by
  subst hw
  exact (exec_bit_run hm).trans (congrArg _
    ((if_neg (by simp [hp])).trans ((if_neg (by simp [hv])).trans (if_pos hd))))

/-- A bit that raises no fault arrives at its child, named by the positions of its fields. -/
theorem exec_bit_arrive (hm : s.mode = .run) (hw : s.memRead s.cur = (true, w))
    (hp : w.getLsbD (if b then 10 else 9) = true) (hc : c = w.extractLsb' (if b then 21 else 11) 10)
    (hcw : s.memRead c = (true, cw)) (hd : s.depth.toNat + 1 < s.nodeCount) :
    exec (.bit b) s = .next (s.arrive c cw) := by
  have hbranch : NodeWord.branch (s.memRead s.cur).2 b = (true, c) := by
    rw [hw, NodeWord.branch_eq, hp, hc]
  obtain ⟨hp', -⟩ | ⟨-, hv, -⟩ | ⟨-, -, hd', -⟩ | ⟨-, -, -, h⟩ := walkBit_cases b s hbranch hcw
  · cases hp'
  · cases hv
  · exact absurd hd hd'.not_gt
  · rw [exec_bit_run hm, h]

theorem exec_endInput_cmdState (hm : s.mode = .idle) :
    exec .endInput s = .next (s.raise 9#4 .cmdState 0#10 false) := by
  simp [exec, execEndInput, hm, Instr.opcode]

theorem exec_endInput_run (hm : s.mode = .run) :
    exec .endInput s = .next ({ s with mode := .malformed }.respond .ok) := by
  simp [exec, execEndInput, hm]

theorem exec_endInput_discarded (hm : s.mode = .done ∨ s.mode = .malformed ∨ s.mode = .fault) :
    exec .endInput s = .next (s.respond .ok) := by
  obtain hm | hm | hm := hm <;> simp [exec, execEndInput, hm]

end

/-! ### The statements -/

/-- Settles O39: no fault of the walk applies, so the bit arrives, and the child is internal. -/
theorem bitMovesToInternalNode : Obligations.BitMovesToInternalNode :=
  fun _ _ _ _ _ hm hw hp hc hcw hd hs =>
    (exec_bit_arrive hm hw hp hc hcw hd).trans (congrArg _ (State.arrive_internal hs))

/-- Settles O40: no fault of the walk applies, so the bit arrives, and SYM says at which leaf. -/
theorem bitReachesLeaf : Obligations.BitReachesLeaf :=
  fun _ _ _ _ _ hm hw hp hc hcw hd =>
    have harrive := exec_bit_arrive hm hw hp hc hcw hd
    ⟨fun hs => harrive.trans (congrArg _ (State.arrive_byteLeaf hs)),
      fun hs => harrive.trans (congrArg _ (State.arrive_eosLeaf hs))⟩

/-- Settles O41: each fault where the checks before it have passed; the depth check does not look
at the child's word. -/
theorem walkFaultsInOrder : Obligations.WalkFaultsInOrder := fun _ _ _ hm hw =>
  have hw := congrArg Prod.snd hw
  ⟨exec_bit_absentChild hm hw, exec_bit_unwrittenNode hm hw, exec_bit_depthOverflow hm hw⟩

/-- Settles O42: BIT outside RUN does not look at the walk. -/
theorem bitOutsideRun : Obligations.BitOutsideRun :=
  fun _ _ => ⟨exec_bit_cmdState, exec_bit_discarded⟩

/-- Settles O43: END's branches by STATE, and an illegal word does not reach them. -/
theorem endMarksMalformed : Obligations.EndMarksMalformed :=
  ⟨fun w s => issue_of_decode (decode_endInput w) s,
    fun _ hm => exec_endInput_run hm,
    fun _ hm => exec_endInput_discarded hm,
    fun _ hm => exec_endInput_cmdState hm,
    fun _ s hop hb => issue_of_decode_error hop
      ((decode_of_opcode_nine hop).trans (decodeZ_of_reserved hb _)) s⟩

end Sys2Proof.Machine
end

