-- ==== Sys2Proof/Proofs/ReferenceCodec.lean ====
section
/-! SUPPORT. The reference codec (45_reference_codec.md): the shape of a built tree and its code
from `build_spec` and the paths, when the encoder gives a stream, and the tables of one byte. -/

namespace Sys2Proof.Codec

open Sys2Proof.Machine

/-! ### The shape of a built tree (R178, R189) -/

theorem RefNode.one_le_height {r : RefNode} (h : r.isLeafNode = false) : 1 ≤ r.height := by
  cases r with
  | leaf => cases h
  | wrap => exact Nat.le_add_left ..
  | inner => exact Nat.le_add_left ..

/-- The entries that are leaf words are as many as the leaves. -/
theorem RefNode.leaf_entries_length (r : RefNode) :
    (r.entries.filter (fun e => NodeWord.isLeaf e.2)).length = r.leafSyms.length := by
  induction r with
  | leaf s n i => simp [entries, word, leafSyms, isLeaf_leafWord s.code_le]
  | wrap n i z ih => simpa [entries, word, leafSyms] using ih
  | inner n i z o ihz iho => simp [entries, word, leafSyms, ihz, iho]

/-- Settles O53: with one entry the tree is the wrapper, and with more it is full, so its counts
and its depth follow from the number of its leaves. -/
theorem builtTreeShape : Obligations.BuiltTreeShape := by
  intro t ht hsorted
  obtain ⟨T, hT, hinner, hsyms, -, -, hfull, hwrap⟩ := build_spec t ht
  have hk := sorted_length_le hsorted
  have hleaves : T.leafSyms.length = t.length := by simpa using hsyms.length_eq
  have hpos := RefNode.one_le_height hinner
  have hwords := T.leaf_entries_length.trans hleaves
  refine ⟨T, hT, hsyms, hk, ?_⟩
  obtain h1 | h2 : t.length = 1 ∨ 2 ≤ t.length := by
    have := List.length_pos_iff.mpr ht
    omega
  · obtain ⟨e, rfl⟩ := List.length_eq_one_iff.mp h1
    obtain rfl := hwrap e rfl
    simp [RefNode.entries, RefNode.height]
  · have hnodes := RefNode.full_entries_length (hfull h2)
    have hdepth := RefNode.full_height (hfull h2)
    refine ⟨by omega, hpos, by omega, fun _ => ⟨hfull h2, hleaves, by omega, hwords, by omega⟩,
      fun e he => ?_⟩
    simp [he] at h2

/-! ### The code of a built tree (R180) -/

section
variable {n : Nat} {m : Memory} {T : RefNode} {w : List Bool}

/-- A byte's path delivers the byte and leaves the walk at the root. -/
theorem decodeRun_byte_path {b : Byte} (hT : T.isLeafNode = false) (hin : T.In m)
    (hh : T.height < n) (hw : (.byte b, w) ∈ T.paths) :
    decodeRun n m (nodeIdx T.idx) false w = ⟨[b], .run, nodeIdx T.idx, 0, w.length⟩ := by
  have hlen : 0 + w.length < n := by simpa using (RefNode.path_length_le hw).trans_lt hh
  obtain ⟨_, -, hwalk⟩ := walk_path (root := nodeIdx T.idx) (ended := false) w T hT hin hw 0 hlen
    [] [] 0
  simpa [walk, decodeRun] using hwalk

/-- The path of EOS ends the run at a leaf that holds EOS, with nothing delivered. -/
theorem decodeRun_eos_path (hT : T.isLeafNode = false) (hin : T.In m) (hh : T.height < n)
    (hw : (.eos, w) ∈ T.paths) :
    ∃ k, m.read k = (true, leafWord Config.eos) ∧
      decodeRun n m (nodeIdx T.idx) false w = ⟨[], .done, k, w.length, w.length⟩ := by
  have hlen : 0 + w.length < n := by simpa using (RefNode.path_length_le hw).trans_lt hh
  obtain ⟨k, hleaf, hwalk⟩ := walk_path (root := nodeIdx T.idx) (ended := false) w T hT hin hw 0
    hlen [] [] 0
  exact ⟨k, hleaf, by simpa [decodeRun] using hwalk⟩

end

/-- Settles O54: the code is the list of the tree's paths, and a path walks to its leaf over the
canonical layout. -/
theorem codeIsPrefixFree : Obligations.CodeIsPrefixFree := by
  intro t ht hsorted
  obtain ⟨T, hT, hinner, hsyms, hidx, hbelow, -, -⟩ := build_spec t ht
  obtain ⟨T', hT', -, hk, -, -, hheight, -, -⟩ := builtTreeShape t ht hsorted
  obtain rfl : T = T' := Option.some.inj (hT.symm.trans hT')
  have hnodup : T.leafSyms.Nodup := hsyms.nodup_iff.mpr (FreqTable.sorted.nodup hsorted)
  have hin : T.In (layout T) := RefNode.in_layout hidx fun i hi => by
    have := hbelow i hi
    omega
  have hh : T.height < 513 := by omega
  refine ⟨T, hT, ?_⟩
  rw [codes_eq_paths hnodup, RefNode.paths_syms]
  exact ⟨hnodup, fun _ => hsyms.mem_iff.symm, fun _ he => RefNode.path_ne_nil hinner he,
    fun _ he _ hf hne hp => hne (congrArg Prod.fst (RefNode.paths_prefix_free he hf hp)),
    fun _ _ hw => decodeRun_byte_path hinner hin hh hw,
    fun _ hw => decodeRun_eos_path hinner hin hh hw⟩

/-! ### When the encoder gives a stream (R182, R183) -/

/-- The encoder gives a stream exactly if EOS and every byte have an entry. -/
theorem encodeBytes_isSome_iff (S : List Byte) (tab : CodeTable) :
    (encodeBytes S tab).isSome ↔
      (tab.lookup .eos).isSome ∧ ∀ b ∈ S, (tab.lookup (.byte b)).isSome := by
  induction S with
  | nil => simp [encodeBytes]
  | cons b S ih =>
    rw [List.forall_mem_cons, and_left_comm, ← ih, encodeBytes]
    cases tab.lookup (.byte b) with
    | none => simp
    | some w => cases encodeBytes S tab <;> simp

/-- Every symbol of the table of `S` has a code word. -/
theorem lookup_codes_count_isSome {S : List Byte} {s : Sym} (h : s ∈ (count S).map (·.1)) :
    ((codes (build (count S))).lookup s).isSome := by
  obtain ⟨T, hT, -, hsyms, -⟩ := codeIsPrefixFree (count S) (count_ne_nil S) (count_sorted S)
  obtain ⟨e, he, rfl⟩ := List.mem_map.mp ((hsyms s).mp h)
  rw [hT, List.lookup_isSome_iff]
  exact ⟨e, he, beq_self_eq_true _⟩

/-- Settles O55: the table of an input has its bytes and EOS, and the encoder needs no others. -/
theorem encoderFindsEveryByte : Obligations.EncoderFindsEveryByte := by
  refine ⟨fun S tab ⟨b, hb, hnone⟩ => ?_, fun S => ?_⟩
  · rw [← Option.not_isSome_iff_eq_none, encodeBytes_isSome_iff]
    rintro ⟨-, hall⟩
    simpa [hnone] using hall b hb
  · rw [← Option.isSome_iff_exists, encodeBytes_isSome_iff]
    exact ⟨lookup_codes_count_isSome ((mem_count S _).mpr (.inl rfl)),
      fun b hb => lookup_codes_count_isSome ((mem_count S _).mpr (.inr ⟨b, hb, rfl⟩))⟩

/-! ### One distinct byte (R188) -/

/-- n + 1 copies of a byte put one entry into the table. -/
theorem byteTable_replicate (x : Byte) (n : Nat) :
    byteTable (List.replicate (n + 1) x) = [(.byte x, n + 1)] := by
  induction n with
  | zero => rfl
  | succ n ih =>
    rw [List.replicate_succ', byteTable_snoc, ih]
    simp [bump]

theorem bump_eos_byte (x : Byte) (n : Nat) :
    bump .eos [(.byte x, n)] = [(.byte x, n), (.eos, 1)] := by
  have hcode : ¬ Sym.eos.code.toNat < (Sym.byte x).code.toNat := by
    have := (Sym.byte x).code_le
    rw [Sym.code_eos]
    omega
  simp [bump, hcode]

/-- The code of two symbols: the lower count takes the zero-branch, and the earlier entry takes it
on a tie (R174, R176). -/
theorem codes_build_pair {e f : Sym × Nat} (h : e.1 ≠ f.1) :
    codes (build [e, f]) =
      if f.2 < e.2 then [(f.1, [false]), (e.1, [true])]
      else [(e.1, [false]), (f.1, [true])] := by
  have hq : initialQueue [e, f] =
      if f.2 < e.2 then [.leaf f.1 f.2 1, .leaf e.1 e.2 0]
      else [.leaf e.1 e.2 0, .leaf f.1 f.2 1] := rfl
  unfold build
  split_ifs at hq ⊢ with hlt
  · rw [hq]
    exact codes_eq_paths (r := .inner (f.2 + e.2) 2 (.leaf f.1 f.2 1) (.leaf e.1 e.2 0))
      (by simpa [RefNode.leafSyms] using h.symm)
  · rw [hq]
    exact codes_eq_paths (r := .inner (e.2 + f.2) 2 (.leaf e.1 e.2 0) (.leaf f.1 f.2 1))
      (by simpa [RefNode.leafSyms] using h)

/-- Settles O56: the table has two entries, and EOS has the lower count from n = 2 on. -/
theorem oneDistinctByteCode : Obligations.OneDistinctByteCode := by
  intro x n hn
  have hcount : count (List.replicate n x) = [(.byte x, n), (.eos, 1)] := by
    obtain ⟨m, rfl⟩ := Nat.exists_eq_add_of_le' hn
    rw [count_eq, byteTable_replicate, bump_eos_byte]
  refine ⟨hcount, ?_⟩
  rw [hcount, codes_build_pair (by simp)]
  by_cases h1 : n = 1
  · simp [h1]
  · have hlt : 1 < n := by omega
    simp [h1, hlt]

end Sys2Proof.Codec
end

