-- ==== Sys2Proof/Proofs/Exceptions.lean ====
section
/-! SUPPORT. The exceptions (60_exceptions.md): what a raise does inside and outside FAULT, that a
command raises a fault or answers without ERR, how FAULT is left, and the level of `irq`. -/

namespace Sys2Proof.Machine

/-! ### The fault primitive (R203, R206) -/

section
variable {s : State} (op : BitVec 4) (cause : Cause) (idx : NodeIdx) (b : Bool)

/-- The first fault of an episode is recorded. -/
theorem State.raise_of_ne_fault (hm : s.mode ≠ .fault) :
    s.raise op cause idx b =
      { s with mode := .fault, sticky := true, cause := cause, finfo := ⟨idx, b, op⟩,
               rsp := some Response.error } := by
  simp [State.raise, hm]

/-- A further fault of an episode is not recorded. -/
theorem State.raise_of_fault (hm : s.mode = .fault) :
    s.raise op cause idx b = { s with sticky := true, rsp := some Response.error } := by
  simp [State.raise, hm]

end

/-- Settles O16: the fault primitive's two branches. -/
theorem faultPrimitiveEffect : Obligations.FaultPrimitiveEffect := fun _ op cause idx b =>
  ⟨State.raise_of_ne_fault op cause idx b, State.raise_of_fault op cause idx b⟩

/-! ### A command raises a fault or answers without ERR (R204) -/

@[simp] theorem State.arrive_sticky (s : State) (c : NodeIdx) (cw : NodeWord) :
    (s.arrive c cw).sticky = s.sticky := by
  obtain ⟨-, h⟩ | ⟨-, -, h⟩ | ⟨-, h⟩ := s.arrive_cases c cw <;> rw [h] <;> rfl

/-- An arrival answers without ERR. -/
theorem State.arrive_rsp (s : State) (c : NodeIdx) (cw : NodeWord) :
    ∃ r, (s.arrive c cw).rsp = some r ∧ r.err = false := by
  obtain ⟨-, h⟩ | ⟨-, -, h⟩ | ⟨-, h⟩ := s.arrive_cases c cw <;> exact ⟨_, by rw [h]; rfl, rfl⟩

/-- A command raises a fault, or it answers without ERR and leaves STICKY as it was. -/
theorem exec_raises_or_answers {i : Instr} {s t : State} (h : exec i s = .next t) :
    (∃ cause idx b, t = s.raise i.opcode cause idx b) ∨
      (∃ r, t.rsp = some r ∧ r.err = false ∧ t.sticky = s.sticky) := by
  obtain ⟨cause, idx, b, -, rfl⟩ | ⟨-, rfl⟩ | ⟨_, _, -, -, -, -, rfl⟩ | ⟨_, -, -, rfl⟩ |
    ⟨-, -, rfl⟩ | ⟨_, _, -, -, rfl⟩ | ⟨_, -, rfl⟩ | ⟨_, -, -, rfl⟩ | ⟨-, -, rfl⟩ | ⟨-, rfl⟩ |
    ⟨_, _, -, -, -, -, -, -, rfl⟩ | ⟨-, -, -, rfl⟩ | ⟨-, -, rfl⟩ := exec_cases h
  case inl => exact .inl ⟨cause, idx, b, rfl⟩
  -- a step of the walk, whose answer depends on the node it arrives at
  case inr.inr.inr.inr.inr.inr.inr.inr.inr.inr.inl =>
    obtain ⟨r, hr, he⟩ := s.arrive_rsp _ _
    exact .inr ⟨r, hr, he, s.arrive_sticky _ _⟩
  all_goals exact .inr ⟨_, rfl, rfl, rfl⟩

/-- A command that answers ERR = 1 has raised a fault and done nothing else. -/
theorem exec_err {i : Instr} {s t : State} {r : Response} (h : exec i s = .next t)
    (hr : t.rsp = some r) (he : r.err = true) :
    ∃ cause idx b, t = s.raise i.opcode cause idx b := by
  obtain hraise | ⟨r', hr', he', -⟩ := exec_raises_or_answers h
  · exact hraise
  · obtain rfl : r = r' := Option.some.inj (hr.symm.trans hr')
    exact absurd he (by simp [he'])

/-- No command clears STICKY (10_state.md R28). -/
theorem exec_keeps_sticky {i : Instr} {s t : State} (h : exec i s = .next t)
    (hs : s.sticky = true) : t.sticky = true := by
  obtain ⟨_, _, _, rfl⟩ | ⟨_, -, -, ht⟩ := exec_raises_or_answers h
  · exact s.raise_sticky _ _ _ _
  · exact ht.trans hs

/-- Settles O17: ERR = 1 comes of a raise, which changes no field but the five; in an episode it
keeps the record. -/
theorem faultsArePrecise : Obligations.FaultsArePrecise := fun _ s _ _ h hr he => by
  obtain ⟨cause, idx, b, rfl⟩ := exec_err h hr he
  refine ⟨rfl, fun hm => ?_⟩
  rw [State.raise_of_fault _ cause idx b hm]
  exact ⟨rfl, rfl⟩

/-! ### How FAULT is left (R205) -/

/-- In FAULT every command but ABORT and a START that is accepted stays there with the record of
the first fault. -/
theorem exec_stays_in_fault {i : Instr} {s t : State} (h : exec i s = .next t)
    (hm : s.mode = .fault) (habort : i ≠ .abort) (hstart : i ≠ .start ∨ s.rootValid = false) :
    t.mode = .fault ∧ t.cause = s.cause ∧ t.finfo = s.finfo := by
  obtain ⟨cause, idx, b, -, rfl⟩ | ⟨-, rfl⟩ | ⟨_, _, -, -, -, -, rfl⟩ | ⟨_, -, -, rfl⟩ |
    ⟨-, -, rfl⟩ | ⟨_, _, -, -, rfl⟩ | ⟨_, -, rfl⟩ | ⟨_, -, -, rfl⟩ | ⟨hi, hroot, -⟩ | ⟨hi, -⟩ |
    ⟨_, _, -, hrun, -⟩ | ⟨-, -, -, rfl⟩ | ⟨-, hrun, -⟩ := exec_cases h
  -- a further fault
  case inl => simp [State.raise_of_fault _ cause idx b hm, hm]
  -- START accepted, ABORT, and the two commands that act in RUN only
  case inr.inr.inr.inr.inr.inr.inr.inr.inl => simp [hi, hroot] at hstart
  case inr.inr.inr.inr.inr.inr.inr.inr.inr.inl => exact absurd hi habort
  case inr.inr.inr.inr.inr.inr.inr.inr.inr.inr.inl => simp [hm] at hrun
  case inr.inr.inr.inr.inr.inr.inr.inr.inr.inr.inr.inr => simp [hm] at hrun
  all_goals exact ⟨hm, rfl, rfl⟩

/-- Settles O19: ABORT and START by their own rules, every other command in FAULT stays there, and
no command clears STICKY. -/
theorem faultLeftOnlyByStartOrAbort : Obligations.FaultLeftOnlyByStartOrAbort := by
  intro i s t h hm
  refine ⟨?_, ?_, exec_stays_in_fault h hm, exec_keeps_sticky h⟩
  · rintro rfl
    obtain rfl := execAbort_cases.mp h
    exact ⟨rfl, rfl, rfl⟩
  · rintro rfl hroot
    obtain rfl := Host.Outcome.next.inj ((exec_start_ok hroot).symm.trans h)
    exact ⟨rfl, rfl, rfl, rfl⟩

/-! ### The level of `irq` (R210) -/

/-- `irq` is high exactly when the source of the present STATE is enabled. -/
theorem State.irq_iff (s : State) :
    s.irq = true ↔ (s.ctrl.getLsbD 0 = true ∧ s.mode = .done) ∨
      (s.ctrl.getLsbD 1 = true ∧ s.mode = .malformed) ∨
      (s.ctrl.getLsbD 2 = true ∧ s.mode = .fault) := by
  simp [State.irq, State.ieDone, State.ieMal, State.ieFault, or_assoc]

/-- The eight bits below STATUS[8] are CAUSE, STICKY and STATE. -/
theorem State.statusWord_bit8 (s : State) : s.statusWord.getLsbD 8 = s.irq := by
  have hhigh : s.statusWord.getLsbD 8 = (0#23 ++ BitVec.ofBool s.irq).getLsbD 0 :=
    (getLsbD_append_high _ s.mode.code (by decide)).trans
      ((getLsbD_append_high _ (BitVec.ofBool s.sticky) (by decide)).trans
        (getLsbD_append_high _ s.cause.code (by decide)))
  rw [hhigh, getLsbD_append_low _ _ (by decide), BitVec.getLsbD_ofBool]
  simp

/-- No interrupt source is pending in IDLE and in RUN. -/
theorem State.irq_eq_false {s : State} (hm : s.mode = .idle ∨ s.mode = .run) : s.irq = false := by
  obtain hm | hm := hm <;> simp [State.irq, hm]

/-- Settles O22: the level by its three sources, and STATUS by the place of its fields. -/
theorem irqIsALevelOfState : Obligations.IrqIsALevelOfState := fun s =>
  ⟨s.irq_iff, ⟨_, rfl, s.statusWord_bit8⟩, State.irq_eq_false⟩

end Sys2Proof.Machine
end

