-- ==== Sys2Proof/Proofs/Encoding.lean ====
section
/-! SUPPORT. The encoder against the decoder (30_encoding.md R71-R73): format by format, a word put
together decodes to its operand, and a word that decodes is put together from its operand. -/

namespace Sys2Proof

open Sys2Proof.Machine

/-! ### Decoding an encoded instruction -/

/-- The operand under the opcode and the reserved bits, whichever two are grouped. -/
theorem word_regroup {n k m : Nat} (h : n + k = m) (op : BitVec 4) (x : BitVec n)
    (y : BitVec k) : op ++ (x ++ y).cast h = ((op ++ x) ++ y).cast (by omega) := by
  subst h
  simp [BitVec.append_assoc]

theorem decode_encode_bit (b : Bool) : decode (encode (.bit b)) = .ok (.bit b) := by
  cases b with
  | false => decide
  | true => decide

/-- No bit of an encoding is dropped. -/
theorem decode_encode {i : Instr} (h : i.wellFormed = true) : decode (encode i) = .ok i := by
  cases i with
  | nop => exact decode_nop _
  | nodeWrite idx data =>
    have hw : encode (.nodeWrite idx data) = ⟨0x1#4 ++ 0#18 ++ idx, data⟩ :=
      congrArg (Command.mk · data) (word_regroup (n := 18) (k := 10) rfl 0x1#4 0#18 idx)
    rw [hw, decode_nodeWrite]
  | nodeRead idx =>
    have hw : encode (.nodeRead idx) = ⟨0x2#4 ++ 0#18 ++ idx, 0#32⟩ :=
      congrArg (Command.mk · 0#32) (word_regroup (n := 18) (k := 10) rfl 0x2#4 0#18 idx)
    rw [hw, decode_nodeRead]
  | treeClear => exact decode_treeClear _
  | regRead ra =>
    have hw : encode (.regRead ra) = ⟨0x4#4 ++ 0#24 ++ ra.code, 0#32⟩ :=
      congrArg (Command.mk · 0#32) (word_regroup (n := 24) (k := 4) rfl 0x4#4 0#24 ra.code)
    rw [hw, decode_regRead, RegName.ofCode_code h]
  | regWrite ra data =>
    have hw : encode (.regWrite ra data) = ⟨0x5#4 ++ 0#24 ++ ra.code, data⟩ :=
      congrArg (Command.mk · data) (word_regroup (n := 24) (k := 4) rfl 0x5#4 0#24 ra.code)
    rw [hw, decode_regWrite, RegName.ofCode_code h]
  | start => exact decode_start _
  | abort => exact decode_abort _
  | bit b => exact decode_encode_bit b
  | endInput => exact decode_endInput _

/-- Settles O2: each command by its format. -/
theorem decodeEncodeAgree : Obligations.DecodeEncodeAgree := fun _ h => decode_encode h

/-- Settles O1: each word by evaluation of the decoder. -/
theorem writtenWordsDecode : Obligations.WrittenWordsDecode := by
  unfold Obligations.WrittenWordsDecode
  decide

/-! ### Encoding a decoded word -/

section
variable {w : Word} {i : Instr}

theorem decodeZ_ok {j : Instr} (h : decodeZ w j = .ok i) : i = j ∧ w = opField w ++ 0#28 := by
  unfold decodeZ at h
  split at h
  · next h0 =>
    refine ⟨(Except.ok.inj h).symm, ?_⟩
    rw [← h0]
    exact cmd_split w
  · cases h

theorem decodeN_ok {f : NodeIdx → Instr} (h : decodeN w f = .ok i) :
    ∃ idx, i = f idx ∧ w = opField w ++ (0#18 ++ idx) := by
  unfold decodeN at h
  split at h
  · next h0 =>
    refine ⟨_, (Except.ok.inj h).symm, ?_⟩
    rw [← h0]
    exact (cmd_split w).trans (congrArg _ (extract_split w 0 10 18))
  · cases h

theorem decodeR_ok {f : RegName → Instr} (h : decodeR w f = .ok i) :
    ∃ ra : RegName, ra.wellFormed = true ∧ i = f ra ∧ w = opField w ++ (0#24 ++ ra.code) := by
  unfold decodeR at h
  split at h
  · next h0 =>
    refine ⟨_, RegName.wellFormed_ofCode _, (Except.ok.inj h).symm, ?_⟩
    rw [← h0, RegName.code_ofCode]
    exact (cmd_split w).trans (congrArg _ (extract_split w 0 4 24))
  · cases h

theorem decodeB_ok {f : Bool → Instr} (h : decodeB w f = .ok i) :
    ∃ b, i = f b ∧ w = opField w ++ (0#27 ++ BitVec.ofBool b) := by
  unfold decodeB at h
  split at h
  · next h0 =>
    refine ⟨_, (Except.ok.inj h).symm, ?_⟩
    rw [← h0, ← extract_bit]
    exact (cmd_split w).trans (congrArg _ (extract_split w 0 1 27))
  · cases h

end

/-- What O3 says of a transaction and the instruction it decodes to. -/
def EncodesBack (c : Command) (i : Instr) : Prop :=
  i.wellFormed = true ∧ (encode i).cmd = c.cmd ∧
    ((∃ idx, i = .nodeWrite idx c.wdata ∧ (encode i).wdata = c.wdata) ∨
      (∃ ra, i = .regWrite ra c.wdata ∧ (encode i).wdata = c.wdata) ∨
      ((∀ idx data, i ≠ .nodeWrite idx data) ∧ (∀ ra data, i ≠ .regWrite ra data) ∧
        (encode i).wdata = 0#32))

/-- One of the eight commands that ignore WDATA (R72). -/
theorem EncodesBack.of_no_wdata {c : Command} {i : Instr} (hwf : i.wellFormed = true)
    (hop : opField c.cmd = i.opcode) (hw : c.cmd = opField c.cmd ++ i.operandBits)
    (hnode : ∀ idx data, i ≠ .nodeWrite idx data) (hreg : ∀ ra data, i ≠ .regWrite ra data)
    (hdata : i.writeData = 0#32) : EncodesBack c i :=
  ⟨hwf, (hop ▸ hw).symm, .inr (.inr ⟨hnode, hreg, hdata⟩)⟩

/-- A command of format Z. -/
theorem EncodesBack.of_decodeZ {c : Command} {i j : Instr} (h : decodeZ c.cmd j = .ok i)
    (hj : j = .nop ∨ j = .treeClear ∨ j = .start ∨ j = .abort ∨ j = .endInput)
    (hop : opField c.cmd = j.opcode) : EncodesBack c i := by
  obtain ⟨rfl, hw⟩ := decodeZ_ok h
  obtain rfl | rfl | rfl | rfl | rfl := hj <;>
    exact .of_no_wdata rfl hop hw (by simp) (by simp) rfl

/-- The word is its opcode, its reserved bits 0 and its operand, so the encoder puts the same word
together. -/
theorem encodesBack_of_decode {c : Command} {i : Instr} (h : decode c = .ok i) :
    EncodesBack c i := by
  have hop : ∀ {n : Nat}, (opField c.cmd).toNat = n → opField c.cmd = BitVec.ofNat 4 n :=
    fun h => by rw [← h, BitVec.ofNat_toNat, BitVec.setWidth_eq]
  unfold decode at h
  split at h
  · next hn => exact .of_decodeZ h (by simp) (hop hn)
  · next hn =>
    obtain ⟨idx, rfl, hw⟩ := decodeN_ok h
    exact ⟨rfl, (hop hn ▸ hw).symm, .inl ⟨idx, rfl, rfl⟩⟩
  · next hn =>
    obtain ⟨idx, rfl, hw⟩ := decodeN_ok h
    exact .of_no_wdata rfl (hop hn) hw (by simp) (by simp) rfl
  · next hn => exact .of_decodeZ h (by simp) (hop hn)
  · next hn =>
    obtain ⟨ra, hwf, rfl, hw⟩ := decodeR_ok h
    exact .of_no_wdata hwf (hop hn) hw (by simp) (by simp) rfl
  · next hn =>
    obtain ⟨ra, hwf, rfl, hw⟩ := decodeR_ok h
    exact ⟨hwf, (hop hn ▸ hw).symm, .inr (.inl ⟨ra, rfl, rfl⟩)⟩
  · next hn => exact .of_decodeZ h (by simp) (hop hn)
  · next hn => exact .of_decodeZ h (by simp) (hop hn)
  · next hn =>
    obtain ⟨b, rfl, hw⟩ := decodeB_ok h
    exact .of_no_wdata rfl (hop hn) hw (by simp) (by simp) rfl
  · next hn => exact .of_decodeZ h (by simp) (hop hn)
  · cases h

/-- Settles O3: format by format. -/
theorem encodeDecodeAgree : Obligations.EncodeDecodeAgree := fun _ _ h => encodesBack_of_decode h

end Sys2Proof

namespace Sys2Proof.Machine

/-! ### Node words (R80) -/

theorem innerWord_toNat (z o : Option NodeIdx) :
    (innerWord z o).toNat = (o.getD 0#10).toNat * 2 ^ 21 + (z.getD 0#10).toNat * 2 ^ 11 +
      (if o.isSome then 1 else 0) * 2 ^ 10 + (if z.isSome then 1 else 0) * 2 ^ 9 + 257 := by
  have hbit : ∀ b : Bool, (BitVec.ofBool b).toNat = if b then 1 else 0 := by decide
  simp only [innerWord, toNat_append_eq_add, hbit, Config.nas, BitVec.toNat_ofNat]
  omega

/-- Settles O7: the internal word as the sum of its fields, and what its fields read as; a leaf
word is its symbol code extended by zeros. -/
theorem nodeWordLayout : Obligations.NodeWordLayout :=
  ⟨fun z o => ⟨innerWord_toNat z o, isLeaf_innerWord z o, branch_innerWord z o false,
      branch_innerWord z o true⟩,
    fun sym => ⟨BitVec.toNat_setWidth_of_le (by decide), sym_leafWord sym⟩⟩

end Sys2Proof.Machine
end

