-- ==== Sys2Proof/Proofs/Invariant.lean ====
section
/-! SUPPORT. The invariant (10_state.md section 5): it holds at reset, and every command, an illegal
word, a reset and the passing of an edge keep it. -/

namespace Sys2Proof.Machine

/-! ### At reset -/

theorem State.powerOn_inv {n : Nat} (h : Config.nodeCountMin ≤ n ∧ n ≤ Config.nodeCountMax) :
    (State.powerOn n).Inv where
  params := h
  treeWf := Memory.wf_nil
  entries := nofun
  curInside := Nat.lt_of_lt_of_le (by decide : 0 < Config.nodeCountMin) h.1
  depthBound := Nat.lt_of_lt_of_le (by decide : 0 < Config.nodeCountMin) h.1
  runRoot := nofun
  runWalk := nofun
  record := ⟨by simp [State.powerOn], fun _ => rfl, nofun⟩

/-- Settles O47: NODE_COUNT is in its range, and the rest of the state after reset is empty. -/
theorem invariantHoldsAtReset : Obligations.InvariantHoldsAtReset :=
  ⟨State.powerOn_inv (by decide), fun _ hmin hmax => State.powerOn_inv ⟨hmin, hmax⟩⟩

/-! ### What the fields of the invariant read -/

/-- The ports are no part of the invariant. -/
theorem State.Inv.withPorts {s : State} (h : s.Inv) (x : Option Response) (a : List HostInput)
    (b : List Bool) (c : List Response) : (s.withPorts x a b c).Inv :=
  ⟨h.params, h.treeWf, h.entries, h.curInside, h.depthBound, h.runRoot, h.runWalk, h.record⟩

theorem State.Inv.respond {s : State} (h : s.Inv) (r : Response) : (s.respond r).Inv :=
  h.withPorts (some r) s.inputs s.rspReady s.taken

/-- Outside FAULT the record is empty. -/
theorem State.RecordOk.of_ne_fault {s : State} (hm : s.mode ≠ .fault) (hc : s.cause = .none)
    (hf : s.finfo = ⟨0#10, false, 0#4⟩) : s.RecordOk :=
  ⟨iff_of_false hm (not_not_intro hc), fun _ => hf, fun h => absurd h hm⟩

theorem State.RecordOk.cause_eq_none {s : State} (h : s.RecordOk) (hm : s.mode ≠ .fault) :
    s.cause = .none :=
  not_not.mp fun hc => hm (h.1.mpr hc)

theorem State.Inv.nodeCount_pos {s : State} (h : s.Inv) : 0 < s.nodeCount :=
  Nat.lt_of_lt_of_le (by decide) h.params.1

theorem State.Inv.nodeCount_le {s : State} (h : s.Inv) : s.nodeCount ≤ 1024 := h.params.2

/-- A written entry is inside the memory and legal. -/
theorem State.EntriesOk.of_memRead {s : State} (h : s.EntriesOk) {i : NodeIdx}
    (hi : (s.memRead i).1 = true) :
    i.toNat < s.nodeCount ∧ NodeWord.legal s.nodeCount (s.memRead i).2 = true :=
  h _ (Memory.mem_of_lookup (Memory.read_fst.mp hi))

/-- What START accepts is inside the memory, and a walk position of R36. -/
theorem State.rootValid_walkOk {s : State} (h : s.rootValid = true) :
    s.root.toNat < s.nodeCount ∧ (s.memRead s.root).1 = true ∧
      NodeWord.isLeaf (s.memRead s.root).2 = false := by
  obtain ⟨hi, hv, hs⟩ := s.rootValid_iff.mp h
  exact ⟨hi, hv, (NodeWord.isLeaf_eq_false_iff _).mpr hs⟩

/-! ### The effects of the commands -/

section
variable {s : State}

theorem State.Inv.raise (h : s.Inv) (op : BitVec 4) {c : Cause} (hc : c ≠ .none) (k : NodeIdx)
    (b : Bool) : (s.raise op c k b).Inv where
  params := h.params
  treeWf := h.treeWf
  entries := h.entries
  curInside := h.curInside
  depthBound := h.depthBound
  runRoot := nofun
  runWalk := nofun
  record := by
    refine ⟨iff_of_true rfl ?_, fun hm => absurd rfl hm, fun _ => rfl⟩
    by_cases hm : s.mode = .fault
    · simpa [hm] using h.record.1.mp hm
    · simpa [hm] using hc

theorem State.Inv.memWrite (h : s.Inv) (hm : s.mode ≠ .run) {idx : NodeIdx} {data : Word}
    (hi : idx.toNat < s.nodeCount) (hl : legalNode s.nodeCount data = true) :
    (s.memWrite idx data).Inv :=
  ⟨h.params, State.memWrite_wf h.treeWf idx data, h.entries.memWrite hi hl, h.curInside,
    h.depthBound, fun hr => absurd hr hm, fun hr => absurd hr hm, h.record⟩

theorem State.Inv.memClear (h : s.Inv) (hm : s.mode ≠ .run) : s.memClear.Inv :=
  ⟨h.params, s.memClear_wf, nofun, h.curInside, h.depthBound, fun hr => absurd hr hm,
    fun hr => absurd hr hm, h.record⟩

theorem State.Inv.setCtrl (h : s.Inv) (x : BitVec 3) : { s with ctrl := x }.Inv :=
  ⟨h.params, h.treeWf, h.entries, h.curInside, h.depthBound, h.runRoot, h.runWalk, h.record⟩

theorem State.Inv.setRoot (h : s.Inv) (hm : s.mode ≠ .run) (x : NodeIdx) :
    { s with root := x }.Inv :=
  ⟨h.params, h.treeWf, h.entries, h.curInside, h.depthBound, fun hr => absurd hr hm,
    fun hr => absurd hr hm, h.record⟩

/-- A run begins at the valid root, at depth 0. -/
theorem State.Inv.beginRun (h : s.Inv) (hr : s.rootValid = true) : s.beginRun.Inv where
  params := h.params
  treeWf := h.treeWf
  entries := h.entries
  curInside := (State.rootValid_walkOk hr).1
  depthBound := h.nodeCount_pos
  runRoot := fun _ => hr
  runWalk := fun _ => (State.rootValid_walkOk hr).2
  record := .of_ne_fault nofun rfl rfl

/-- ABORT: IDLE, with the record cleared. -/
theorem State.Inv.abort (h : s.Inv) : { s.clearFault with mode := .idle }.Inv :=
  ⟨h.params, h.treeWf, h.entries, h.curInside, h.depthBound, nofun, nofun,
    .of_ne_fault nofun rfl rfl⟩

/-- END in RUN: the record stays empty. -/
theorem State.Inv.endMalformed (h : s.Inv) (hm : s.mode = .run) :
    { s with mode := .malformed }.Inv := by
  have hne : s.mode ≠ .fault := by simp [hm]
  exact ⟨h.params, h.treeWf, h.entries, h.curInside, h.depthBound, nofun, nofun,
    .of_ne_fault nofun (h.record.cause_eq_none hne) (h.record.2.1 hne)⟩

/-- The depth of a bit that raises no DEPTH_OVERFLOW does not wrap. -/
theorem State.Inv.depth_succ (h : s.Inv) (hd : s.depth.toNat + 1 < s.nodeCount) :
    (s.depth + 1#11).toNat = s.depth.toNat + 1 := by
  have := h.nodeCount_le
  simp only [BitVec.toNat_add, BitVec.toNat_ofNat]
  omega

/-- An arrival from RUN at a written entry: the EOS leaf ends the run, a byte leaf returns to the
valid root, and an internal node is a walk position. -/
theorem State.Inv.arrive (h : s.Inv) (hm : s.mode = .run) {c : NodeIdx}
    (hc : (s.memRead c).1 = true) (hd : s.depth.toNat + 1 < s.nodeCount) :
    (s.arrive c (s.memRead c).2).Inv := by
  have hne : s.mode ≠ .fault := by simp [hm]
  have hcause := h.record.cause_eq_none hne
  have hfinfo := h.record.2.1 hne
  have hinside := (h.entries.of_memRead hc).1
  have hdepth : (s.depth + 1#11).toNat + 1 ≤ s.nodeCount := by
    rw [h.depth_succ hd]
    omega
  obtain ⟨-, ht⟩ | ⟨-, -, ht⟩ | ⟨hinner, ht⟩ := s.arrive_cases c (s.memRead c).2 <;>
    rw [ht] <;> refine State.Inv.respond ?_ _
  · exact ⟨h.params, h.treeWf, h.entries, hinside, hdepth, nofun, nofun,
      .of_ne_fault nofun hcause hfinfo⟩
  · have hroot := State.rootValid_walkOk (h.runRoot hm)
    exact ⟨h.params, h.treeWf, h.entries, hroot.1, h.nodeCount_pos, h.runRoot, fun _ => hroot.2,
      h.record⟩
  · exact ⟨h.params, h.treeWf, h.entries, hinside, hdepth, h.runRoot, fun _ => ⟨hc, hinner⟩,
      h.record⟩

end

/-! ### Every command and every step -/

theorem exec_keeps_inv {i : Instr} {s t : State} (hs : s.Inv) (h : exec i s = .next t) :
    t.Inv := by
  obtain ⟨_, _, _, hc, rfl⟩ | ⟨-, rfl⟩ | ⟨_, _, -, hm, hi, hl, rfl⟩ | ⟨_, -, -, rfl⟩ |
    ⟨-, hm, rfl⟩ | ⟨_, _, -, -, rfl⟩ | ⟨_, -, rfl⟩ | ⟨_, -, hm, rfl⟩ | ⟨-, hr, rfl⟩ | ⟨-, rfl⟩ |
    ⟨_, _, -, hm, -, -, hv, hd, rfl⟩ | ⟨-, -, -, rfl⟩ | ⟨-, hm, rfl⟩ := exec_cases h
  · exact hs.raise _ hc _ _
  · exact hs.respond _
  · exact (hs.memWrite hm hi hl).respond _
  · exact hs.respond _
  · exact (hs.memClear hm).respond _
  · exact hs.respond _
  · exact (hs.setCtrl _).respond _
  · exact (hs.setRoot hm _).respond _
  · exact (hs.beginRun hr).respond _
  · exact hs.abort.respond _
  · exact hs.arrive hm hv hd
  · exact hs.respond _
  · exact (hs.endMalformed hm).respond _

/-- An accepted transaction, legal or not. -/
theorem issue_keeps_inv {c : Command} {s t : State} (hs : s.Inv) (h : issue c s = .next t) :
    t.Inv := by
  unfold issue at h
  split at h
  · exact exec_keeps_inv hs h
  · obtain rfl := Host.Outcome.next.inj h
    exact hs.raise _ (by decide) _ _

/-- The response side moves the ports only. -/
theorem State.settle_eq_withPorts (s : State) :
    s.settle = s.withPorts s.settle.rsp s.settle.inputs s.settle.rspReady s.settle.taken := by
  unfold State.settle
  split <;> [rfl; (split <;> rfl)]

theorem State.Inv.applyReset {s : State} (h : s.Inv) : s.applyReset.Inv :=
  (State.powerOn_inv h.params).withPorts none s.inputs s.rspReady.tail s.taken

/-- Settles O48: the ports are no part of the invariant, so a step is a reset, a command, or
nothing. -/
theorem stepKeepsInvariant : Obligations.StepKeepsInvariant := by
  intro s t hs h
  obtain ⟨-, -, ht⟩ | ⟨_, rest, -, rfl⟩ | ⟨c, rest, -, -, h⟩ := step_cases h
  · rw [ht, s.settle_eq_withPorts]
    exact (hs.withPorts _ _ _ _).withPorts _ t.inputs _ _
  · exact State.Inv.applyReset (hs.withPorts s.rsp rest s.rspReady s.taken)
  · exact issue_keeps_inv (hs.withPorts _ _ _ _) h

end Sys2Proof.Machine
end

