-- ==== Sys2Proof/Proofs/Commands.lean ====
section
/-! SUPPORT. What holds of every command: its response and STICKY, the causes it can record, what
it leaves of the tree memory, ROOT, CUR and the counters, its next STATE, that repeating it changes
nothing, and that STICKY does not steer it. -/

namespace Sys2Proof.Machine

/-! ### Responses -/

section
variable {s : State} {r : Response}

/-- A raised fault answers ERR = 1. -/
theorem State.raise_err {op : BitVec 4} {c : Cause} {k : NodeIdx} {b : Bool}
    (hr : (s.raise op c k b).rsp = some r) : r.err = true := by
  obtain rfl := Option.some.inj hr
  rfl

/-- The response given is the one at the port. -/
theorem State.respond_eq {q : Response} (hr : (s.respond q).rsp = some r) : r = q :=
  (Option.some.inj hr).symm

end

/-- Settles O20: a raise sets STICKY with ERR = 1, and every other answer leaves both. -/
theorem stickySetByFaultsOnly : Obligations.StickySetByFaultsOnly := fun i s t r h hr => by
  obtain ⟨_, _, _, rfl⟩ | ⟨q, hq, he, hs⟩ := exec_raises_or_answers h
  · simp [State.raise_err hr]
  · obtain rfl : r = q := Option.some.inj (hr.symm.trans hq)
    simp [hs, he]

/-- An arrival that delivers nothing answers all 0 and does not enter FAULT; one that delivers a
byte stays in RUN. -/
theorem State.arrive_response {s : State} (hm : s.mode = .run) (c : NodeIdx) (cw : NodeWord) :
    ((s.arrive c cw).rsp = some .ok ∧ (s.arrive c cw).mode ≠ .fault) ∨
      ∃ x, (s.arrive c cw).rsp = some (.byte x) ∧ (s.arrive c cw).mode = .run := by
  obtain ⟨-, ht⟩ | ⟨-, -, ht⟩ | ⟨-, ht⟩ := s.arrive_cases c cw <;> rw [ht]
  · exact .inl ⟨rfl, nofun⟩
  · exact .inr ⟨_, rfl, hm⟩
  · exact .inl ⟨rfl, by simp [hm]⟩

/-- The four responses there are: of a raised fault, of a command without a result, of a read, and
of a BIT that delivers a byte. -/
theorem exec_response_cases {i : Instr} {s t : State} (h : exec i s = .next t) :
    (t.rsp = some .error ∧ t.mode = .fault) ∨
    (t.rsp = some .ok ∧ (t.mode = .fault → s.mode = .fault ∧ t.cause = s.cause)) ∨
    (∃ v, t.rsp = some (.data v) ∧ ((∃ ra, i = .regRead ra) ∨ ∃ idx, i = .nodeRead idx) ∧
      t.mode = s.mode ∧ t.cause = s.cause) ∨
    (∃ x, t.rsp = some (.byte x) ∧ (∃ b, i = .bit b) ∧ s.mode = .run ∧ t.mode = .run) := by
  obtain ⟨_, _, _, -, rfl⟩ | ⟨-, rfl⟩ | ⟨_, _, -, -, -, -, rfl⟩ | ⟨idx, hi, -, rfl⟩ |
    ⟨-, -, rfl⟩ | ⟨ra, _, hi, -, rfl⟩ | ⟨_, -, rfl⟩ | ⟨_, -, -, rfl⟩ | ⟨-, -, rfl⟩ | ⟨-, rfl⟩ |
    ⟨b, _, hi, hm, -, -, -, -, rfl⟩ | ⟨-, -, -, rfl⟩ | ⟨-, -, rfl⟩ := exec_cases h
  case inl => exact .inl ⟨rfl, rfl⟩
  -- the two reads
  case inr.inr.inr.inl => exact .inr (.inr (.inl ⟨_, rfl, .inr ⟨idx, hi⟩, rfl, rfl⟩))
  case inr.inr.inr.inr.inr.inl => exact .inr (.inr (.inl ⟨_, rfl, .inl ⟨ra, hi⟩, rfl, rfl⟩))
  -- START, ABORT and END in RUN leave FAULT or never see it
  case inr.inr.inr.inr.inr.inr.inr.inr.inl => exact .inr (.inl ⟨rfl, nofun⟩)
  case inr.inr.inr.inr.inr.inr.inr.inr.inr.inl => exact .inr (.inl ⟨rfl, nofun⟩)
  case inr.inr.inr.inr.inr.inr.inr.inr.inr.inr.inr.inr => exact .inr (.inl ⟨rfl, nofun⟩)
  case inr.inr.inr.inr.inr.inr.inr.inr.inr.inr.inl =>
    obtain ⟨hr, hne⟩ | ⟨x, hr, hrun⟩ := State.arrive_response hm _ _
    · exact .inr (.inl ⟨hr, fun hf => absurd hf hne⟩)
    · exact .inr (.inr (.inr ⟨x, hr, ⟨b, hi⟩, hm, hrun⟩))
  all_goals exact .inr (.inl ⟨rfl, fun hf => ⟨hf, rfl⟩⟩)

/-- Settles O21: the limits on the fields, response by response. -/
theorem oneResponsePerCommand : Obligations.OneResponsePerCommand := fun i s t h => by
  obtain ⟨hr, hf⟩ | ⟨hr, hf⟩ | ⟨v, hr, hi, hm, hc⟩ | ⟨x, hr, hi, hm, hm'⟩ := exec_response_cases h
  · exact ⟨_, hr, nofun, nofun, fun _ => rfl, fun _ => ⟨rfl, rfl, hf⟩, nofun⟩
  · exact ⟨_, hr, nofun, nofun, fun _ => rfl, nofun, fun _ => hf⟩
  · exact ⟨_, hr, fun _ => hi, nofun, fun _ => rfl, nofun, fun _ h' => ⟨hm ▸ h', hc⟩⟩
  · exact ⟨_, hr, nofun, fun _ => ⟨hi, hm, hm'⟩, nofun, nofun, fun _ h' => by simp [hm'] at h'⟩

/-! ### The causes (R201) -/

/-- A command that answers without ERR records no fault. -/
theorem State.respond_not_err {s : State} {q r : Response} (hr : (s.respond q).rsp = some r)
    (he : r.err = true) (hq : q.err = false) : False := by
  simp [State.respond_eq hr, hq] at he

/-- Settles O18: command by command, the branches that raise; outside FAULT a raise records what it
is given. -/
theorem causesByCommand : Obligations.CausesByCommand := by
  intro i s t r h hr he hm
  cases i with
  | nop =>
    obtain rfl := execNop_cases.mp h
    exact (State.respond_not_err hr he rfl).elim
  | nodeWrite idx data =>
    obtain ⟨-, rfl⟩ | ⟨-, -, rfl⟩ | ⟨-, -, -, rfl⟩ | ⟨-, -, -, rfl⟩ := execNodeWrite_cases h
    · simp [hm, Instr.opcode]
    · simp [hm, Instr.opcode]
    · simp [hm, Instr.opcode]
    · exact (State.respond_not_err hr he rfl).elim
  | nodeRead idx =>
    obtain ⟨-, rfl⟩ | ⟨-, rfl⟩ := execNodeRead_cases h
    · simp [hm, Instr.opcode]
    · exact (State.respond_not_err hr he rfl).elim
  | treeClear =>
    obtain ⟨-, rfl⟩ | ⟨-, rfl⟩ := execTreeClear_cases h
    · simp [hm, Instr.opcode]
    · exact (State.respond_not_err hr he rfl).elim
  | regRead ra =>
    obtain ⟨_, -, rfl⟩ | ⟨-, rfl⟩ := execRegRead_cases h
    · exact (State.respond_not_err hr he rfl).elim
    · simp [hm, Instr.opcode]
  | regWrite ra data =>
    obtain ⟨-, rfl⟩ | ⟨-, -, rfl⟩ | ⟨-, -, rfl⟩ | ⟨-, -, rfl⟩ := execRegWrite_cases h
    · exact (State.respond_not_err hr he rfl).elim
    · simp [hm, Instr.opcode]
    · exact (State.respond_not_err hr he rfl).elim
    · simp [hm, Instr.opcode]
  | start =>
    obtain ⟨-, rfl⟩ | ⟨-, rfl⟩ := execStart_cases h
    · simp [hm, Instr.opcode]
    · exact (State.respond_not_err hr he rfl).elim
  | abort =>
    obtain rfl := execAbort_cases.mp h
    exact (State.respond_not_err hr he rfl).elim
  | bit b =>
    obtain ⟨-, rfl⟩ | ⟨-, rfl⟩ | ⟨-, -, rfl⟩ := execBit_cases h
    · simp [hm, Instr.opcode]
    · obtain ⟨-, ht⟩ | ⟨-, -, ht⟩ | ⟨-, -, -, ht⟩ | ⟨-, -, -, ht⟩ := walkBit_cases_read b s rfl
      · simp [ht, hm, Instr.opcode]
      · simp [ht, hm, Instr.opcode]
      · simp [ht, hm, Instr.opcode]
      · obtain ⟨q, hq, hq'⟩ := s.arrive_rsp (NodeWord.branch (s.memRead s.cur).2 b).2
          (s.memRead (NodeWord.branch (s.memRead s.cur).2 b).2).2
        rw [ht, hq] at hr
        simp [← Option.some.inj hr, hq'] at he
    · exact (State.respond_not_err hr he rfl).elim
  | endInput =>
    obtain ⟨-, rfl⟩ | ⟨-, rfl⟩ | ⟨-, -, rfl⟩ := execEndInput_cases h
    · simp [hm, Instr.opcode]
    · exact (State.respond_not_err hr he rfl).elim
    · exact (State.respond_not_err hr he rfl).elim

/-! ### The tree memory, ROOT and CUR -/

@[simp] theorem State.arrive_root (s : State) (c : NodeIdx) (cw : NodeWord) :
    (s.arrive c cw).root = s.root := by
  obtain ⟨-, h⟩ | ⟨-, -, h⟩ | ⟨-, h⟩ := s.arrive_cases c cw <;> rw [h] <;> rfl

/-- Who writes the tree memory and ROOT: NODE_WRITE, TREE_CLEAR and REG_WRITE ROOT, outside RUN. -/
theorem exec_tree_root_cases {i : Instr} {s t : State} (h : exec i s = .next t) :
    (t.tree = s.tree ∨ s.mode ≠ .run ∧
      ((∃ idx data, i = .nodeWrite idx data ∧ t.tree = (s.memWrite idx data).tree) ∨
        (i = .treeClear ∧ t.tree = s.memClear.tree))) ∧
    (t.root = s.root ∨ s.mode ≠ .run ∧ ∃ data, i = .regWrite .root data) := by
  obtain ⟨_, _, _, -, rfl⟩ | ⟨-, rfl⟩ | ⟨idx, data, hi, hm, -, -, rfl⟩ | ⟨_, -, -, rfl⟩ |
    ⟨hi, hm, rfl⟩ | ⟨_, _, -, -, rfl⟩ | ⟨_, -, rfl⟩ | ⟨data, hi, hm, rfl⟩ | ⟨-, -, rfl⟩ |
    ⟨-, rfl⟩ | ⟨_, _, -, -, -, -, -, -, rfl⟩ | ⟨-, -, -, rfl⟩ | ⟨-, -, rfl⟩ := exec_cases h
  case inr.inr.inl => exact ⟨.inr ⟨hm, .inl ⟨idx, data, hi, rfl⟩⟩, .inl rfl⟩
  case inr.inr.inr.inr.inl => exact ⟨.inr ⟨hm, .inr ⟨hi, rfl⟩⟩, .inl rfl⟩
  case inr.inr.inr.inr.inr.inr.inr.inl => exact ⟨.inl rfl, .inr ⟨hm, data, hi⟩⟩
  all_goals exact ⟨.inl (by simp), .inl (by simp)⟩

/-- Settles O29: a NODE_WRITE of another entry leaves the entry, by the law of a read after a
write. -/
theorem treeChangesOnlyByWriteAndClear : Obligations.TreeChangesOnlyByWriteAndClear := by
  intro i s t j h
  obtain ⟨ht | ⟨hm, ⟨idx, data, rfl, ht⟩ | ⟨rfl, ht⟩⟩, -⟩ := exec_tree_root_cases h
  · exact .inl (State.memRead_congr ht j)
  · rw [State.memRead_congr ht j]
    by_cases hj : j = idx
    · subst hj
      exact .inr (.inl ⟨data, rfl, hm, s.memWrite_memRead_self j data⟩)
    · exact .inl (s.memWrite_memRead_of_ne data hj)
  · rw [State.memRead_congr ht j]
    exact .inr (.inr ⟨rfl, hm, s.memClear_memRead j⟩)

/-- Settles O30: every write of the two is outside RUN. -/
theorem treeAndRootFrozenInRun : Obligations.TreeAndRootFrozenInRun := fun _ _ _ h hm =>
  have ⟨htree, hroot⟩ := exec_tree_root_cases h
  ⟨htree.resolve_right fun hw => hw.1 hm, hroot.resolve_right fun hw => hw.1 hm⟩

/-- An arrival leaves CUR at the root or at the child. -/
theorem State.arrive_cur (s : State) (c : NodeIdx) (cw : NodeWord) :
    (s.arrive c cw).cur = s.root ∨ (s.arrive c cw).cur = c := by
  obtain ⟨-, h⟩ | ⟨-, -, h⟩ | ⟨-, h⟩ := s.arrive_cases c cw <;> rw [h]
  · exact .inr rfl
  · exact .inl rfl
  · exact .inr rfl

/-- Settles O44: only START and an arrival write CUR. -/
theorem curComesFromRootOrChild : Obligations.CurComesFromRootOrChild := by
  intro i s t h hne
  obtain ⟨_, _, _, -, rfl⟩ | ⟨-, rfl⟩ | ⟨_, _, -, -, -, -, rfl⟩ | ⟨_, -, -, rfl⟩ |
    ⟨-, -, rfl⟩ | ⟨_, _, -, -, rfl⟩ | ⟨_, -, rfl⟩ | ⟨_, -, -, rfl⟩ | ⟨hi, -, rfl⟩ |
    ⟨-, rfl⟩ | ⟨b, _, hi, hm, rfl, -, -, -, rfl⟩ | ⟨-, -, -, rfl⟩ | ⟨-, -, rfl⟩ := exec_cases h
  case inr.inr.inr.inr.inr.inr.inr.inr.inl => exact .inl ⟨hi, rfl⟩
  case inr.inr.inr.inr.inr.inr.inr.inr.inr.inr.inl =>
    exact .inr ⟨b, hi, hm, s.arrive_cur _ _⟩
  all_goals exact absurd rfl hne

/-! ### The counters (R30) -/

/-- What a command does to BITCNT and OUTCNT: START clears both, a BIT of RUN without a fault counts
itself and the byte it delivers, and every other command leaves both and delivers nothing. -/
theorem exec_counters_cases {i : Instr} {s t : State} {r : Response} (h : exec i s = .next t)
    (hr : t.rsp = some r) :
    (i = .start ∧ r.err = false ∧ t.bitcnt = 0#32 ∧ t.outcnt = 0#32) ∨
    ((i = .bit false ∨ i = .bit true) ∧ s.mode = .run ∧ r.err = false ∧
      t.bitcnt = s.bitcnt + 1#32 ∧ t.outcnt = s.outcnt + (if r.emit = true then 1#32 else 0#32)) ∨
    ((i = .bit false ∨ i = .bit true → s.mode = .run → r.err = true) ∧
      (i = .start → r.err = true) ∧ r.emit = false ∧ t.bitcnt = s.bitcnt ∧ t.outcnt = s.outcnt) := by
  obtain ⟨_, _, _, -, rfl⟩ | ⟨rfl, rfl⟩ | ⟨_, _, rfl, -, -, -, rfl⟩ | ⟨_, rfl, -, rfl⟩ |
    ⟨rfl, -, rfl⟩ | ⟨_, _, rfl, -, rfl⟩ | ⟨_, rfl, rfl⟩ | ⟨_, rfl, -, rfl⟩ | ⟨rfl, -, rfl⟩ |
    ⟨rfl, rfl⟩ | ⟨b, _, rfl, hm, rfl, -, -, -, rfl⟩ | ⟨hi, -, hm, rfl⟩ | ⟨rfl, -, rfl⟩ :=
      exec_cases h
  case inl =>
    obtain rfl := Option.some.inj hr
    exact .inr (.inr ⟨fun _ _ => rfl, fun _ => rfl, rfl, rfl, rfl⟩)
  case inr.inr.inr.inr.inr.inr.inr.inr.inl =>
    obtain rfl := State.respond_eq hr
    exact .inl ⟨rfl, rfl, rfl, rfl⟩
  case inr.inr.inr.inr.inr.inr.inr.inr.inr.inr.inl =>
    refine .inr (.inl ⟨by simp, hm, ?_⟩)
    obtain ⟨-, ht⟩ | ⟨-, -, ht⟩ | ⟨-, ht⟩ := s.arrive_cases
        (NodeWord.branch (s.memRead s.cur).2 b).2
        (s.memRead (NodeWord.branch (s.memRead s.cur).2 b).2).2 <;>
      rw [ht] at hr ⊢ <;> obtain rfl := State.respond_eq hr <;>
      simp [Response.ok, Response.byte]
  -- BIT and END outside RUN
  case inr.inr.inr.inr.inr.inr.inr.inr.inr.inr.inr.inl =>
    obtain rfl := State.respond_eq hr
    exact .inr (.inr ⟨fun _ hrun => absurd hrun hm, fun hs => by simp [hs] at hi, rfl, rfl, rfl⟩)
  all_goals
    obtain rfl := State.respond_eq hr
    exact .inr (.inr ⟨by simp, by simp, rfl, rfl, rfl⟩)

/-- Settles O45: the three ways of the counters. -/
theorem countersCountBitsAndBytes : Obligations.CountersCountBitsAndBytes := by
  intro i s t r h hr
  obtain ⟨hi, he, hb, ho⟩ | ⟨hi, hm, he, hb, ho⟩ | ⟨hbits, hstart, hem, hb, ho⟩ :=
    exec_counters_cases h hr
  · simp [hi, he, hb, ho]
  · have hns : i ≠ .start := by
      rintro rfl
      simp at hi
    exact ⟨fun hs => absurd hs hns, fun _ => ⟨by rw [if_pos ⟨hi, hm, he⟩, hb], ho⟩⟩
  · refine ⟨fun hi he => by simp [hstart hi] at he, fun _ => ⟨?_, by simp [hem, ho]⟩⟩
    rw [if_neg fun ⟨hi, hm, he⟩ => by simp [hbits hi hm] at he]
    simp [hb]

end Sys2Proof.Machine
end

