-- ==== Sys2Proof/Proofs/Transitions.lean ====
section
/-! SUPPORT. The state transition table (10_state.md section 2), that repeating a command changes
nothing (20_memory.md R54), and that STICKY does not steer a command (60_exceptions.md R208). -/

namespace Sys2Proof.Machine

/-! ### The state transition table -/

/-- A cell of the table: the command faults exactly under `P`, which makes STATE = FAULT, and
otherwise STATE becomes `m`. -/
def Transition (r : Response) (t : State) (P : Prop) (m : Mode) : Prop :=
  (r.err = true ↔ P) ∧ (r.err = true → t.mode = .fault) ∧ (r.err = false → t.mode = m)

section
variable {s : State} {r : Response} {P : Prop} {m : Mode}

theorem Transition.raise {op : BitVec 4} {c : Cause} {k : NodeIdx} {b : Bool}
    (hr : (s.raise op c k b).rsp = some r) (hP : P) : Transition r (s.raise op c k b) P m := by
  have he := State.raise_err hr
  exact ⟨iff_of_true he hP, fun _ => rfl, fun h => by simp [he] at h⟩

/-- A command that answers without ERR. -/
theorem Transition.answer {t : State} (he : r.err = false) (hP : ¬ P) (hm : t.mode = m) :
    Transition r t P m := by
  simp [Transition, he, hP, hm]

theorem Transition.respond {q : Response} (hr : (s.respond q).rsp = some r) (hq : q.err = false)
    (hP : ¬ P) (hm : s.mode = m) : Transition r (s.respond q) P m :=
  .answer (State.respond_eq hr ▸ hq) hP hm

end

/-- An arrival from RUN: DONE at the EOS leaf, and RUN elsewhere. -/
theorem State.arrive_mode {s : State} (hm : s.mode = .run) (c : NodeIdx) (cw : NodeWord) :
    (s.arrive c cw).mode = if NodeWord.sym cw = Config.eos then .done else .run := by
  obtain ⟨hs, ht⟩ | ⟨-, hs, ht⟩ | ⟨hl, ht⟩ := s.arrive_cases c cw <;> rw [ht]
  · simp [hs]
  · simp [hs, hm]
  · have hne : NodeWord.sym cw ≠ Config.eos := by
      rw [(NodeWord.isLeaf_eq_false_iff cw).mp hl]
      decide
    simp [hne, hm]

/-- BIT in RUN: a fault of the walk, or an arrival. -/
theorem walkBit_transition {b : Bool} {s : State} {r : Response} (hm : s.mode = .run)
    (hr : (walkBit b s).rsp = some r) :
    Transition r (walkBit b s)
      ((NodeWord.branch (s.memRead s.cur).2 b).1 = false ∨
        (s.memRead (NodeWord.branch (s.memRead s.cur).2 b).2).1 = false ∨
        s.nodeCount ≤ s.depth.toNat + 1)
      (if NodeWord.sym (s.memRead (NodeWord.branch (s.memRead s.cur).2 b).2).2 = 256#9
        then .done else .run) := by
  obtain ⟨hp, ht⟩ | ⟨-, hv, ht⟩ | ⟨-, -, hd, ht⟩ | ⟨hp, hv, hd, ht⟩ :=
    walkBit_cases_read b s rfl <;> rw [ht] at hr ⊢
  · exact .raise hr (.inl hp)
  · exact .raise hr (.inr (.inl hv))
  · exact .raise hr (.inr (.inr hd))
  · obtain ⟨q, hq, he⟩ := s.arrive_rsp (NodeWord.branch (s.memRead s.cur).2 b).2
      (s.memRead (NodeWord.branch (s.memRead s.cur).2 b).2).2
    obtain rfl : r = q := Option.some.inj (hr.symm.trans hq)
    exact .answer he (by simp [hp, hv, hd]) (State.arrive_mode hm _ _)

/-- Settles O46: the table, command by command, and an illegal word. -/
theorem stateTransitions : Obligations.StateTransitions := by
  refine ⟨fun i s => ?_, fun c e s he => ⟨_, issue_of_decode_error rfl he s, rfl⟩⟩
  obtain ⟨t, r, h, hr⟩ := exec_next i s
  refine ⟨t, r, h, hr, ?_⟩
  cases i with
  | nop =>
    obtain rfl := execNop_cases.mp h
    exact Transition.respond hr rfl id rfl
  | nodeWrite idx data =>
    obtain ⟨hm, rfl⟩ | ⟨hm, hi, rfl⟩ | ⟨hm, hi, hl, rfl⟩ | ⟨hm, hi, hl, rfl⟩ :=
      execNodeWrite_cases h
    · exact Transition.raise hr (.inl hm)
    · exact Transition.raise hr (.inr (.inl hi))
    · exact Transition.raise hr (.inr (.inr hl))
    · exact Transition.respond hr rfl (by simp [hm, hi, hl]) rfl
  | nodeRead idx =>
    obtain ⟨hi, rfl⟩ | ⟨hi, rfl⟩ := execNodeRead_cases h
    · exact Transition.raise hr hi
    · exact Transition.respond hr rfl hi.not_ge rfl
  | treeClear =>
    obtain ⟨hm, rfl⟩ | ⟨hm, rfl⟩ := execTreeClear_cases h
    · exact Transition.raise hr hm
    · exact Transition.respond hr rfl hm rfl
  | regRead ra =>
    obtain ⟨v, hv, rfl⟩ | ⟨hv, rfl⟩ := execRegRead_cases h
    · refine Transition.respond hr rfl ?_ rfl
      rintro ⟨k, rfl⟩
      cases hv
    · refine Transition.raise hr ?_
      cases ra with
      | reserved k => exact ⟨k, rfl⟩
      | _ => cases hv
  | regWrite ra data =>
    obtain ⟨rfl, rfl⟩ | ⟨rfl, hm, rfl⟩ | ⟨rfl, hm, rfl⟩ | ⟨hc, hroot, rfl⟩ :=
      execRegWrite_cases h
    · exact Transition.respond hr rfl (by simp) rfl
    · exact Transition.raise hr ⟨nofun, fun _ => hm⟩
    · exact Transition.respond hr rfl (by simp [hm]) rfl
    · exact Transition.raise hr ⟨hc, fun hra => absurd hra hroot⟩
  | start =>
    obtain ⟨hroot, rfl⟩ | ⟨hroot, rfl⟩ := execStart_cases h
    · exact Transition.raise hr hroot
    · exact Transition.respond hr rfl (by simp [hroot]) rfl
  | abort =>
    obtain rfl := execAbort_cases.mp h
    exact Transition.respond hr rfl id rfl
  | bit b =>
    obtain ⟨hm, rfl⟩ | ⟨hm, rfl⟩ | ⟨hidle, hm, rfl⟩ := execBit_cases h
    · exact Transition.raise hr (.inl hm)
    · simpa [Transition, hm] using walkBit_transition hm hr
    · exact Transition.respond hr rfl (by simp [hidle, hm]) (by simp [hm])
  | endInput =>
    obtain ⟨hm, rfl⟩ | ⟨hm, rfl⟩ | ⟨hidle, hm, rfl⟩ := execEndInput_cases h
    · exact Transition.raise hr hm
    · exact Transition.respond hr rfl (by simp [hm]) (by simp [hm])
    · exact Transition.respond hr rfl hidle (by simp [hm])

/-! ### Repeating a command (R54) -/

theorem State.respond_regVal (s : State) (r : Response) (ra : RegName) :
    (s.respond r).regVal ra = s.regVal ra := by
  cases ra <;> rfl

theorem State.memWrite_respond_memWrite (s : State) (i : NodeIdx) (w : Word) (r : Response) :
    ((s.memWrite i w).respond r).memWrite i w = (s.memWrite i w).respond r := by
  simp [State.memWrite, State.respond]

/-- A raise is no answer without ERR. -/
theorem State.raise_not_ok {s : State} {op : BitVec 4} {c : Cause} {k : NodeIdx} {b : Bool}
    {r : Response} (hr : (s.raise op c k b).rsp = some r) (he : r.err = false) : False := by
  simp [State.raise_err hr] at he

section
variable {s t : State} {r : Response}

theorem exec_regRead_pure {ra : RegName} (h : exec (.regRead ra) s = .next t)
    (hr : t.rsp = some r) (he : r.err = false) :
    t = s.respond r ∧ exec (.regRead ra) t = .next t := by
  obtain ⟨v, hv, rfl⟩ | ⟨-, rfl⟩ := execRegRead_cases h
  · obtain rfl := State.respond_eq hr
    exact ⟨rfl, exec_regRead_ok ((s.respond_regVal _ ra).trans hv)⟩
  · exact (State.raise_not_ok hr he).elim

theorem exec_nodeRead_pure {idx : NodeIdx} (h : exec (.nodeRead idx) s = .next t)
    (hr : t.rsp = some r) (he : r.err = false) :
    t = s.respond r ∧ exec (.nodeRead idx) t = .next t := by
  obtain ⟨-, rfl⟩ | ⟨hi, rfl⟩ := execNodeRead_cases h
  · exact (State.raise_not_ok hr he).elim
  · obtain rfl := State.respond_eq hr
    exact ⟨rfl, exec_nodeRead_ok hi⟩

theorem exec_nodeWrite_idempotent {idx : NodeIdx} {data : Word}
    (h : exec (.nodeWrite idx data) s = .next t) (hr : t.rsp = some r) (he : r.err = false) :
    exec (.nodeWrite idx data) t = .next t := by
  obtain ⟨-, rfl⟩ | ⟨-, -, rfl⟩ | ⟨-, -, -, rfl⟩ | ⟨hm, hi, hl, rfl⟩ := execNodeWrite_cases h
  · exact (State.raise_not_ok hr he).elim
  · exact (State.raise_not_ok hr he).elim
  · exact (State.raise_not_ok hr he).elim
  · rw [exec_nodeWrite_ok (s := (s.memWrite idx data).respond .ok) hm hi hl,
      State.memWrite_respond_memWrite]
    rfl

theorem exec_treeClear_idempotent (h : exec .treeClear s = .next t) (hr : t.rsp = some r)
    (he : r.err = false) : exec .treeClear t = .next t := by
  obtain ⟨-, rfl⟩ | ⟨hm, rfl⟩ := execTreeClear_cases h
  · exact (State.raise_not_ok hr he).elim
  · exact exec_treeClear_ok hm

theorem exec_regWrite_idempotent {ra : RegName} {data : Word}
    (h : exec (.regWrite ra data) s = .next t) (hr : t.rsp = some r) (he : r.err = false) :
    exec (.regWrite ra data) t = .next t := by
  obtain ⟨rfl, rfl⟩ | ⟨-, -, rfl⟩ | ⟨rfl, hm, rfl⟩ | ⟨-, -, rfl⟩ := execRegWrite_cases h
  · rfl
  · exact (State.raise_not_ok hr he).elim
  · exact exec_regWrite_root_ok hm
  · exact (State.raise_not_ok hr he).elim

theorem exec_start_idempotent (h : exec .start s = .next t) (hr : t.rsp = some r)
    (he : r.err = false) : exec .start t = .next t := by
  obtain ⟨-, rfl⟩ | ⟨hroot, rfl⟩ := execStart_cases h
  · exact (State.raise_not_ok hr he).elim
  · exact exec_start_ok hroot

end

/-- Settles O31: command by command; the branch that answers without ERR is taken again. -/
theorem readsPureWritesIdempotent : Obligations.ReadsPureWritesIdempotent := by
  refine ⟨?_, ?_⟩
  · rintro i s t r (⟨ra, rfl⟩ | ⟨idx, rfl⟩) h hr he
    · exact exec_regRead_pure h hr he
    · exact exec_nodeRead_pure h hr he
  · rintro i s t r (⟨idx, data, rfl⟩ | rfl | ⟨ra, data, rfl⟩ | rfl | rfl) h hr he
    · exact exec_nodeWrite_idempotent h hr he
    · exact exec_treeClear_idempotent h hr he
    · exact exec_regWrite_idempotent h hr he
    · exact exec_start_idempotent h hr he
    · obtain rfl := execAbort_cases.mp h
      rfl

/-- Settles O38: ABORT leaves IDLE, in which TREE_CLEAR is accepted. -/
theorem abortThenClearReachesReset : Obligations.AbortThenClearReachesReset := fun s =>
  ⟨_, _, execAbort_cases.mpr rfl,
    exec_treeClear_ok (s := { s.clearFault with mode := .idle }.respond .ok) (by simp), rfl⟩

/-! ### STICKY steers nothing (R208) -/

/-- The state with another STICKY. -/
def State.withSticky (s : State) (b : Bool) : State := { s with sticky := b }

/-- What a command leaves of a state that had `b` in STICKY, from what it leaves of the state
otherwise. -/
def State.stickyAfter (b : Bool) (t : State) : State :=
  t.withSticky (t.rsp.any (·.err) || b)

theorem State.arrive_withSticky (s : State) (b : Bool) (c : NodeIdx) (cw : NodeWord) :
    (s.withSticky b).arrive c cw = (s.arrive c cw).stickyAfter b := by
  simp only [State.arrive]
  split_ifs <;> rfl

theorem walkBit_withSticky (s : State) (b bit : Bool) :
    walkBit bit (s.withSticky b) = (walkBit bit s).stickyAfter b := by
  simp only [walkBit, apply_ite (State.stickyAfter b), ← State.arrive_withSticky s b]
  rfl

/-- STICKY steers no command, and only REG_READ STATUS shows it. -/
theorem exec_withSticky {i : Instr} (hi : i ≠ .regRead .status) (s : State) (b : Bool) :
    exec i (s.withSticky b) = mapNext (State.stickyAfter b) (exec i s) := by
  cases i with
  | nop => rfl
  | nodeWrite idx data =>
    simp only [exec, execNodeWrite, apply_ite (mapNext _)]
    rfl
  | nodeRead idx =>
    simp only [exec, execNodeRead, apply_ite (mapNext _)]
    rfl
  | treeClear =>
    simp only [exec, execTreeClear, apply_ite (mapNext _)]
    rfl
  | regRead ra =>
    cases ra with
    | status => exact absurd rfl hi
    | _ => rfl
  | regWrite ra data =>
    cases ra with
    | root =>
      simp only [exec, execRegWrite, apply_ite (mapNext _)]
      rfl
    | _ => rfl
  | start =>
    simp only [exec, execStart, apply_ite (mapNext _)]
    rfl
  | abort => rfl
  | bit bit =>
    have hmode : (s.withSticky b).mode = s.mode := rfl
    simp only [exec, execBit, hmode, walkBit_withSticky]
    cases s.mode <;> rfl
  | endInput =>
    have hmode : (s.withSticky b).mode = s.mode := rfl
    simp only [exec, execEndInput, hmode]
    cases s.mode <;> rfl

/-- Agreement but for STICKY is a change of STICKY and of the ports. -/
theorem State.AgreeButSticky.eq_withPorts {s s' : State} (h : s.AgreeButSticky s') :
    s' = (s.withSticky s'.sticky).withPorts s'.rsp s'.inputs s'.rspReady s'.taken := h

/-- Two agreeing instances agree after the same command, and give the same response unless the
command shows STICKY. -/
theorem State.AgreeButSticky.exec {i : Instr} {s s' t t' : State} (ha : s.AgreeButSticky s')
    (h : exec i s = .next t) (h' : exec i s' = .next t') :
    t.AgreeButSticky t' ∧ (i ≠ .regRead .status → t'.rsp = t.rsp) := by
  rw [ha.eq_withPorts, exec_withPorts] at h'
  by_cases hi : i = .regRead .status
  · subst hi
    obtain rfl := Host.Outcome.next.inj h
    obtain rfl := Host.Outcome.next.inj h'
    exact ⟨rfl, fun hne => absurd rfl hne⟩
  · rw [exec_withSticky hi, h] at h'
    obtain rfl := Host.Outcome.next.inj h'
    exact ⟨rfl, fun _ => rfl⟩

/-- Settles O49: START writes every register the two instances may differ in but STICKY, and STICKY
steers no command. -/
theorem earlierRunsDoNotMatter : Obligations.EarlierRunsDoNotMatter := by
  refine ⟨fun s s' hn ht hroot hctrl hr => ?_, fun _ _ _ _ _ ha h h' => ha.exec h h'⟩
  have hr' : s'.rootValid = true := (State.rootValid_congr hn hroot ht).trans hr
  refine ⟨_, _, exec_start_ok hr, exec_start_ok hr', ?_⟩
  simp [State.AgreeButSticky, State.respond, State.beginRun, State.clearFault, hn, ht, hroot,
    hctrl]

end Sys2Proof.Machine
end

