-- ==== Sys2Proof/Proofs/Ports.lean ====
section
/-! SUPPORT. The ports and the step (30_encoding.md R86, 70_reset_and_hazards.md R230-R235): which
command a step runs, when a response crosses, and what reset leaves. -/

namespace Sys2Proof.Machine

/-! ### The command a step runs -/

/-- A step with a command next, legal or not. -/
theorem step_of_decode {s : State} {c : Command} {rest : List HostInput}
    (h : s.inputs = .command c :: rest) (hr : s.rsp = none ∨ s.rspReadyNow = true) {i : Instr}
    (hd : decode c = .ok i) :
    step s = exec i (s.withPorts none rest s.rspReady.tail (s.taken ++ s.rsp.toList)) := by
  rw [step_command h hr, issue_of_decode hd]

/-- Settles O8: the step is `issue` of the command, and `issue` goes by the decoder. -/
theorem stepRunsDecodedCommand : Obligations.StepRunsDecodedCommand := by
  rintro s _ c rest h hr rfl
  exact ⟨step_command h hr, fun _ hd => step_of_decode h hr hd,
    fun _ he => (step_command h hr).trans (issue_of_decode_error rfl he _)⟩

/-- The command placed finds the port free, or freed in this step. -/
theorem State.withFetchWord_ready (s : State) (nbits w : Nat) :
    (s.withFetchWord nbits w).rsp = none ∨ (s.withFetchWord nbits w).rspReadyNow = true := by
  cases hr : s.rsp with
  | none => exact .inl hr
  | some r => exact .inr (by simp [State.withFetchWord, State.rspReadyNow, hr])

/-- The levels of `rsp_ready` after the step that runs the command placed. -/
theorem State.withFetchWord_rspReady_tail (s : State) (nbits w : Nat) :
    (s.withFetchWord nbits w).rspReady.tail = s.rspReady.tail := by
  cases hr : s.rsp <;> simp [State.withFetchWord, hr]

/-- Settles O9: the placed command is next and the port takes it. -/
theorem stepRunsPlacedWord : Obligations.StepRunsPlacedWord := by
  intro s nbits w i h
  have hd : decode (tableCommand nbits w) = .ok i := by
    unfold decodeTableWord at h
    cases hd : decode (tableCommand nbits w) with
    | ok j => simpa [hd, Except.toOption] using h
    | error e => simp [hd, Except.toOption] at h
  rw [step_of_decode rfl (s.withFetchWord_ready nbits w) hd, s.withFetchWord_rspReady_tail]
  rfl

/-- Settles O10: the ports always answer, and so does every accepted transaction. -/
theorem stepAlwaysAnswers : Obligations.StepAlwaysAnswers := by
  intro s
  unfold step
  match s.accept with
  | (t, none) => exact ⟨t, rfl⟩
  | (t, some c) =>
    obtain ⟨u, -, h, -⟩ := issue_next c t
    exact ⟨u, h⟩

/-! ### Responses at the port -/

/-- Settles O11: the offered command waits, and an `idle` edge moves the response side, on which
nothing moves. -/
theorem untakenResponseHoldsCommands : Obligations.UntakenResponseHoldsCommands := by
  intro s r hr hn
  refine ⟨?_, fun rest h => by rw [step_idle h, State.settle_keep hr hn]⟩
  rintro (h | ⟨c, rest, h⟩)
  · rw [step_empty h, State.settle_keep hr hn]
  · exact step_blocked h hr hn

/-- Settles O15: the response side does nothing either. -/
theorem noInputNoChange : Obligations.NoInputNoChange := fun s hr =>
  ⟨fun h => by rw [step_empty h, State.settle_none hr],
    fun rest h => by rw [step_idle h, State.settle_none hr]⟩

/-- The response side moves the response to the host or leaves it. -/
theorem State.settle_responses (s : State) :
    s.settle.taken ++ s.settle.rsp.toList = s.taken ++ s.rsp.toList := by
  unfold State.settle
  split
  · next hr => simp [hr]
  · next r hr => split <;> simp [hr]

/-- An accepted transaction leaves the ports, but for its response. -/
theorem issue_ports {c : Command} {s t : State} (h : issue c s = .next t) :
    t.inputs = s.inputs ∧ t.taken = s.taken ∧ ∃ r, t.rsp = some r := by
  obtain ⟨u, r, hu, hr⟩ := issue_next c s
  obtain rfl : u = t := Host.Outcome.next.inj (hu.symm.trans h)
  have hw := issue_withPorts s s.rsp s.inputs s.rspReady s.taken c
  rw [State.withPorts_self, hu] at hw
  have ht := Host.Outcome.next.inj hw
  exact ⟨(congrArg State.inputs ht).trans rfl, (congrArg State.taken ht).trans rfl, r, hr⟩

/-- Settles O12: a step without reset moves the response side only, or accepts a command after the
response before it has crossed. -/
theorem responsesKeptInOrder : Obligations.ResponsesKeptInOrder := by
  refine ⟨fun s t h hreset => ?_, fun s r hr hn hreset => ?_⟩
  · obtain ⟨-, hi, ht⟩ | ⟨c, rest, hi, -⟩ | ⟨c, rest, hi, -, ht⟩ := step_cases h
    · refine .inl ⟨hi.imp Eq.symm id, ?_⟩
      rw [ht]
      exact s.settle_responses
    · exact absurd hi (hreset c rest)
    · obtain ⟨hin, htaken, r, hr⟩ := issue_ports ht
      exact .inr ⟨c, rest, r, hi, hin, hr, htaken⟩
  · obtain ⟨t, h⟩ := stepAlwaysAnswers s
    refine ⟨t, h, ?_⟩
    obtain ⟨-, -, ht⟩ | ⟨c, rest, hi, -⟩ | ⟨c, rest, -, -, ht⟩ := step_cases h
    · rw [ht, State.settle_take hr hn]
    · exact absurd hi (hreset c rest)
    · obtain ⟨-, htaken, -⟩ := issue_ports ht
      rw [htaken, hr]
      rfl

/-! ### Reset (R230, R231) -/

/-- Settles O13: the step is `applyReset`, which starts from the state after power-on. -/
theorem resetInputResetsEverything : Obligations.ResetInputResetsEverything :=
  ⟨fun _ => ⟨rfl, rfl⟩, fun _ _ _ h => ⟨_, step_reset h, rfl, rfl, rfl, rfl, rfl, rfl, rfl, rfl,
    rfl, rfl, fun _ => rfl, State.irq_eq_false (.inl rfl), rfl, rfl, rfl, rfl, rfl⟩⟩

/-- Every register but PARAM reads 0 after power-on. -/
theorem State.powerOn_regVal (n : Nat) {ra : RegName} (hparam : ra ≠ .param)
    (hres : ∀ k, ra ≠ .reserved k) : (State.powerOn n).regVal ra = some 0#32 := by
  have hn : (State.powerOn n).regVal ra = (State.powerOn 0).regVal ra := by
    cases ra with
    | param => exact absurd rfl hparam
    | _ => rfl
  rw [hn]
  cases ra with
  | param => exact absurd rfl hparam
  | reserved k => exact absurd rfl (hres k)
  | _ => decide

/-- Settles O14: the values after power-on, PARAM by its fields. -/
theorem resetStateValues : Obligations.ResetStateValues := by
  refine ⟨fun n _ hn => ?_, rfl, by decide⟩
  exact ⟨rfl, rfl, rfl, rfl, rfl, rfl, rfl, rfl, rfl, rfl, fun _ => rfl,
    State.irq_eq_false (.inl rfl),
    ⟨_, rfl, (State.powerOn n).paramWord_toNat (Nat.lt_of_le_of_lt hn (by decide))⟩,
    fun _ hparam hres => State.powerOn_regVal n hparam hres, rfl⟩

end Sys2Proof.Machine
end

