-- ==== Sys2Proof/Proofs/Runs.lean ====
section
/-! SUPPORT. Lists of commands run through the ports: what a whole list keeps, the read of an entry
long after its write, and a run against the pure decode function (42_bitstream.md R149, R150). -/

namespace Sys2Proof.Machine

/-! ### What a list of commands keeps -/

section
variable {s t : State} {is : List Instr} {rs : List Response}

/-- What every command of a list keeps, the list keeps. -/
theorem Feeds.keeps {P : State → Prop} (hf : Feeds s is rs t)
    (hP : ∀ i ∈ is, ∀ u v, P u → exec i u = .next v → P v) (hs : P s) : P t := by
  induction hf with
  | nil => exact hs
  | cons h _ _ ih =>
    exact ih (fun i hi => hP i (List.mem_cons_of_mem _ hi)) (hP _ (by simp) _ _ hs h)

theorem Feeds.inv (hf : Feeds s is rs t) (hs : s.Inv) : t.Inv :=
  hf.keeps (fun _ _ _ _ hu h => exec_keeps_inv hu h) hs

theorem Feeds.nodeCount_eq (hf : Feeds s is rs t) : t.nodeCount = s.nodeCount :=
  hf.keeps (P := fun u => u.nodeCount = s.nodeCount)
    (fun _ _ _ _ hu h => (exec_tree_cases h).1.trans hu) rfl

/-- STICKY after a list is STICKY before it or an ERR of its responses. -/
theorem Feeds.sticky_eq (hf : Feeds s is rs t) : t.sticky = (s.sticky || rs.any (·.err)) := by
  induction hf with
  | nil => simp
  | cons h hr _ ih => rw [ih, stickySetByFaultsOnly _ _ _ _ h hr, List.any_cons, Bool.or_assoc]

/-- The two commands that leave FAULT aside, a list that does not end in FAULT raised no fault. -/
theorem Feeds.no_err (hf : Feeds s is rs t) (hi : ∀ i ∈ is, i ≠ .start ∧ i ≠ .abort)
    (ht : t.mode ≠ .fault) : ∀ r ∈ rs, r.err = false := by
  induction hf with
  | nil => simp
  | @cons s u t i is r rs h hr hrest ih =>
    have hi' : ∀ j ∈ is, j ≠ .start ∧ j ≠ .abort := fun j hj => hi j (List.mem_cons_of_mem _ hj)
    refine List.forall_mem_cons.mpr ⟨?_, ih hi' ht⟩
    refine Bool.eq_false_iff.mpr fun he => ht ?_
    obtain ⟨_, _, _, rfl⟩ := exec_err h hr he
    exact hrest.keeps (P := fun v => v.mode = .fault)
      (fun j hj _ _ hv h' => (exec_stays_in_fault h' hv (hi' j hj).2 (.inl (hi' j hj).1)).1) rfl

/-- `Feeds.runsTo` of well-formed commands: their encodings decode to them. -/
theorem Feeds.runsTo_of_wellFormed (hf : Feeds s is rs t) (hp : s.PortsClear)
    (hwf : ∀ i ∈ is, i.wellFormed = true) :
    RunsTo (is.length + 1) (s.offer is) (t.withPorts none [] [] (s.taken ++ rs)) :=
  hf.runsTo hp fun i hi => decode_encode (hwf i hi)

end

/-! ### The latest write is read back (R57, R106) -/

/-- A command that is no write of the entry and no TREE_CLEAR leaves it. -/
theorem exec_keeps_memRead {i : Instr} {s t : State} {idx : NodeIdx} (h : exec i s = .next t)
    (hclear : i ≠ .treeClear) (hwrite : ∀ d, i ≠ .nodeWrite idx d) :
    t.memRead idx = s.memRead idx := by
  obtain ht | ⟨d, hi, -⟩ | ⟨hi, -⟩ := treeChangesOnlyByWriteAndClear i s t idx h
  · exact ht
  · exact absurd hi (hwrite d)
  · exact absurd hi hclear

/-- Settles O24: the write, the commands that leave the entry, the read. -/
theorem latestWriteIsReadBack : Obligations.LatestWriteIsReadBack := by
  intro idx data is s hp hm hi hl his
  have hwrite : exec (.nodeWrite idx data) s = .next ((s.memWrite idx data).respond .ok) :=
    exec_nodeWrite_ok hm hi hl
  obtain ⟨rs, u, hf⟩ := Feeds.exists is ((s.memWrite idx data).respond .ok)
  have hentry : u.memRead idx = (true, data.extractLsb' 0 31) :=
    hf.keeps (P := fun v => v.memRead idx = (true, data.extractLsb' 0 31))
      (fun i hmem _ _ hv h =>
        (exec_keeps_memRead h (his i hmem).2.1 (his i hmem).2.2).trans hv)
      (s.memWrite_memRead_self idx data)
  have hread : exec (.nodeRead idx) u =
      .next (u.respond (.data (nodeReadData (u.memRead idx)))) :=
    exec_nodeRead_ok (hf.nodeCount_eq ▸ hi)
  have hall := Feeds.cons hwrite rfl (hf.append (.cons hread rfl (.nil _)))
  have hwf : ∀ i ∈ Instr.nodeWrite idx data :: (is ++ [.nodeRead idx]),
      i.wellFormed = true := by
    simp only [List.mem_cons, List.mem_append, List.not_mem_nil, or_false]
    rintro i (rfl | hmem | rfl)
    · rfl
    · exact (his i hmem).1
    · rfl
  have hrun := hall.runsTo_of_wellFormed hp hwf
  rw [hentry] at hrun
  exact ⟨_, rs, by simpa using hrun, hf.length, rfl⟩

/-! ### A finite input ends the run (R150) -/

/-- The BITs and the END of a run. -/
def runInputs (bs : List Bool) (ended : Bool) : List Instr :=
  Pseudo.bits bs ++ if ended then [.endInput] else []

theorem mem_runInputs {bs : List Bool} {ended : Bool} {i : Instr}
    (h : i ∈ runInputs bs ended) : i = .endInput ∨ ∃ b, i = .bit b := by
  rcases List.mem_append.mp h with h | h
  · obtain ⟨b, -, rfl⟩ := List.mem_map.mp h
    exact .inr ⟨b, rfl⟩
  · cases ended <;> simp_all

theorem runInputs_wellFormed {bs : List Bool} {ended : Bool} :
    ∀ i ∈ runInputs bs ended, i.wellFormed = true := by
  intro i hi
  obtain rfl | ⟨b, rfl⟩ := mem_runInputs hi <;> rfl

/-- BIT and END write neither the tree memory nor ROOT. -/
theorem exec_runInput_frame {i : Instr} {s t : State} (hi : i = .endInput ∨ ∃ b, i = .bit b)
    (h : exec i s = .next t) : t.tree = s.tree ∧ t.root = s.root := by
  obtain rfl | ⟨b, rfl⟩ := hi <;> simpa using exec_tree_root_cases h

/-- BIT does not lead to IDLE. -/
theorem exec_bit_mode_ne_idle {b : Bool} {s t : State} (hs : s.mode ≠ .idle)
    (h : exec (.bit b) s = .next t) : t.mode ≠ .idle := by
  obtain ⟨u, r, hu, -, -, hf, ha⟩ := stateTransitions.1 (.bit b) s
  obtain rfl : u = t := Host.Outcome.next.inj (hu.symm.trans h)
  cases he : r.err with
  | true => simp [hf he]
  | false =>
    rw [ha he]
    dsimp only
    split <;> simp [hs]

/-- END from any STATE but IDLE ends the run, if it has not ended. -/
theorem exec_endInput_mode {s t : State} (hs : s.mode ≠ .idle)
    (h : exec .endInput s = .next t) :
    t.mode = .done ∨ t.mode = .malformed ∨ t.mode = .fault := by
  obtain ⟨hm, -⟩ | ⟨-, rfl⟩ | ⟨-, hm, rfl⟩ := execEndInput_cases h
  · exact absurd hm hs
  · exact .inr (.inl rfl)
  · cases hs' : s.mode <;> simp_all

/-- Settles O51: the BITs do not lead to IDLE, and END from elsewhere ends the run. -/
theorem finiteInputEndsTheRun : Obligations.FiniteInputEndsTheRun := by
  intro s bs hm hp
  obtain ⟨rs, u, hf⟩ := Feeds.exists (Pseudo.bits bs) s
  obtain ⟨t, r, h, hr⟩ := exec_next .endInput u
  have hu : u.mode ≠ .idle := by
    refine hf.keeps (P := fun v => v.mode ≠ .idle) (fun i hi v w hv h' => ?_) (by simp [hm])
    obtain ⟨b, -, rfl⟩ := List.mem_map.mp hi
    exact exec_bit_mode_ne_idle hv h'
  have hrun := (hf.append (.cons h hr (.nil _))).runsTo_of_wellFormed hp
    (runInputs_wellFormed (bs := bs) (ended := true))
  have hlen : (Pseudo.bits bs ++ [Instr.endInput]).length = bs.length + 1 := by
    simp [Pseudo.bits]
  rw [hlen] at hrun
  have hend := exec_endInput_mode hu h
  exact ⟨_, hrun, hend⟩

/-! ### Equations of the pure decode function (R149) -/

section
variable {n : Nat} {m : Memory} {root c k : NodeIdx} {ended b : Bool} {d : Nat} {t : List Bool}
  {out : List Byte} {bc : Nat} {cw : NodeWord}

theorem walk_absentChild (hb : NodeWord.branch (m.read c).2 b = (false, k)) :
    walk n m root ended c d (b :: t) out bc = ⟨out, .fault .absentChild c, c, d, bc⟩ := by
  simp [walk, hb]

theorem walk_unwrittenNode (hb : NodeWord.branch (m.read c).2 b = (true, k))
    (hk : m.read k = (false, cw)) :
    walk n m root ended c d (b :: t) out bc = ⟨out, .fault .unwrittenNode k, c, d, bc⟩ := by
  simp [walk, hb, hk]

theorem walk_depthOverflow (hb : NodeWord.branch (m.read c).2 b = (true, k))
    (hk : m.read k = (true, cw)) (hd : n ≤ d + 1) :
    walk n m root ended c d (b :: t) out bc = ⟨out, .fault .depthOverflow k, c, d, bc⟩ := by
  simp [walk, hb, hk, hd]

theorem walk_eos (hb : NodeWord.branch (m.read c).2 b = (true, k)) (hk : m.read k = (true, cw))
    (hd : d + 1 < n) (hs : NodeWord.sym cw = Config.eos) :
    walk n m root ended c d (b :: t) out bc = ⟨out, .done, k, d + 1, bc + 1⟩ := by
  simp [walk, hb, hk, hd.not_ge, hs]

theorem walk_byte (hb : NodeWord.branch (m.read c).2 b = (true, k)) (hk : m.read k = (true, cw))
    (hd : d + 1 < n) (hs : (NodeWord.sym cw).toNat ≤ 255) :
    walk n m root ended c d (b :: t) out bc =
      walk n m root ended root 0 t (out ++ [(NodeWord.sym cw).extractLsb' 0 8]) (bc + 1) := by
  have hne : NodeWord.sym cw ≠ Config.eos := fun he => absurd (he ▸ hs) (by decide)
  simp [walk, hb, hk, hd.not_ge, hs, hne]

theorem walk_internal (hb : NodeWord.branch (m.read c).2 b = (true, k))
    (hk : m.read k = (true, cw)) (hd : d + 1 < n) (hs : NodeWord.isLeaf cw = false) :
    walk n m root ended c d (b :: t) out bc =
      walk n m root ended k (d + 1) t out (bc + 1) := by
  have hsym := (NodeWord.isLeaf_eq_false_iff cw).mp hs
  have hne : NodeWord.sym cw ≠ Config.eos := by
    rw [hsym]
    decide
  have hnb : ¬ (NodeWord.sym cw).toNat ≤ 255 := by
    rw [hsym]
    decide
  simp [walk, hb, hk, hd.not_ge, hne, hnb]

end

/-- A legal leaf that is not EOS holds a byte (R82). -/
theorem NodeWord.sym_le_of_legal {n : Nat} {w : NodeWord} (h : NodeWord.legal n w = true)
    (hleaf : NodeWord.isLeaf w = true) (hne : NodeWord.sym w ≠ Config.eos) :
    (NodeWord.sym w).toNat ≤ 255 := by
  rcases Bool.or_eq_true_iff.mp h with h | h
  · have hle : (NodeWord.sym w).toNat ≤ 256 := of_decide_eq_true (Bool.and_eq_true_iff.mp h).1
    have : (NodeWord.sym w).toNat ≠ 256 := fun he => hne (BitVec.eq_of_toNat_eq he)
    omega
  · have hnas : NodeWord.sym w = Config.nas := by
      simp only [NodeWord.legalInternal, Bool.and_eq_true, beq_iff_eq] at h
      exact h.1.1.1
    simp [NodeWord.isLeaf, hnas] at hleaf

/-! ### A run against the pure decode function -/

theorem deliveredBytes_append (rs qs : List Response) :
    deliveredBytes (rs ++ qs) = deliveredBytes rs ++ deliveredBytes qs := by
  simp [deliveredBytes]

theorem deliveredBytes_of_ok {rs : List Response} (h : ∀ r ∈ rs, r = Response.ok) :
    deliveredBytes rs = [] := by
  have : rs.filter (·.emit) = [] := List.filter_eq_nil_iff.mpr fun r hr => by
    simp [h r hr, Response.ok]
  simp [deliveredBytes, this]

theorem ofNat_toNat_self {n : Nat} (x : BitVec n) : x = BitVec.ofNat n x.toNat := by simp

/-- The registers show the result of the pure decode function. -/
structure State.Shows (t : State) (W : WalkResult) : Prop where
  outcnt : t.outcnt = BitVec.ofNat 32 W.out.length
  mode : t.mode = W.stop.mode
  cur : t.cur = W.cur
  depth : t.depth = BitVec.ofNat 11 W.depth
  bitcnt : t.bitcnt = BitVec.ofNat 32 W.bitcnt
  record : ∀ c k, W.stop = .fault c k → t.cause = c ∧ t.finfo.fidx = k ∧ t.finfo.fop = 8#4

/-- The counters stand at `out.length` bytes and `bc` bits. -/
structure State.Counted (s : State) (out : List Byte) (bc : Nat) : Prop where
  outcnt : s.outcnt = BitVec.ofNat 32 out.length
  bitcnt : s.bitcnt = BitVec.ofNat 32 bc

/-- The pure decode function from where the state stands in its run. -/
def State.walkFrom (s : State) (ended : Bool) (bs : List Bool) (out : List Byte) (bc : Nat) :
    WalkResult :=
  walk s.nodeCount s.tree s.root ended s.cur s.depth.toNat bs out bc

/-- A run that has ended discards its further BITs and END. -/
theorem feeds_discarded {is : List Instr} (hi : ∀ i ∈ is, i = .endInput ∨ ∃ b, i = .bit b)
    {s : State} (hm : s.mode = .done ∨ s.mode = .malformed ∨ s.mode = .fault) :
    ∃ rs r, Feeds s is rs { s with rsp := r } ∧ ∀ q ∈ rs, q = Response.ok := by
  induction is generalizing s with
  | nil => exact ⟨[], s.rsp, .nil s, by simp⟩
  | cons i is ih =>
    have h : exec i s = .next (s.respond .ok) := by
      obtain rfl | ⟨b, rfl⟩ := hi i (by simp)
      · exact exec_endInput_discarded hm
      · exact exec_bit_discarded hm
    obtain ⟨rs, r, hf, hr⟩ :=
      ih (fun j hj => hi j (List.mem_cons_of_mem _ hj)) (s := s.respond .ok) hm
    exact ⟨_, r, .cons h rfl hf, by simpa using hr⟩

/-- The record of a fault of the walk, which begins an episode. -/
theorem State.Shows.raise {s : State} {out : List Byte} {bc : Nat} (hm : s.mode = .run)
    (hc : s.Counted out bc) (cause : Cause) (k : NodeIdx) (b : Bool) :
    (s.raise 8#4 cause k b).Shows ⟨out, .fault cause k, s.cur, s.depth.toNat, bc⟩ where
  outcnt := hc.outcnt
  mode := rfl
  cur := rfl
  depth := ofNat_toNat_self s.depth
  bitcnt := hc.bitcnt
  record := by
    rintro c k' he
    cases he
    simp [hm]

/-- One BIT of a run does what the first bit of the pure decode function does: it ends the run with
the function's result, or the run goes on with the bits that are left. -/
def SimulatesBit (s : State) (b : Bool) (bs : List Bool) (ended : Bool) (out : List Byte)
    (bc : Nat) : Prop :=
  ∃ t r, exec (.bit b) s = .next t ∧ t.rsp = some r ∧
    (((t.mode = .done ∨ t.mode = .malformed ∨ t.mode = .fault) ∧
        t.Shows (s.walkFrom ended (b :: bs) out bc) ∧
        (s.walkFrom ended (b :: bs) out bc).out = out ++ deliveredBytes [r]) ∨
      (t.mode = .run ∧ t.Counted (out ++ deliveredBytes [r]) (bc + 1) ∧
        s.walkFrom ended (b :: bs) out bc =
          t.walkFrom ended bs (out ++ deliveredBytes [r]) (bc + 1)))

section
variable {s : State} {b : Bool} {bs : List Bool} {ended : Bool} {out : List Byte} {bc : Nat}
  {k : NodeIdx} {cw : NodeWord}

/-- A fault of the walk. -/
theorem SimulatesBit.of_raise {cause : Cause} (hm : s.mode = .run) (hc : s.Counted out bc)
    (ht : walkBit b s = s.raise 8#4 cause k b)
    (hw : s.walkFrom ended (b :: bs) out bc =
      ⟨out, .fault cause k, s.cur, s.depth.toNat, bc⟩) : SimulatesBit s b bs ended out bc := by
  refine ⟨_, _, (exec_bit_run hm).trans (congrArg _ ht), rfl, .inl ⟨.inr (.inr rfl), ?_⟩⟩
  rw [hw]
  exact ⟨.raise hm hc _ _ _, (List.append_nil out).symm⟩

/-- An arrival at EOS, at a byte, or at an internal node. -/
theorem SimulatesBit.of_arrive (hs : s.Inv) (hm : s.mode = .run) (hc : s.Counted out bc)
    (hb : NodeWord.branch (s.memRead s.cur).2 b = (true, k)) (hk : s.memRead k = (true, cw))
    (hd : s.depth.toNat + 1 < s.nodeCount) (ht : walkBit b s = s.arrive k cw) :
    SimulatesBit s b bs ended out bc := by
  have hbit : s.bitcnt + 1#32 = BitVec.ofNat 32 (bc + 1) := by
    rw [hc.bitcnt, BitVec.ofNat_add]
  have hdepth := hs.depth_succ hd
  obtain ⟨hsym, ha⟩ | ⟨hleaf, hsym, ha⟩ | ⟨hleaf, ha⟩ := s.arrive_cases k cw
  · refine ⟨_, _, (exec_bit_run hm).trans (congrArg _ (ht.trans ha)), rfl, .inl ⟨.inl rfl, ?_⟩⟩
    rw [State.walkFrom, walk_eos hb hk hd hsym]
    refine ⟨⟨hc.outcnt, rfl, rfl, ?_, hbit, nofun⟩, (List.append_nil out).symm⟩
    rw [← hdepth]
    exact ofNat_toNat_self _
  · have hlegal := (hs.entries.of_memRead (i := k) (by rw [hk])).2
    rw [hk] at hlegal
    have hbyte := NodeWord.sym_le_of_legal hlegal hleaf hsym
    refine ⟨_, _, (exec_bit_run hm).trans (congrArg _ (ht.trans ha)), rfl,
      .inr ⟨hm, ⟨?_, hbit⟩, walk_byte hb hk hd hbyte⟩⟩
    simp [hc.outcnt, deliveredBytes, Response.byte, BitVec.ofNat_add]
  · refine ⟨_, _, (exec_bit_run hm).trans (congrArg _ (ht.trans ha)), rfl, .inr ⟨hm, ?_⟩⟩
    have hnone : out ++ deliveredBytes [Response.ok] = out := List.append_nil out
    rw [hnone]
    refine ⟨⟨hc.outcnt, hbit⟩, (walk_internal hb hk hd hleaf).trans ?_⟩
    rw [← hdepth]
    rfl

/-- Every bit of a run from a good state is simulated, branch by branch of R140. -/
theorem exec_bit_simulates (hs : s.Inv) (hm : s.mode = .run) (hc : s.Counted out bc) :
    SimulatesBit s b bs ended out bc := by
  obtain ⟨p, k, hb⟩ : ∃ p k, NodeWord.branch (s.memRead s.cur).2 b = (p, k) := ⟨_, _, rfl⟩
  obtain ⟨v, cw, hk⟩ : ∃ v cw, s.memRead k = (v, cw) := ⟨_, _, rfl⟩
  obtain ⟨rfl, ht⟩ | ⟨rfl, rfl, ht⟩ | ⟨rfl, rfl, hd, ht⟩ | ⟨rfl, rfl, hd, ht⟩ :=
    walkBit_cases b s hb hk
  · exact .of_raise hm hc ht (walk_absentChild hb)
  · exact .of_raise hm hc ht (walk_unwrittenNode hb hk)
  · exact .of_raise hm hc ht (walk_depthOverflow hb hk hd)
  · exact .of_arrive hs hm hc hb hk hd ht

end

/-- A run that has ended shows its result to the end of its inputs. -/
theorem feeds_shows_of_ended {is : List Instr} (hi : ∀ i ∈ is, i = .endInput ∨ ∃ b, i = .bit b)
    {s : State} (hm : s.mode = .done ∨ s.mode = .malformed ∨ s.mode = .fault) {W : WalkResult}
    (hw : s.Shows W) : ∃ rs t, Feeds s is rs t ∧ t.Shows W ∧ deliveredBytes rs = [] := by
  obtain ⟨rs, r, hf, hr⟩ := feeds_discarded hi hm
  exact ⟨rs, _, hf, ⟨hw.outcnt, hw.mode, hw.cur, hw.depth, hw.bitcnt, hw.record⟩,
    deliveredBytes_of_ok hr⟩

/-- With no bits left a run shows where it stands, END first if it is sent. -/
theorem feeds_no_bits {s : State} {out : List Byte} {bc : Nat} (ended : Bool)
    (hm : s.mode = .run) (hc : s.Counted out bc) :
    ∃ rs t, Feeds s (runInputs [] ended) rs t ∧ t.Shows (s.walkFrom ended [] out bc) ∧
      deliveredBytes rs = [] := by
  have hd := ofNat_toNat_self s.depth
  cases ended with
  | false => exact ⟨[], s, .nil s, ⟨hc.outcnt, hm, rfl, hd, hc.bitcnt, nofun⟩, rfl⟩
  | true =>
    exact ⟨_, _, .cons (exec_endInput_run hm) rfl (.nil _),
      ⟨hc.outcnt, rfl, rfl, hd, hc.bitcnt, nofun⟩, rfl⟩

/-- The BITs and the END of a run against the pure decode function. -/
theorem feeds_runInputs (bs : List Bool) (ended : Bool) {s : State} {out : List Byte} {bc : Nat}
    (hs : s.Inv) (hm : s.mode = .run) (hc : s.Counted out bc) :
    ∃ rs t, Feeds s (runInputs bs ended) rs t ∧ t.Shows (s.walkFrom ended bs out bc) ∧
      (s.walkFrom ended bs out bc).out = out ++ deliveredBytes rs := by
  induction bs generalizing s out bc with
  | nil =>
    obtain ⟨rs, t, hf, hw, hr⟩ := feeds_no_bits ended hm hc
    exact ⟨rs, t, hf, hw, by simp [hr, State.walkFrom, walk]⟩
  | cons b bs ih =>
    obtain ⟨t, r, h, hr, ⟨hend, hw, hout⟩ | ⟨hrun, hc', hstep⟩⟩ :
        SimulatesBit s b bs ended out bc := exec_bit_simulates hs hm hc
    · obtain ⟨rs, u, hf, hw', hrs⟩ :=
        feeds_shows_of_ended (is := runInputs bs ended) (fun _ hi => mem_runInputs hi) hend hw
      exact ⟨r :: rs, u, .cons h hr hf, hw', by
        rw [hout, ← List.singleton_append (l := rs), deliveredBytes_append, hrs, List.append_nil]⟩
    · obtain ⟨rs, u, hf, hw, hout⟩ := ih (exec_keeps_inv hs h) hrun hc'
      rw [← hstep] at hw hout
      exact ⟨r :: rs, u, .cons h hr hf, hw, by
        rw [hout, ← List.singleton_append (l := rs), deliveredBytes_append, List.append_assoc]⟩

/-- START and the inputs of a run, from a good state with a valid root: the result of the pure
decode function, the tree memory and ROOT as before, and no ERR unless the run ends in FAULT. -/
theorem feeds_run (bs : List Bool) (ended : Bool) {s : State} (hs : s.Inv)
    (hr : s.rootValid = true) :
    ∃ rs t, Feeds s (.start :: runInputs bs ended) rs t ∧
      t.Shows (decodeRun s.nodeCount s.tree s.root ended bs) ∧
      deliveredBytes rs = (decodeRun s.nodeCount s.tree s.root ended bs).out ∧
      t.tree = s.tree ∧ t.root = s.root ∧ (t.mode ≠ .fault → ∀ r ∈ rs, r.err = false) := by
  have hstart : exec .start s = .next (s.beginRun.respond .ok) := exec_start_ok hr
  obtain ⟨rs, t, hf, hw, hout⟩ := feeds_runInputs bs ended (out := []) (bc := 0)
    (exec_keeps_inv hs hstart) rfl ⟨rfl, rfl⟩
  have hframe : t.tree = s.tree ∧ t.root = s.root := by
    refine hf.keeps (P := fun v => v.tree = s.tree ∧ v.root = s.root)
      (fun i hi u v hu h => ?_) ⟨rfl, rfl⟩
    obtain ⟨htree, hroot⟩ := exec_runInput_frame (mem_runInputs hi) h
    exact ⟨htree.trans hu.1, hroot.trans hu.2⟩
  have herr : t.mode ≠ .fault → ∀ r ∈ rs, r.err = false := hf.no_err fun i hi => by
    obtain rfl | ⟨b, rfl⟩ := mem_runInputs hi <;> simp
  exact ⟨.ok :: rs, t, .cons hstart rfl hf, hw, hout.symm, hframe.1, hframe.2,
    fun hm => List.forall_mem_cons.mpr ⟨rfl, herr hm⟩⟩

/-- Settles O50: the run through the ports of what `feeds_run` says command by command. -/
theorem runIsTheDecodeFunction : Obligations.RunIsTheDecodeFunction := by
  intro s bs ended hs hr hp
  obtain ⟨rs, t, hf, hw, hout, htree, hroot, -⟩ := feeds_run bs ended hs hr
  have hlen : (Instr.start :: runInputs bs ended).length =
      1 + bs.length + (if ended then 1 else 0) := by
    cases ended <;> simp [runInputs, Pseudo.bits] <;> omega
  have hrun := hf.runsTo_of_wellFormed hp
    (List.forall_mem_cons.mpr ⟨rfl, runInputs_wellFormed⟩)
  rw [hlen] at hrun
  exact ⟨_, rs, hrun, rfl, rfl, rfl, hf.length.trans hlen, htree, hroot, hout, hw.outcnt, hw.mode,
    hw.cur, hw.depth, hw.bitcnt, hw.record⟩

end Sys2Proof.Machine
end

