-- ==== Sys2Proof/Proofs/RoundTrip.lean ====
section
/-! SUPPORT. The round trip (45_reference_codec.md R186): what the frequency table of an input holds,
LOADTREE of its tree, and the run of the encoder's bits over it. -/

namespace Sys2Proof.Codec

open Sys2Proof.Machine

/-! ### The frequency table and the empty input -/

/-- Settles O52: EOS is bumped once, on a table of the bytes alone. -/
theorem countIsExact : Obligations.CountIsExact := by
  refine fun S => ⟨fun b => ?_, ?_, count_sorted S⟩
  · rw [count_eq, lookup_bump (byteTable_sorted S), if_neg (by simp), byteTable_lookup]
  · rw [count_eq, lookup_bump (byteTable_sorted S), if_pos rfl, byteTable_lookup]
    rfl

/-- Settles O57: the codec by evaluation, and the run by the arrival at EOS. -/
theorem emptyInputCode : Obligations.EmptyInputCode := by
  refine ⟨by decide, by decide, by decide, by decide, fun n hn => ?_⟩
  have hroot : (layout (.wrap 1 1 (.leaf .eos 1 0))).read 1#10 = (true, 0x301#31) := by decide
  have hleaf : (layout (.wrap 1 1 (.leaf .eos 1 0))).read 0#10 = (true, 0x100#31) := by decide
  have hchild : NodeWord.branch 0x301#31 false = (true, 0#10) := by decide
  exact walk_eos (by rw [hroot, hchild]) hleaf (by omega) (by decide)

/-! ### The tree of an input -/

/-- What the loader and the walk need of a tree: an internal root, distinct symbols, distinct
indices inside every tree memory, and a depth inside DEPTH's bound. -/
structure RefNode.Loadable (T : RefNode) : Prop where
  inner : T.isLeafNode = false
  syms : T.leafSyms.Nodup
  idxs : T.idxs.Nodup
  below : ∀ i ∈ T.idxs, i < 513
  height : T.height ≤ 256

theorem build_count_loadable (S : List Byte) : ∃ T, build (count S) = some T ∧ T.Loadable := by
  obtain ⟨T, hT, hinner, -, hsyms, hidxs, hbelow, -, hheight⟩ := build_count S
  exact ⟨T, hT, hinner, hsyms, hidxs, hbelow, hheight⟩

section
variable {T : RefNode}

theorem RefNode.Loadable.root_lt (h : T.Loadable) : T.idx < 513 := h.below _ T.idx_mem_idxs

theorem RefNode.Loadable.in_layout (h : T.Loadable) : T.In (layout T) :=
  RefNode.in_layout h.idxs fun i hi => by
    have := h.below i hi
    omega

/-- Every entry of the layout is one that NODE_WRITE accepts. -/
theorem RefNode.Loadable.layout_ok (h : T.Loadable) {n : Nat} (hmin : 513 ≤ n) (hmax : n ≤ 1024) :
    ∀ e ∈ layout T, e.1 < n ∧ e.1 < 1024 ∧ NodeWord.legal n e.2 = true := by
  intro e he
  obtain ⟨hi, hl⟩ := RefNode.entries_legal hmax
    (fun i hi => Nat.lt_of_lt_of_le (h.below i hi) hmin) e ((mem_layout h.idxs e).mp he)
  exact ⟨hi, by omega, hl⟩

/-! ### LOADTREE (R88, R181) -/

/-- ROOT keeps the low bits of the index written to it. -/
theorem extract_ofNat_eq_nodeIdx (i : Nat) :
    (BitVec.ofNat 32 i).extractLsb' 0 10 = nodeIdx i := by
  apply BitVec.eq_of_toNat_eq
  simp only [nodeIdx, BitVec.extractLsb'_toNat, BitVec.toNat_ofNat]
  omega

/-- The state with the tree in place: its layout in the tree memory, its root's index in ROOT. -/
def RefNode.loadInto (T : RefNode) (s : State) : State :=
  { s with tree := layout T, root := nodeIdx T.idx }

/-- LOADTREE answers all 0 and leaves the tree in place. -/
theorem feeds_loadTree (hT : T.Loadable) {s : State} (hs : s.Inv) (hm : s.mode ≠ .run) :
    ∃ rs, Feeds s (Pseudo.loadTree T) rs ((T.loadInto s).respond .ok) ∧
      ∀ q ∈ rs, q = Response.ok := by
  obtain ⟨rs, r, hf, hr⟩ := feeds_writeNodes (layout T) (s := s.memClear.respond .ok) hm
    (hT.layout_ok hs.params.1 hs.params.2)
  have htree : (layout T).foldl (fun k e => k.write e.1 e.2) (s.memClear.respond .ok).tree =
      layout T := writes_of_wf (layout_wf T)
  rw [htree] at hf
  have hroot : exec (.regWrite .root (BitVec.ofNat 32 T.idx))
      { s with tree := layout T, rsp := r } = .next ((T.loadInto s).respond .ok) := by
    rw [exec_regWrite_root_ok (s := { s with tree := layout T, rsp := r }) hm,
      extract_ofNat_eq_nodeIdx]
    rfl
  refine ⟨_, .cons (exec_treeClear_ok hm) rfl (hf.append (.cons hroot rfl (.nil _))), ?_⟩
  simpa [or_imp, forall_and] using hr

/-- START accepts the root of a tree in place. -/
theorem loadInto_rootValid (hT : T.Loadable) {s : State} (hs : s.Inv) :
    (T.loadInto s).rootValid = true := by
  have hread : (T.loadInto s).memRead (nodeIdx T.idx) = (true, T.word) := hT.in_layout.read
  have hlt := hT.root_lt
  have hmin : 513 ≤ s.nodeCount := hs.params.1
  refine (State.rootValid_iff _).mpr ⟨?_, ?_, ?_⟩
  · show (nodeIdx T.idx).toNat < s.nodeCount
    rw [nodeIdx_toNat (by omega)]
    omega
  · exact congrArg Prod.fst hread
  · exact (congrArg (fun e => NodeWord.sym e.2) hread).trans
      (RefNode.sym_word_of_isLeafNode hT.inner)

theorem loadTree_wellFormed (T : RefNode) : ∀ i ∈ Pseudo.loadTree T, i.wellFormed = true := by
  simp only [Pseudo.loadTree, Pseudo.writeNodes, Pseudo.setRoot, List.mem_cons, List.mem_append,
    List.mem_map, List.not_mem_nil, or_false]
  rintro i (rfl | ⟨e, -, rfl⟩ | rfl) <;> rfl

end

/-- Settles O58: the commands of LOADTREE through the ports. -/
theorem loadTreeLoadsTheLayout : Obligations.LoadTreeLoadsTheLayout := by
  intro S s hs hm hp
  obtain ⟨T, hT, hload⟩ := build_count_loadable S
  obtain ⟨rs, hf, hr⟩ := feeds_loadTree hload hs hm
  have hvalid := loadInto_rootValid hload hs
  refine ⟨T, _, rs, hT, hf.runsTo_of_wellFormed hp (loadTree_wellFormed T), ?_, hr, hvalid⟩
  obtain ⟨hrsp, hready⟩ := hp
  simp [State.withPorts, RefNode.loadInto, State.respond, hrsp, hready]

/-! ### The run of the encoder's bits (R182, R186) -/

/-- The pure decode function gives the encoder's bytes back and stops at EOS's leaf. -/
theorem decodeRun_encoded {T : RefNode} (hT : T.Loadable) {n : Nat} (hn : 513 ≤ n)
    {S : List Byte} {stream : List Bool} (he : encodeBytes S (codes (some T)) = some stream)
    (pad : List Bool) :
    ∃ k w, (layout T).read k = (true, leafWord Config.eos) ∧
      (codes (some T)).lookup .eos = some w ∧
      decodeRun n (layout T) (nodeIdx T.idx) true (stream ++ pad) =
        ⟨S, .done, k, w.length, stream.length⟩ := by
  rw [codes_eq_paths hT.syms] at he ⊢
  have hh : T.height < n := by
    have := hT.height
    omega
  obtain ⟨k, w, hk, hw, hwalk⟩ :=
    walk_encoded (ended := true) hT.inner hT.in_layout hT.syms hh he pad [] 0
  exact ⟨k, w, hk, hw, by simpa [decodeRun] using hwalk⟩

/-- The encoder gives a stream for the input of a tree. -/
theorem encode_count {S : List Byte} {T : RefNode} (hT : build (count S) = some T) :
    ∃ stream, encodeBytes S (codes (some T)) = some stream :=
  hT ▸ encoderFindsEveryByte.2 S

/-- Settles O59: LOADTREE, then the run, whose result is the pure decode function's; it does not
end in FAULT, so no command raised a fault. -/
theorem roundTrip : Obligations.RoundTrip := by
  intro S pad s hs hm hp
  obtain ⟨T, hT, hload⟩ := build_count_loadable S
  obtain ⟨stream, hstream⟩ := encode_count hT
  obtain ⟨rs, hf, hrs⟩ := feeds_loadTree hload hs hm
  have hvalid := loadInto_rootValid hload hs
  obtain ⟨qs, t, hg, hshow, hout, htree, -, herr⟩ :=
    feeds_run (s := (T.loadInto s).respond .ok) (stream ++ pad) true (hf.inv hs) hvalid
  obtain ⟨k, w, hk, hw, hrun⟩ := decodeRun_encoded hload hs.params.1 hstream pad
  have hshow : t.Shows ⟨S, .done, k, w.length, stream.length⟩ := hrun ▸ hshow
  have hout : deliveredBytes qs = S := hout.trans (congrArg WalkResult.out hrun)
  have hmode : t.mode ≠ .fault := by simp [hshow.mode, RunEnd.mode]
  have hnoerr : ∀ r ∈ rs ++ qs, r.err = false :=
    List.forall_mem_append.mpr ⟨fun r hr => hrs r hr ▸ rfl, herr hmode⟩
  have hall : Feeds s (Pseudo.decodeProgram T stream pad) (rs ++ qs) t := hf.append hg
  refine ⟨T, stream, _, rs ++ qs, w, hT, hstream, hall.runsTo_of_wellFormed hp ?_, hshow.mode,
    rfl, ?_, hshow.outcnt, hshow.bitcnt, hw, hshow.depth, ?_, hnoerr, ?_,
    (hall.inv hs).record.cause_eq_none hmode⟩
  · exact List.forall_mem_append.mpr ⟨loadTree_wellFormed T,
      List.forall_mem_cons.mpr ⟨rfl, runInputs_wellFormed (ended := true)⟩⟩
  · rw [deliveredBytes_append, deliveredBytes_of_ok hrs, hout, List.nil_append]
  · show t.tree.read t.cur = _
    rw [htree, hshow.cur]
    exact hk
  · show t.sticky = s.sticky
    rw [hall.sticky_eq, List.any_eq_false.mpr fun r hr => by simp [hnoerr r hr], Bool.or_false]

/-- Settles O60: the payload's bits are the stream and some padding, which the round trip has. -/
theorem roundTripThroughPayload : Obligations.RoundTripThroughPayload := by
  intro p S s hkeeps hs hm hp
  obtain ⟨T, hT, -⟩ := build_count_loadable S
  obtain ⟨stream, hstream⟩ := encode_count hT
  obtain ⟨pad, hpad⟩ := hkeeps stream
  obtain ⟨T', stream', t, rs, -, hT', hstream', hrun, hmode, htaken, hout, -⟩ :=
    roundTrip S pad s hs hm hp
  obtain rfl : T = T' := Option.some.inj (hT.symm.trans hT')
  obtain rfl : stream = stream' := Option.some.inj (hstream.symm.trans hstream')
  have hprogram : Pseudo.decodeProgram T (p.unpack (p.pack stream)) [] =
      Pseudo.decodeProgram T stream pad := by
    rw [Pseudo.decodeProgram, Pseudo.decodeProgram, hpad, List.append_nil]
  exact ⟨T, stream, t, rs, hT, hstream, hprogram ▸ hrun, hmode, htaken, hout⟩

end Sys2Proof.Codec
end
